-- ==== Sys2Proof/Word.lean ====
section
/-! DEFINITION. The widths the spec names (spec/30_encoding.md, spec/10_state.md), each under one name. -/

namespace Sys2Proof

/-- A symbol (dibit): "a 2-bit value (0–3) arriving one per symbol period" (R71). -/
abbrev Sym := BitVec 2

/-- One byte of a buffer (R13). -/
abbrev Byte := BitVec 8

/-- A hexbit: "a 6-bit symbol used in Reed-Solomon arithmetic" (glossary of spec/00_scope.md). -/
abbrev Hexbit := BitVec 6

/-- Format HEXVEC: the 63 hexbits `hb[0..62]` every Reed-Solomon unit works on (R82). -/
abbrev HexVec := Vector Hexbit 63

/-- Format BLOCK: twelve bytes, "the unit produced by trellis deinterleaving/decoding" (R83). -/
abbrev Block := Vector Byte 12

/-- The nine bytes of a link-control word or a message indicator in an event (R89, R178). -/
abbrev Bytes9 := Vector Byte 9

/-- Format VOICE11: one packed voice codeword (R88). -/
abbrev Bytes11 := Vector Byte 11

/-- FS_BITS (R6): the width of the sync pattern and of the window. -/
abbrev FS_BITS : Nat := 48

/-- NID_BITS (R6): the width of the identifier accumulator. -/
abbrev NID_BITS : Nat := 64

/-- STATS_PERIOD (R6): symbols between two statistics events. -/
abbrev STATS_PERIOD : Nat := 480

/-- CNT_W (R6, decision D13): the width of a statistics counter. -/
abbrev CNT_W : Nat := 64

/-- PDU_MBT_SAP (R6): the service access point of multi-block trunking. -/
abbrev PDU_MBT_SAP : Nat := 61

end Sys2Proof
end

