-- ==== Sys2Proof/Machine/Bits.lean ====
section
/-! DEFINITION. The notation of spec/00_scope.md R9, R10 and R13 on plain bits: population count, distance,
concatenation of bits and hexbits most significant first, and the cutting of a value into bytes. -/

namespace Sys2Proof.Bits

/-- `popcount(v)`: the number of one bits (R9). -/
def popcount {w : Nat} (v : BitVec w) : Nat := (List.range w).countP (fun i => v.getLsbD i)

/-- `dist(a, b) = popcount(a xor b)` (R9). -/
def dist {w : Nat} (a b : BitVec w) : Nat := popcount (a ^^^ b)

/-- The number a bit string stands for, its first bit the most significant (R10, R54). -/
def toNatBE (bs : List Bool) : Nat := bs.foldl (fun acc b => 2 * acc + b.toNat) 0

/-- The `w`-bit value of a bit string, its first bit the most significant (R54). -/
def ofBits (w : Nat) (bs : List Bool) : BitVec w := BitVec.ofNat w (toNatBE bs)

/-- The low `w` bits of a number as a bit string, the most significant first. -/
def natBits (w n : Nat) : List Bool := (List.range w).map (fun i => n.testBit (w - 1 - i))

/-- The bits of a value, the most significant first: the inverse of `ofBits`. -/
def toBits {w : Nat} (v : BitVec w) : List Bool := natBits w v.toNat

/-- The bits of a byte buffer, byte 0 first and in each byte bit 7 first (R13, R155). -/
def bytesBits (bs : List Byte) : List Bool := bs.flatMap toBits

/-- `h[0] ‖ h[1] ‖ …`: the bit string of a run of hexbits, the first on top (R81). -/
def ofHexbits (w : Nat) (hs : List Hexbit) : BitVec w :=
  BitVec.ofNat w (hs.foldl (fun acc h => 64 * acc + h.toNat) 0)

/-- `bytes(v, L)`: a value cut into L bytes, most significant first (R13). -/
def bytesBE (L : Nat) (v : BitVec (8 * L)) : Vector Byte L :=
  Vector.ofFn fun i => v.extractLsb' (8 * (L - 1 - i.val)) 8

/-- A list has exactly `n` elements, counted from the front. -/
def hasLength {α : Type} : Nat → List α → Bool
  | 0, l => l.isEmpty
  | _ + 1, [] => false
  | n + 1, _ :: l => hasLength n l

/-- A bit string cut into words of four bits, the first bit of each on top (R84). A rest shorter than four is dropped. -/
def chunk4 : List Bool → List (BitVec 4)
  | a :: b :: c :: d :: rest => ofBits 4 [a, b, c, d] :: chunk4 rest
  | _ => []

end Sys2Proof.Bits
end

