-- ==== Sys2Proof/Config/Record.lean ====
section
/-! DEFINITION. The configuration record `Cfg` of spec/00_scope.md R6, field by field, and the constraints of its table
(`Cfg.WellFormed`). D0 leaves almost every constant open: a field the spec marks OPEN has no value here either.
The record holds functions: it is configuration, never state (R21, R262). -/

namespace Sys2Proof

/-- The seven recognized frame types, in the order of D0's section 4.3 (glossary of spec/00_scope.md). -/
inductive FrameType where
  | hdu | tdu | ldu1 | tsbk | ldu2 | pdu | tdulc
deriving DecidableEq, Repr

/-- The type code the opcode table gives each recognized type: the defaults of the configuration fields `DUID_*`
(R76, decision D12: only `DUID_TDU` = 3 is D0's own value). The machine's own codes are `Cfg.duid`. -/
def FrameType.code : FrameType → BitVec 4
  | .hdu => 0x0
  | .tdu => 0x3
  | .ldu1 => 0x5
  | .tsbk => 0x7
  | .ldu2 => 0xA
  | .pdu => 0xC
  | .tdulc => 0xF

/-- The three Reed-Solomon instances (n = 63, k) (R140). -/
inductive RsInst where
  | k55 | k51 | k47
deriving DecidableEq, Repr

/-- The number of payload positions of an instance (R140). -/
def RsInst.k : RsInst → Nat
  | .k55 => 55
  | .k51 => 51
  | .k47 => 47

/-- The number of symbol errors an instance corrects: `t_k = floor((63 - k)/2)` (R140). -/
def RsInst.t (i : RsInst) : Nat := (63 - i.k) / 2

/-- IN_FRAME_SYNC (R6, decision D5): what a sync pattern inside an identifier or a body does. -/
inductive InFrameSync where
  | abandon | ignore
deriving DecidableEq, Repr

/-- The result of the identifier decoder (R107). -/
inductive NidResult where
  | fail
  | ok (nac : BitVec 12) (duid : BitVec 4) (par : BitVec 1) (cw : BitVec 64) (nerr : Nat)
deriving DecidableEq, Repr

/-- The configuration record (R6). `FS_BITS`, `NID_BITS`, `STATS_PERIOD`, `CNT_W` and `PDU_MBT_SAP`, which R6 pins
to one value each, are the constants of Word.lean. A table whose length is itself a field (`TSBK_BLOCK_OFF`,
`PDU_BLOCK_OFF`) is a function of which only the entries below that length are ever read. -/
structure Cfg where
  /-- FS_PATTERN, OPEN. -/
  fsPattern : BitVec 48
  /-- SYNC_MAX_ERR, default 0 (decision D4). -/
  syncMaxErr : Nat
  /-- IN_FRAME_SYNC, default ABANDON (decision D5). -/
  inFrameSync : InFrameSync
  /-- nid_decode, OPEN; contract R108. -/
  nidDecode : BitVec 64 → NidResult
  /-- DUID_HDU … DUID_TDULC (decision D12). -/
  duid : FrameType → BitVec 4
  /-- BODY_LEN, OPEN. -/
  bodyLen : FrameType → Nat
  /-- BODY_LEN_UNREC, OPEN. -/
  bodyLenUnrec : Nat
  /-- BODY_MAX, the number of one-bit cells of the body buffer. -/
  bodyMax : Nat
  /-- enc24, OPEN. -/
  enc24 : BitVec 12 → BitVec 24
  /-- T24, the correction radius, which follows from enc24. -/
  t24 : Nat
  /-- dec24_fallback, OPEN (decision D17): the value of a word outside the radius. -/
  dec24Fallback : BitVec 24 → BitVec 12
  /-- ham_enc, OPEN. -/
  hamEnc : BitVec 6 → BitVec 10
  /-- ham_dec, OPEN. -/
  hamDec : BitVec 10 → BitVec 6
  /-- rs_enc[k], OPEN. -/
  rsEnc : (i : RsInst) → Vector Hexbit i.k → HexVec
  /-- rs_dec[k], OPEN; contract R141 to R144. -/
  rsDec : RsInst → HexVec → HexVec × Int
  /-- TRELLIS_PERM, OPEN. -/
  trellisPerm : Fin 196 → Fin 196
  /-- TRELLIS_TAB, OPEN: row = state, column = input symbol. -/
  trellisTab : BitVec 2 → BitVec 2 → BitVec 4
  /-- CRC16_POLY, OPEN. -/
  crc16Poly : BitVec 17
  /-- CRC32_POLY, OPEN. -/
  crc32Poly : BitVec 33
  /-- HDU_CW_POS, OPEN. -/
  hduCwPos : Fin 36 → Fin 18 → Nat
  /-- LDU1_HB_POS, OPEN. -/
  ldu1HbPos : Fin 24 → Fin 10 → Nat
  /-- LDU2_HB_POS, OPEN. -/
  ldu2HbPos : Fin 24 → Fin 10 → Nat
  /-- TDULC_CW_POS, OPEN. -/
  tdulcCwPos : Fin 12 → Fin 24 → Nat
  /-- VOICE_POS, OPEN. -/
  voicePos : Fin 9 → Fin 86 → Nat
  /-- VOICE_SPARE, OPEN. -/
  voiceSpare : Fin 9 → Fin 2 → Nat
  /-- TSBK_MAX_BLOCKS, OPEN. -/
  tsbkMaxBlocks : Nat
  /-- TSBK_BLOCK_OFF, OPEN. -/
  tsbkBlockOff : Nat → Nat
  /-- PDU_MAX_BLOCKS, OPEN (header block included). -/
  pduMaxBlocks : Nat
  /-- PDU_BLOCK_OFF, OPEN. -/
  pduBlockOff : Nat → Nat
  /-- pdu_fmt, OPEN (below 2^8). -/
  pduFmt : Block → BitVec 8
  /-- pdu_sap, OPEN (below 2^8). -/
  pduSap : Block → BitVec 8
  /-- pdu_blks, OPEN (below 2^8). -/
  pduBlks : Block → BitVec 8
  /-- PDU_MBT_FMTS, OPEN. -/
  pduMbtFmts : List Nat
  /-- LCW_TGID, OPEN. -/
  lcwTgid : Bytes9 → Option (BitVec 16)
  /-- HDU_MISM_MAX, default 6 (R7). -/
  hduMismMax : Nat
  /-- LC_MISM_LIM, default 6 (R7). -/
  lcMismLim : Nat
  /-- VOICE_MISM_LIM, default 16 (R7). -/
  voiceMismLim : Nat

/-- The number of symbol positions in which two hexbit vectors differ (R142). -/
def symDist (a b : HexVec) : Nat := (Finset.univ.filter fun i : Fin 63 => a[i] ≠ b[i]).card

/-- A length rounded up to even (R6, the constraint of `BODY_MAX`; R25). -/
def evenUp (n : Nat) : Nat := n + n % 2

/-- The table `T` has pairwise distinct entries, each a body index below `len`: "injective, every entry < …" (R6). -/
def TableOk {n m : Nat} (T : Fin n → Fin m → Nat) (len : Nat) : Prop :=
  (∀ i j i' j', T i j = T i' j' → i = i' ∧ j = j') ∧ ∀ i j, T i j < len

/-- The constraints of R6's table, with the contracts the table refers to (R108, R141 to R143). -/
structure Cfg.WellFormed (c : Cfg) : Prop where
  syncMaxErr_lt : c.syncMaxErr < 24
  /-- R108 (a). -/
  nid_nerr : ∀ w nac duid par cw nerr, c.nidDecode w = .ok nac duid par cw nerr → nerr = Bits.dist w cw
  /-- R108 (b). -/
  nid_valid : ∀ w nac duid par cw nerr,
    c.nidDecode w = .ok nac duid par cw nerr → c.nidDecode cw = .ok nac duid par cw 0
  /-- R108 (c). -/
  nid_every : ∀ nac duid, ∃ par cw, c.nidDecode cw = .ok nac duid par cw 0
  duid_distinct : ∀ t t', c.duid t = c.duid t' → t = t'
  duid_tdu : c.duid .tdu = 3
  bodyLen_le : ∀ t, evenUp (c.bodyLen t) ≤ c.bodyMax
  bodyLenUnrec_le : evenUp c.bodyLenUnrec ≤ c.bodyMax
  bodyMax_even : c.bodyMax % 2 = 0
  enc24_linear : ∀ a b, c.enc24 (a ^^^ b) = c.enc24 a ^^^ c.enc24 b
  enc24_systematic : ∀ v, (c.enc24 v).extractLsb' 12 12 = v
  /-- T24 = floor((D24 - 1)/2) for the minimum distance D24 of the code, which is at least 3 (R6, R131). -/
  t24_radius : ∃ d24, 3 ≤ d24 ∧ (∀ a b, a ≠ b → d24 ≤ Bits.dist (c.enc24 a) (c.enc24 b)) ∧
    (∃ a b, a ≠ b ∧ Bits.dist (c.enc24 a) (c.enc24 b) = d24) ∧ c.t24 = (d24 - 1) / 2
  /-- ham_enc is injective; it follows from the left inverse, as the table states both. -/
  ham_inverse : ∀ v, c.hamDec (c.hamEnc v) = v
  rs_systematic : ∀ i (p : Vector Hexbit i.k) (j : Fin i.k) (j' : Fin 63), j'.val = j.val →
    (c.rsEnc i p)[j'] = p[j]
  /-- The zero vector is a codeword of each instance (R141, its example). -/
  rs_zero : ∀ i, c.rsEnc i (Vector.replicate i.k 0) = Vector.replicate 63 0
  /-- R142. -/
  rs_success : ∀ i hb p, symDist hb (c.rsEnc i p) ≤ i.t →
    c.rsDec i hb = (c.rsEnc i p, (symDist hb (c.rsEnc i p) : Int))
  /-- R143. -/
  rs_failure : ∀ i hb, (∀ p, i.t < symDist hb (c.rsEnc i p)) → (c.rsDec i hb).2 = -1
  perm_injective : ∀ i j, c.trellisPerm i = c.trellisPerm j → i = j
  tab_distinct : ∀ s x y, c.trellisTab s x = c.trellisTab s y → x = y
  crc16_top : c.crc16Poly.getLsbD 16 = true
  crc32_top : c.crc32Poly.getLsbD 32 = true
  hduCwPos_ok : TableOk c.hduCwPos (c.bodyLen .hdu)
  ldu1HbPos_ok : TableOk c.ldu1HbPos (c.bodyLen .ldu1)
  ldu2HbPos_ok : TableOk c.ldu2HbPos (c.bodyLen .ldu2)
  tdulcCwPos_ok : TableOk c.tdulcCwPos (c.bodyLen .tdulc)
  voicePos_ok1 : TableOk c.voicePos (c.bodyLen .ldu1)
  voicePos_ok2 : TableOk c.voicePos (c.bodyLen .ldu2)
  voiceSpare_lt : ∀ s j, c.voiceSpare s j < c.bodyLen .ldu1 ∧ c.voiceSpare s j < c.bodyLen .ldu2
  tsbkMaxBlocks_pos : 1 ≤ c.tsbkMaxBlocks
  tsbkBlockOff_le : ∀ i, i < c.tsbkMaxBlocks → c.tsbkBlockOff i + 196 ≤ c.bodyLen .tsbk
  pduMaxBlocks_pos : 1 ≤ c.pduMaxBlocks
  pduBlockOff_le : ∀ i, i < c.pduMaxBlocks → c.pduBlockOff i + 196 ≤ c.bodyLen .pdu

/-- The parameters that have a default hold it: SYNC_MAX_ERR 0 (D4), ABANDON (D5), the opcode table's type codes (D12)
and the three thresholds 6, 6 and 16, which are "tunable" (R7, D37). The machine does not assume it. -/
structure Cfg.AtDefaults (c : Cfg) : Prop where
  syncMaxErr_eq : c.syncMaxErr = 0
  inFrameSync_eq : c.inFrameSync = .abandon
  duid_eq : c.duid = FrameType.code
  hduMismMax_eq : c.hduMismMax = 6
  lcMismLim_eq : c.lcMismLim = 6
  voiceMismLim_eq : c.voiceMismLim = 16

/-- Why a configuration is not accepted (R6). -/
inductive ConfigRefusal where
  /-- A constraint of R6's table fails (U6 of spec/93_implementation_defined.md). -/
  | illFormed
deriving DecidableEq, Repr

/-- R6, decision D38: the check before any step. A configuration that breaks a constraint is refused; one that keeps
them all is handed on with the proof that it does. -/
def Cfg.accept (c : Cfg) (check : Decidable c.WellFormed) : Except ConfigRefusal { c : Cfg // c.WellFormed } :=
  match check with
  | .isTrue h => .ok ⟨c, h⟩
  | .isFalse _ => .error .illFormed

end Sys2Proof
end

