-- ==== Sys2Proof/Config/Exists.lean ====
section
/-! DEFINITION. A well-formed configuration EXISTS: one concrete record that meets every constraint of R6. It is no
candidate for the hardware: it only shows that the constraints can be met together, so that the opaque
configuration of Config.lean may be declared. No definition of the machine unfolds it.

Its three Reed-Solomon codes are evaluation codes over a field of 64 elements. The field is Mathlib's, which does not
compute; the encoder is therefore DEFINED as the first table that has the needed property, and the evaluation code
only proves that there is one. -/

namespace Sys2Proof.ConfigExists

open Polynomial

/-- A systematic encoder of length 63 whose codewords differ in more than `2 t_k` places, on index functions. -/
def GoodEnc (i : RsInst) (e : (Fin i.k → Fin 64) → Fin 63 → Fin 64) : Prop :=
  e (fun _ => 0) = (fun _ => 0) ∧
  (∀ p, ∀ j : Fin 63, ∀ h : j.val < i.k, e p j = p ⟨j.val, h⟩) ∧
  ∀ p q, p ≠ q → 2 * i.t < (Finset.univ.filter fun j : Fin 63 => e p j ≠ e q j).card

theorem RsInst.k_le (i : RsInst) : i.k ≤ 63 := by cases i <;> decide

theorem RsInst.k_add_t (i : RsInst) : i.k + 2 * i.t = 63 := by cases i <;> decide

/-- Field elements numbered 0 to 63 with 0 as number 0. -/
theorem exists_numbering : ∃ e : GaloisField 2 6 ≃ Fin 64, e 0 = 0 := by
  have : Finite (GaloisField 2 6) := inferInstance
  let : Fintype (GaloisField 2 6) := Fintype.ofFinite _
  have hc : Fintype.card (GaloisField 2 6) = 64 := by
    have h := GaloisField.card 2 6 (by decide)
    rw [Nat.card_eq_fintype_card] at h
    simpa using h
  let e0 : GaloisField 2 6 ≃ Fin 64 := Fintype.equivOfCardEq (by simp [hc])
  exact ⟨e0.trans (Equiv.swap (e0 0) 0), by simp⟩

theorem exists_points : ∃ pt : Fin 63 → GaloisField 2 6, Function.Injective pt := by
  obtain ⟨e, _⟩ := exists_numbering
  exact ⟨fun j => e.symm (Fin.castLE (by decide) j), fun a b h => by
    simpa [Fin.ext_iff] using e.symm.injective h⟩

/-- The evaluation code of the polynomials of degree below k at 63 distinct points is a good encoder. -/
theorem exists_goodEnc (i : RsInst) : ∃ e, GoodEnc i e := by
  classical
  obtain ⟨num, hnum⟩ := exists_numbering
  obtain ⟨pt, hpt⟩ := exists_points
  let node : Fin i.k → GaloisField 2 6 := fun j => pt (Fin.castLE (RsInst.k_le i) j)
  have hnode : Function.Injective node := fun a b h => by
    simpa [Fin.ext_iff] using hpt h
  have hnodeOn : Set.InjOn node (Finset.univ : Finset (Fin i.k)) := fun a _ b _ h => hnode h
  let poly : (Fin i.k → Fin 64) → (GaloisField 2 6)[X] := fun p =>
    Lagrange.interpolate Finset.univ node (fun j => num.symm (p j))
  have hdeg : ∀ p, (poly p).degree < i.k := fun p => by
    have h := Lagrange.degree_interpolate_lt (fun j => num.symm (p j)) hnodeOn
    simpa only [Finset.card_univ, Fintype.card_fin] using h
  have heval : ∀ p j, (poly p).eval (node j) = num.symm (p j) := fun p j =>
    Lagrange.eval_interpolate_at_node _ hnodeOn (Finset.mem_univ j)
  have hnum' : num.symm 0 = 0 := by rw [← hnum]; simp
  refine ⟨fun p j => num ((poly p).eval (pt j)), ?_, ?_, ?_⟩
  · funext j
    have : poly (fun _ => 0) = 0 := by
      have : (fun j : Fin i.k => num.symm ((fun _ => (0 : Fin 64)) j)) = 0 := by
        funext j; simp [hnum']
      simp only [poly]
      rw [this, map_zero]
    simp [this, hnum]
  · intro p j h
    have := heval p ⟨j.val, h⟩
    simp only [node, Fin.castLE_mk] at this
    simp [this]
  · intro p q hpq
    by_contra hle
    push Not at hle
    let agree := Finset.univ.filter fun j : Fin 63 => (poly p).eval (pt j) = (poly q).eval (pt j)
    have hcard : i.k ≤ agree.card := by
      have h1 := Finset.card_filter_add_card_filter_not (s := (Finset.univ : Finset (Fin 63)))
        (fun j => (poly p).eval (pt j) = (poly q).eval (pt j))
      have h2 : (Finset.univ.filter fun j : Fin 63 => ¬ (poly p).eval (pt j) = (poly q).eval (pt j)).card ≤ 2 * i.t := by
        refine le_trans (le_of_eq ?_) hle
        congr 1
        ext j
        simp
      have h3 := RsInst.k_add_t i
      simp only [Finset.card_univ, Fintype.card_fin] at h1
      simp only [agree]
      omega
    have heq : poly p = poly q := by
      refine Polynomial.eq_of_degrees_lt_of_eval_finset_eq (agree.image pt) ?_ ?_ ?_
      · rw [Finset.card_image_of_injective _ hpt]
        exact lt_of_lt_of_le (hdeg p) (by exact_mod_cast hcard)
      · rw [Finset.card_image_of_injective _ hpt]
        exact lt_of_lt_of_le (hdeg q) (by exact_mod_cast hcard)
      · intro x hx
        obtain ⟨j, hj, rfl⟩ := Finset.mem_image.mp hx
        exact (Finset.mem_filter.mp hj).2
    apply hpq
    funext j
    have hp := heval p j
    rw [heq, heval q j] at hp
    exact (num.symm.injective hp).symm

/-- GoodEnc is decided by trying every argument. -/
@[reducible] def goodEncDecidable (i : RsInst) : DecidablePred (GoodEnc i) := fun e => by unfold GoodEnc; infer_instance

/-- The encoder table of the witness: the first good one. -/
@[irreducible] def encTable (i : RsInst) : { e // GoodEnc i e } :=
  @Encodable.chooseX _ (GoodEnc i) _ (goodEncDecidable i) (exists_goodEnc i)

/-- The hexbits of a vector as numbers. -/
def toFins {k : Nat} (p : Vector Hexbit k) : Fin k → Fin 64 := fun q => p[q].toFin

/-- A table on numbers 0 to 63 read as a function on hexbits. -/
@[irreducible] def encVec (i : RsInst) (p : Vector Hexbit i.k) : HexVec :=
  Vector.ofFn fun j => BitVec.ofFin ((encTable i).val (toFins p) j)

theorem encVec_get (i : RsInst) (p : Vector Hexbit i.k) (j : Fin 63) :
    (encVec i p)[j] = BitVec.ofFin ((encTable i).val (toFins p) j) := by
  unfold encVec; simp

theorem encVec_systematic (i : RsInst) (p : Vector Hexbit i.k) (j : Fin i.k) (j' : Fin 63) (h : j'.val = j.val) :
    (encVec i p)[j'] = p[j] := by
  have hj : j'.val < i.k := by omega
  have hjj : (⟨j'.val, hj⟩ : Fin i.k) = j := Fin.ext h
  rw [encVec_get, (encTable i).property.2.1 (toFins p) j' hj, hjj]
  rfl

theorem encVec_zero (i : RsInst) : encVec i (Vector.replicate i.k 0) = Vector.replicate 63 0 := by
  have hz : toFins (Vector.replicate i.k (0 : Hexbit)) = fun _ => 0 := by
    funext q; simp [toFins]
  ext j hj : 1
  have := encVec_get i (Vector.replicate i.k 0) ⟨j, hj⟩
  simp only [Fin.getElem_fin] at this
  rw [this, hz, (encTable i).property.1]
  simp

theorem encVec_far (i : RsInst) (p q : Vector Hexbit i.k) (h : p ≠ q) :
    2 * i.t < symDist (encVec i p) (encVec i q) := by
  have hne : toFins p ≠ toFins q := by
    intro he
    apply h
    ext j hj : 1
    exact BitVec.toFin_inj.mp (congrFun he ⟨j, hj⟩)
  have hset : (Finset.univ.filter fun j : Fin 63 => (encVec i p)[j] ≠ (encVec i q)[j]) =
      Finset.univ.filter fun j : Fin 63 =>
        (encTable i).val (toFins p) j ≠ (encTable i).val (toFins q) j := by
    ext j
    simp only [Finset.mem_filter, Finset.mem_univ, true_and, ne_eq, encVec_get]
    rw [BitVec.ofFin.injEq]
  rw [symDist, hset]
  exact (encTable i).property.2.2 _ _ hne

theorem symDist_triangle (a b c : HexVec) : symDist b c ≤ symDist a b + symDist a c := by
  unfold symDist
  refine le_trans (Finset.card_le_card ?_) (Finset.card_union_le _ _)
  intro j hj
  simp only [Finset.mem_union, Finset.mem_filter, Finset.mem_univ, true_and, ne_eq] at hj ⊢
  by_cases h : a[j] = b[j]
  · exact .inr fun h' => hj (h.symm.trans h')
  · exact .inl h

/-- Numbers as hexbits: the inverse of `toFins`. -/
def ofFins {k : Nat} (f : Fin k → Fin 64) : Vector Hexbit k := Vector.ofFn fun j => BitVec.ofFin (f j)

theorem ofFins_toFins {k : Nat} (p : Vector Hexbit k) : ofFins (toFins p) = p := by
  ext j hj : 1
  simp [ofFins, toFins]

/-- The payload of the codeword within the radius, found by search (R142, R143). -/
def decVec (i : RsInst) (hb : HexVec) : HexVec × Int :=
  if h : ∃ p : Fin i.k → Fin 64, symDist hb (encVec i (ofFins p)) ≤ i.t then
    (encVec i (ofFins (Encodable.choose h)), symDist hb (encVec i (ofFins (Encodable.choose h))))
  else (hb, -1)

theorem decVec_success (i : RsInst) (hb : HexVec) (p : Vector Hexbit i.k) (hp : symDist hb (encVec i p) ≤ i.t) :
    decVec i hb = (encVec i p, (symDist hb (encVec i p) : Int)) := by
  have hex : ∃ p : Fin i.k → Fin 64, symDist hb (encVec i (ofFins p)) ≤ i.t :=
    ⟨toFins p, by rw [ofFins_toFins]; exact hp⟩
  have hq := Encodable.choose_spec hex
  have heq : ofFins (Encodable.choose hex) = p := by
    by_contra hne
    have h1 := encVec_far i _ _ hne
    have h2 := symDist_triangle hb (encVec i (ofFins (Encodable.choose hex))) (encVec i p)
    omega
  rw [decVec, dif_pos hex, heq]

theorem decVec_failure (i : RsInst) (hb : HexVec) (h : ∀ p, i.t < symDist hb (encVec i p)) :
    (decVec i hb).2 = -1 := by
  have : ¬ ∃ p : Fin i.k → Fin 64, symDist hb (encVec i (ofFins p)) ≤ i.t := by
    rintro ⟨p, hp⟩
    exact absurd hp (Nat.not_le.mpr (h _))
  rw [decVec, dif_neg this]

theorem extract_append_top {m n : Nat} (a : BitVec m) (b : BitVec n) : (a ++ b).extractLsb' n m = a := by
  ext i hi
  simp [BitVec.getElem_extractLsb', BitVec.getLsbD_append, hi]

theorem extract_append_low {m n : Nat} (a : BitVec m) (b : BitVec n) : (a ++ b).extractLsb' 0 n = b := by
  ext i hi
  simp [BitVec.getElem_extractLsb', BitVec.getLsbD_append, hi]

theorem extract_append_below {m n : Nat} (a : BitVec m) (b : BitVec n) (s len : Nat) (h : s + len ≤ n) :
    (a ++ b).extractLsb' s len = b.extractLsb' s len := by
  ext i hi
  have : s + i < n := by omega
  simp [BitVec.getElem_extractLsb', BitVec.getLsbD_append, this]

theorem append_xor {m n : Nat} (a b : BitVec m) (c d : BitVec n) :
    (a ^^^ b) ++ (c ^^^ d) = (a ++ c) ^^^ (b ++ d) := by
  ext i hi
  simp only [BitVec.getElem_append, BitVec.getElem_xor]
  split <;> rfl

/-- A systematic linear (24,12) code of minimum distance 3: information on top, twelve parity bits below, each
information bit entering two of them. -/
def enc24 (v : BitVec 12) : BitVec 24 := v ++ (v ^^^ v.rotateLeft 1)

theorem enc24_linear (a b : BitVec 12) : enc24 (a ^^^ b) = enc24 a ^^^ enc24 b := by
  have h : (a ^^^ b).rotateLeft 1 = a.rotateLeft 1 ^^^ b.rotateLeft 1 := by
    ext i hi
    simp only [BitVec.getElem_rotateLeft, BitVec.getElem_xor]
    split <;> rfl
  have h' : a ^^^ b ^^^ (a ^^^ b).rotateLeft 1 = (a ^^^ a.rotateLeft 1) ^^^ (b ^^^ b.rotateLeft 1) := by
    rw [h]; ac_rfl
  rw [enc24, h', enc24, enc24]
  exact append_xor a b _ _

/-- The one bits of a number below position `k`, counted by halving. -/
def onesBelow : Nat → Nat → Nat
  | 0, _ => 0
  | k + 1, n => n % 2 + onesBelow k (n / 2)

theorem countP_testBit (k n : Nat) : (List.range k).countP (fun i => n.testBit i) = onesBelow k n := by
  induction k generalizing n with
  | zero => rfl
  | succ k ih =>
    rw [List.range_succ_eq_map, List.countP_cons, List.countP_map, onesBelow, ← ih (n / 2), Nat.add_comm]
    congr 1
    · simp only [Nat.testBit_zero, decide_eq_true_eq]; split <;> omega
    · congr 1; funext i; simp [Nat.testBit_succ]

theorem popcount_eq {w : Nat} (v : BitVec w) : Bits.popcount v = onesBelow w v.toNat := countP_testBit w v.toNat

/-- Every codeword of 1 to n has at least three one bits. -/
def heavyUpTo : Nat → Bool
  | 0 => true
  | n + 1 => Nat.ble 3 (onesBelow 24 (enc24 (BitVec.ofNat 12 (n + 1))).toNat) && heavyUpTo n

set_option maxRecDepth 20000 in
theorem heavyUpTo_all : heavyUpTo 4095 = true := by decide +kernel

theorem heavyUpTo_le (n : Nat) (h : heavyUpTo n = true) :
    ∀ m, 0 < m → m ≤ n → 3 ≤ onesBelow 24 (enc24 (BitVec.ofNat 12 m)).toNat := by
  induction n with
  | zero => intro m h1 h2; omega
  | succ n ih =>
    intro m h1 h2
    simp only [heavyUpTo, Bool.and_eq_true, Nat.ble_eq] at h
    rcases Nat.lt_or_ge n m with h3 | h3
    · obtain rfl : m = n + 1 := by omega
      exact h.1
    · exact ih h.2 m h1 h3

theorem enc24_weight (v : BitVec 12) (h : v ≠ 0) : 3 ≤ Bits.popcount (enc24 v) := by
  have h0 : v.toNat ≠ 0 := fun h' => h (BitVec.eq_of_toNat_eq (by simpa using h'))
  have := heavyUpTo_le 4095 heavyUpTo_all v.toNat (by omega) (by omega)
  rwa [BitVec.ofNat_toNat, BitVec.setWidth_eq, ← popcount_eq] at this

theorem enc24_far (a b : BitVec 12) (h : a ≠ b) : 3 ≤ Bits.dist (enc24 a) (enc24 b) := by
  rw [Bits.dist, ← enc24_linear]
  exact enc24_weight _ fun h0 => h (BitVec.xor_eq_zero_iff.mp h0)

/-- An identifier decoder that accepts only the 65536 words whose low 48 bits are zero. -/
def nidDecode (w : BitVec 64) : NidResult :=
  if w.extractLsb' 0 48 = 0 then .ok (w.extractLsb' 52 12) (w.extractLsb' 48 4) 0 w 0 else .fail

theorem dist_self {w : Nat} (a : BitVec w) : Bits.dist a a = 0 := by
  simp [Bits.dist, Bits.popcount]

/-- A well-formed record for each value of IN_FRAME_SYNC. -/
def witnessWith (mode : InFrameSync) : Cfg where
  fsPattern := 0
  syncMaxErr := 0
  inFrameSync := mode
  nidDecode := nidDecode
  duid := FrameType.code
  bodyLen := fun _ => 1032
  bodyLenUnrec := 0
  bodyMax := 1032
  enc24 := enc24
  t24 := 1
  dec24Fallback := fun _ => 0
  hamEnc := fun v => v ++ (0 : BitVec 4)
  hamDec := fun w => w.extractLsb' 4 6
  rsEnc := encVec
  rsDec := decVec
  trellisPerm := id
  trellisTab := fun _ x => x.setWidth 4
  crc16Poly := 0x10000
  crc32Poly := 0x100000000
  hduCwPos := fun i b => 18 * i.val + b.val
  ldu1HbPos := fun i b => 10 * i.val + b.val
  ldu2HbPos := fun i b => 10 * i.val + b.val
  tdulcCwPos := fun i b => 24 * i.val + b.val
  voicePos := fun s j => 86 * s.val + j.val
  voiceSpare := fun _ _ => 0
  tsbkMaxBlocks := 1
  tsbkBlockOff := fun _ => 0
  pduMaxBlocks := 1
  pduBlockOff := fun _ => 0
  pduFmt := fun _ => 0
  pduSap := fun _ => 0
  pduBlks := fun _ => 0
  pduMbtFmts := []
  lcwTgid := fun _ => none
  hduMismMax := 6
  lcMismLim := 6
  voiceMismLim := 16

theorem rowMajor_ok {n m : Nat} (len : Nat) (h : m * n ≤ len) :
    TableOk (fun (i : Fin n) (j : Fin m) => m * i.val + j.val) len := by
  refine ⟨fun i j i' j' he => ?_, fun i j => ?_⟩
  · have hj := j.isLt
    have hj' := j'.isLt
    have hd : (m * i.val + j.val) / m = (m * i'.val + j'.val) / m := by simp only at he; rw [he]
    have hm : 0 < m := by omega
    rw [Nat.mul_add_div hm, Nat.mul_add_div hm, Nat.div_eq_of_lt hj, Nat.div_eq_of_lt hj'] at hd
    have hi : i = i' := Fin.ext (by omega)
    subst hi
    exact ⟨rfl, Fin.ext (by simp only at he; omega)⟩
  · have h1 : m * i.val + j.val < m * (i.val + 1) := by rw [Nat.mul_succ]; omega
    exact lt_of_lt_of_le h1 (le_trans (Nat.mul_le_mul_left m i.isLt) h)

theorem witnessWith_wellFormed (mode : InFrameSync) : (witnessWith mode).WellFormed where
  syncMaxErr_lt := by cases mode <;> decide
  nid_nerr := by
    intro w nac duid par cw nerr h
    simp only [witnessWith, nidDecode] at h
    split at h
    · cases h; exact (dist_self w).symm
    · cases h
  nid_valid := by
    intro w nac duid par cw nerr h
    simp only [witnessWith, nidDecode] at h ⊢
    split at h
    · next hw => cases h; rw [if_pos hw]
    · cases h
  nid_every := by
    intro nac duid
    refine ⟨0, nac ++ duid ++ (0 : BitVec 48), ?_⟩
    have h0 : (nac ++ duid ++ (0 : BitVec 48)).extractLsb' 0 48 = 0 := extract_append_low _ _
    have h1 : (nac ++ (duid ++ (0 : BitVec 48))).extractLsb' 52 12 = nac := extract_append_top _ _
    have h2 : (nac ++ (duid ++ (0 : BitVec 48))).extractLsb' 48 4 = duid := by
      have hb := extract_append_below nac (duid ++ (0 : BitVec 48)) 48 4 (by decide)
      exact hb.trans (extract_append_top _ _)
    have hassoc : nac ++ duid ++ (0 : BitVec 48) = nac ++ (duid ++ (0 : BitVec 48)) := by
      simpa using BitVec.append_assoc (x₁ := nac) (x₂ := duid) (x₃ := (0 : BitVec 48))
    rw [← hassoc] at h1 h2
    simp only [witnessWith, nidDecode, h0, h1, h2, if_true]
  duid_distinct := by intro t t'; cases mode <;> cases t <;> cases t' <;> decide
  duid_tdu := rfl
  bodyLen_le := fun _ => by show evenUp 1032 ≤ 1032; decide
  bodyLenUnrec_le := by cases mode <;> decide
  bodyMax_even := by cases mode <;> decide
  enc24_linear := enc24_linear
  enc24_systematic := by
    intro v
    exact extract_append_top v _
  t24_radius := ⟨3, by decide, enc24_far, ⟨1, 0, by decide, by cases mode <;> decide⟩, rfl⟩
  ham_inverse := by
    intro v
    exact extract_append_top v _
  rs_systematic := encVec_systematic
  rs_zero := encVec_zero
  rs_success := decVec_success
  rs_failure := decVec_failure
  perm_injective := fun _ _ h => h
  tab_distinct := by intro s x y h; exact BitVec.eq_of_toNat_eq (by simpa [witnessWith, BitVec.toNat_setWidth, Nat.mod_eq_of_lt (show x.toNat < 16 by omega), Nat.mod_eq_of_lt (show y.toNat < 16 by omega)] using congrArg BitVec.toNat h)
  crc16_top := by cases mode <;> decide
  crc32_top := by cases mode <;> decide
  hduCwPos_ok := rowMajor_ok _ (by show 18 * 36 ≤ 1032; decide)
  ldu1HbPos_ok := rowMajor_ok _ (by show 10 * 24 ≤ 1032; decide)
  ldu2HbPos_ok := rowMajor_ok _ (by show 10 * 24 ≤ 1032; decide)
  tdulcCwPos_ok := rowMajor_ok _ (by show 24 * 12 ≤ 1032; decide)
  voicePos_ok1 := rowMajor_ok _ (by show 86 * 9 ≤ 1032; decide)
  voicePos_ok2 := rowMajor_ok _ (by show 86 * 9 ≤ 1032; decide)
  voiceSpare_lt := fun _ _ => by constructor <;> (show 0 < 1032; decide)
  tsbkMaxBlocks_pos := by cases mode <;> decide
  tsbkBlockOff_le := fun _ _ => by show 0 + 196 ≤ 1032; decide
  pduMaxBlocks_pos := by cases mode <;> decide
  pduBlockOff_le := fun _ _ => by show 0 + 196 ≤ 1032; decide

/-- The witness, with the spec's default values of the parameters that have one (SYNC_MAX_ERR 0, ABANDON, 6, 6, 16). -/
def witness : Cfg := witnessWith .abandon

theorem witness_wellFormed : witness.WellFormed := witnessWith_wellFormed .abandon

theorem witness_atDefaults : witness.AtDefaults := ⟨rfl, rfl, rfl, rfl, rfl, rfl⟩

end Sys2Proof.ConfigExists
end

