-- ==== Sys2Proof/Config.lean ====
section
/-! DEFINITION. THE configuration of the machine: an opaque, well-formed record. Nothing in Lean can evaluate a field
of it, so a theorem about the machine holds for every well-formed value of the open parameters
(spec/92_eei_decisions.md, last paragraph). -/

namespace Sys2Proof

/-- A configuration the model accepts: R6's constraints hold. The default values of the fields only show Lean that the
type has an element. -/
structure MachineCfg where
  cfg : Cfg := ConfigExists.witness
  wf : cfg.WellFormed := by exact ConfigExists.witness_wellFormed
deriving Inhabited

/-- The machine's configuration, fixed for its whole life (R262). It has no body: every OPEN field, the fallback value
of a (24,12) word outside the radius (U1), the Reed-Solomon vector after a failure (U2) and `ham_dec` on a word that
is no codeword (U4) are free values in it. -/
opaque Config.machine : MachineCfg

/-- The record `Cfg` the machine's meanings are given. -/
def Config.cfg : Cfg := Config.machine.cfg

theorem Config.cfg_wellFormed : Config.cfg.WellFormed := Config.machine.wf

end Sys2Proof
end

