-- ==== Sys2Proof/Syntax.lean ====
section
/-! DEFINITION. The operations of the block as syntax: one constructor of `Instr` for each mnemonic of
spec/opcode_table.json (a mnemonic with several rows, UNREC and FU_RESERVED, is one constructor whose operand says
which row), and `Presented`, what stands at the block's inputs when an operation is taken in. The block has no program
(R2): formats IN and PIN are what the ports carry (R70, R260), format NID is the word a completed frame is dispatched
on (R75), format FU is a call of a toolkit unit by its select code (R90). -/

namespace Sys2Proof

/-- The four formats of spec/opcode_table.json. -/
inductive Format where
  | inp | pin | nid | fu
deriving DecidableEq, Repr

/-- The eight unsigned fields of a voice codeword (R87). -/
structure VoiceFields where
  u0 : BitVec 12
  u1 : BitVec 12
  u2 : BitVec 12
  u3 : BitVec 12
  u4 : BitVec 11
  u5 : BitVec 11
  u6 : BitVec 9
  u7 : BitVec 7
deriving DecidableEq, Repr

/-- The operations (spec/opcode_table.json). Don't-care bits of a row are an operand, so that no bit is lost. -/
inductive Instr where
  /-- IDLE, `in` = 00xx (R224). -/
  | idle (ignored : BitVec 2)
  /-- OBSERVE, `in` = 01ss (R100). -/
  | observe (sym : Sym)
  /-- STATS_CLEAR, `in` = 10xx (R221). -/
  | statsClear (ignored : BitVec 2)
  /-- CLEAR_OBSERVE, `in` = 11ss (R225). -/
  | clearObserve (sym : Sym)
  /-- RESET, the pin `rst` = 1; `word` is the input word of that step, which is ignored (R260). -/
  | reset (word : BitVec 4)
  /-- DISCARD: NAC 0, whatever the type code (R171). -/
  | discard (duid : BitVec 4)
  /-- HDU (R172). -/
  | hdu (nac : BitVec 12)
  /-- TDU (R175). -/
  | tdu (nac : BitVec 12)
  /-- LDU1 (R176). -/
  | ldu1 (nac : BitVec 12)
  /-- TSBK (R184). -/
  | tsbk (nac : BitVec 12)
  /-- LDU2 (R180). -/
  | ldu2 (nac : BitVec 12)
  /-- PDU (R187). -/
  | pdu (nac : BitVec 12)
  /-- TDULC (R191). -/
  | tdulc (nac : BitVec 12)
  /-- UNREC: a type code that is none of the seven (R193). -/
  | unrec (nac : BitVec 12) (duid : BitVec 4)
  /-- G24_DEC, `fsel` 0x0 (R132). -/
  | g24Dec (w : BitVec 24)
  /-- G24_ENC, `fsel` 0x1 (R131). -/
  | g24Enc (v : BitVec 12)
  /-- RS_63_55, `fsel` 0x2 (R141). -/
  | rs6355 (hb : HexVec)
  /-- RS_63_51, `fsel` 0x3 (R141). -/
  | rs6351 (hb : HexVec)
  /-- RS_63_47, `fsel` 0x4 (R141). -/
  | rs6347 (hb : HexVec)
  /-- HAM_DEC, `fsel` 0x5 (R146). -/
  | hamDec (w : BitVec 10)
  /-- HAM_ENC, `fsel` 0x6 (R145). -/
  | hamEnc (v : BitVec 6)
  /-- TRELLIS_DEC, `fsel` 0x7; `off` is a body index (R150). -/
  | trellisDec (off : Nat)
  /-- CRC16, `fsel` 0x8, of a buffer of any length (R155). -/
  | crc16 (bytes : List Byte)
  /-- CRC32, `fsel` 0x9, of a bit sequence, first bit first (R158). -/
  | crc32 (bits : List Bool)
  /-- VOICE_DEINT, `fsel` 0xA; `s` is a segment number 0..8 (R201). -/
  | voiceDeint (s : Fin 9)
  /-- VOICE_PACK, `fsel` 0xB (R202). -/
  | voicePack (u : VoiceFields)
  /-- NID_DEC, `fsel` 0xC (R108). -/
  | nidDec (w : BitVec 64)
  /-- FU_RESERVED, `fsel` 0xD to 0xF (R90). -/
  | fuReserved (sel : BitVec 4)
deriving DecidableEq, Repr

/-- What stands at the inputs for one step. -/
inductive Presented where
  /-- The ports of the block: the pin `rst` and the input word `stats_clear ‖ sym_valid ‖ sym[1:0]` (R70, R260). -/
  | pins (rst : BitVec 1) (word : BitVec 4)
  /-- An information word `nac ‖ duid` handed straight to the dispatcher, its type code one of the configuration's
  `DUID_*` (R75, R76). DESIGN CHOICE, assumption 3. -/
  | info (word : BitVec 16)
  /-- A word of format NID as spec/opcode_table.json writes it: the table's rows have the DEFAULT type codes, so such a
  word names a row of the table whatever codes the configuration has (R76). DESIGN CHOICE, assumption 11. -/
  | row (word : BitVec 16)
  /-- A select code and the operand bits handed straight to a toolkit unit (R90). DESIGN CHOICE, assumption 3. -/
  | unit (sel : BitVec 4) (operand : List Bool)
deriving DecidableEq, Repr

/-- Why `decode` rejects what stands at a unit's inputs. -/
inductive DecodeError where
  /-- The operand does not have the number of bits the unit `sel` takes. -/
  | operandLength (sel : BitVec 4)
  /-- VOICE_DEINT of a segment number above 8: there are nine segments (R201). -/
  | noSuchSegment (s : BitVec 4)
deriving DecidableEq, Repr

/-- The mnemonic of an operation in spec/opcode_table.json. -/
def Instr.mnemonic : Instr → String
  | .idle _ => "IDLE"
  | .observe _ => "OBSERVE"
  | .statsClear _ => "STATS_CLEAR"
  | .clearObserve _ => "CLEAR_OBSERVE"
  | .reset _ => "RESET"
  | .discard _ => "DISCARD"
  | .hdu _ => "HDU"
  | .tdu _ => "TDU"
  | .ldu1 _ => "LDU1"
  | .tsbk _ => "TSBK"
  | .ldu2 _ => "LDU2"
  | .pdu _ => "PDU"
  | .tdulc _ => "TDULC"
  | .unrec _ _ => "UNREC"
  | .g24Dec _ => "G24_DEC"
  | .g24Enc _ => "G24_ENC"
  | .rs6355 _ => "RS_63_55"
  | .rs6351 _ => "RS_63_51"
  | .rs6347 _ => "RS_63_47"
  | .hamDec _ => "HAM_DEC"
  | .hamEnc _ => "HAM_ENC"
  | .trellisDec _ => "TRELLIS_DEC"
  | .crc16 _ => "CRC16"
  | .crc32 _ => "CRC32"
  | .voiceDeint _ => "VOICE_DEINT"
  | .voicePack _ => "VOICE_PACK"
  | .nidDec _ => "NID_DEC"
  | .fuReserved _ => "FU_RESERVED"

end Sys2Proof
end

