-- ==== Sys2Proof/WellFormed.lean ====
section
/-! DEFINITION. Which operations are well formed: the constraints of spec/opcode_table.json that the types of
Syntax.lean do not already hold. -/

namespace Sys2Proof

/-- `d` is the code of one of the seven recognized types, under the type codes `code` (R76, R77 (2)). -/
def isRecognized (code : FrameType → BitVec 4) (d : BitVec 4) : Bool :=
  d == code .hdu || d == code .tdu || d == code .ldu1 || d == code .tsbk || d == code .ldu2 || d == code .pdu ||
    d == code .tdulc

/-- A processor's row is selected only when `nac != 0` (the DISCARD row comes first, R76); an UNREC row is a code that
is none of the seven codes `code`; a reserved select code is one of 0xD to 0xF (R90). -/
def Instr.wellFormed (code : FrameType → BitVec 4) : Instr → Bool
  | .idle _ => true
  | .observe _ => true
  | .statsClear _ => true
  | .clearObserve _ => true
  | .reset _ => true
  | .discard _ => true
  | .hdu nac => nac != 0
  | .tdu nac => nac != 0
  | .ldu1 nac => nac != 0
  | .tsbk nac => nac != 0
  | .ldu2 nac => nac != 0
  | .pdu nac => nac != 0
  | .tdulc nac => nac != 0
  | .unrec nac duid => nac != 0 && !isRecognized code duid
  | .g24Dec _ => true
  | .g24Enc _ => true
  | .rs6355 _ => true
  | .rs6351 _ => true
  | .rs6347 _ => true
  | .hamDec _ => true
  | .hamEnc _ => true
  | .trellisDec _ => true
  | .crc16 _ => true
  | .crc32 _ => true
  | .voiceDeint _ => true
  | .voicePack _ => true
  | .nidDec _ => true
  | .fuReserved sel => 13 ≤ sel.toNat

end Sys2Proof
end

