-- ==== Sys2Proof/Decode.lean ====
section
/-! DEFINITION. The decoder, total on everything that can stand at the inputs, the encoder written from the same table,
the opcode table itself as data, and the host's view of a table word. -/

namespace Sys2Proof

/-! ### Decoding -/

/-- The recognized type whose code is `d`, tested in the order of R170. -/
def typeOfCode (code : FrameType → BitVec 4) (d : BitVec 4) : Option FrameType :=
  if d = code .hdu then some .hdu
  else if d = code .tdu then some .tdu
  else if d = code .ldu1 then some .ldu1
  else if d = code .tsbk then some .tsbk
  else if d = code .ldu2 then some .ldu2
  else if d = code .pdu then some .pdu
  else if d = code .tdulc then some .tdulc
  else none

/-- Format IN: `in[3:2]` selects, `in[1:0]` is the symbol (R70). -/
def decodeIn (word : BitVec 4) : Instr :=
  match word.extractLsb' 3 1 == 1, word.extractLsb' 2 1 == 1 with
  | false, false => .idle (word.extractLsb' 0 2)
  | false, true => .observe (word.extractLsb' 0 2)
  | true, false => .statsClear (word.extractLsb' 0 2)
  | true, true => .clearObserve (word.extractLsb' 0 2)

/-- Format NID under the type codes `code`: the test for NAC 0 comes first, then the type code (R75, R76). -/
def decodeInfo (code : FrameType → BitVec 4) (word : BitVec 16) : Instr :=
  let nac := word.extractLsb' 4 12
  let duid := word.extractLsb' 0 4
  if nac = 0 then .discard duid
  else
    match typeOfCode code duid with
    | some .hdu => .hdu nac
    | some .tdu => .tdu nac
    | some .ldu1 => .ldu1 nac
    | some .tsbk => .tsbk nac
    | some .ldu2 => .ldu2 nac
    | some .pdu => .pdu nac
    | some .tdulc => .tdulc nac
    | none => .unrec nac duid

/-- An operand of exactly `w` bits, the first on top (R54). -/
def operand (sel : BitVec 4) (w : Nat) (bits : List Bool) : Except DecodeError (BitVec w) :=
  if Bits.hasLength w bits then .ok (Bits.ofBits w bits) else .error (.operandLength sel)

/-- A hexbit vector as 63 · 6 operand bits, `hb[0]` first. -/
def hexVecOperand (sel : BitVec 4) (bits : List Bool) : Except DecodeError HexVec :=
  if Bits.hasLength 378 bits then .ok (Vector.ofFn fun j => Bits.ofBits 6 ((bits.drop (6 * j.val)).take 6))
  else .error (.operandLength sel)

/-- Bytes from operand bits, eight to a byte, bit 7 first. -/
def bytesOfBits : List Bool → List Byte
  | a :: b :: c :: d :: e :: f :: g :: h :: rest => Bits.ofBits 8 [a, b, c, d, e, f, g, h] :: bytesOfBits rest
  | _ => []

/-- The eight voice fields from their 86-bit concatenation `u0 ‖ … ‖ u7`. -/
def fieldsOf (v : BitVec 86) : VoiceFields where
  u0 := v.extractLsb' 74 12
  u1 := v.extractLsb' 62 12
  u2 := v.extractLsb' 50 12
  u3 := v.extractLsb' 38 12
  u4 := v.extractLsb' 27 11
  u5 := v.extractLsb' 16 11
  u6 := v.extractLsb' 7 9
  u7 := v.extractLsb' 0 7

/-- A segment number 0..8 (R201). -/
def segment (s : BitVec 4) : Except DecodeError (Fin 9) :=
  if h : s.toNat < 9 then .ok ⟨s.toNat, h⟩ else .error (.noSuchSegment s)

/-- Format FU: the select code names the unit (R90); the operand bits are read as the unit's row of the table names
them. The order of the bits of an operand is DESIGN CHOICE, assumption 4. -/
def decodeUnit (sel : BitVec 4) (bits : List Bool) : Except DecodeError Instr :=
  match sel.toNat with
  | 0x0 => (operand sel 24 bits).map .g24Dec
  | 0x1 => (operand sel 12 bits).map .g24Enc
  | 0x2 => (hexVecOperand sel bits).map .rs6355
  | 0x3 => (hexVecOperand sel bits).map .rs6351
  | 0x4 => (hexVecOperand sel bits).map .rs6347
  | 0x5 => (operand sel 10 bits).map .hamDec
  | 0x6 => (operand sel 6 bits).map .hamEnc
  | 0x7 => .ok (.trellisDec (Bits.toNatBE bits))
  | 0x8 => if bits.length % 8 = 0 then .ok (.crc16 (bytesOfBits bits)) else .error (.operandLength sel)
  | 0x9 => .ok (.crc32 bits)
  | 0xA => (operand sel 4 bits).bind fun s => (segment s).map .voiceDeint
  | 0xB => (operand sel 86 bits).map fun v => .voicePack (fieldsOf v)
  | 0xC => (operand sel 64 bits).map .nidDec
  | _ => .ok (.fuReserved sel)

/-- The type codes what stands at the inputs is read under: the configuration's (R76), but for a word of the opcode
table, which is written in the table's. -/
def codesOf : Presented → FrameType → BitVec 4
  | .pins _ _ => Config.cfg.duid
  | .info _ => Config.cfg.duid
  | .row _ => FrameType.code
  | .unit _ _ => Config.cfg.duid

/-- The operation that stands at the inputs. `rst` = 1 overrides the input word (R260). -/
def decode : Presented → Except DecodeError Instr
  | .pins rst word => .ok (if rst = 1 then .reset word else decodeIn word)
  | .info word => .ok (decodeInfo Config.cfg.duid word)
  | .row word => .ok (decodeInfo FrameType.code word)
  | .unit sel bits => decodeUnit sel bits

/-! ### Encoding -/

/-- The shortest bit string of a body index, its first bit the most significant. -/
def indexBits (n : Nat) : List Bool := Bits.natBits (Nat.log2 n + 1) n

/-- The 86-bit concatenation of the voice fields. -/
def fieldBits (u : VoiceFields) : List Bool :=
  Bits.toBits u.u0 ++ Bits.toBits u.u1 ++ Bits.toBits u.u2 ++ Bits.toBits u.u3 ++ Bits.toBits u.u4 ++
    Bits.toBits u.u5 ++ Bits.toBits u.u6 ++ Bits.toBits u.u7

/-- What stands at the inputs for an operation under the type codes `code`: the words of spec/opcode_table.json, where
`code` has its defaults. -/
def encodeWith (code : FrameType → BitVec 4) : Instr → Presented
  | .idle ignored => .pins 0 (0b00#2 ++ ignored)
  | .observe sym => .pins 0 (0b01#2 ++ sym)
  | .statsClear ignored => .pins 0 (0b10#2 ++ ignored)
  | .clearObserve sym => .pins 0 (0b11#2 ++ sym)
  | .reset word => .pins 1 word
  | .discard duid => .info (0#12 ++ duid)
  | .hdu nac => .info (nac ++ code .hdu)
  | .tdu nac => .info (nac ++ code .tdu)
  | .ldu1 nac => .info (nac ++ code .ldu1)
  | .tsbk nac => .info (nac ++ code .tsbk)
  | .ldu2 nac => .info (nac ++ code .ldu2)
  | .pdu nac => .info (nac ++ code .pdu)
  | .tdulc nac => .info (nac ++ code .tdulc)
  | .unrec nac duid => .info (nac ++ duid)
  | .g24Dec w => .unit 0x0 (Bits.toBits w)
  | .g24Enc v => .unit 0x1 (Bits.toBits v)
  | .rs6355 hb => .unit 0x2 (hb.toList.flatMap Bits.toBits)
  | .rs6351 hb => .unit 0x3 (hb.toList.flatMap Bits.toBits)
  | .rs6347 hb => .unit 0x4 (hb.toList.flatMap Bits.toBits)
  | .hamDec w => .unit 0x5 (Bits.toBits w)
  | .hamEnc v => .unit 0x6 (Bits.toBits v)
  | .trellisDec off => .unit 0x7 (indexBits off)
  | .crc16 bytes => .unit 0x8 (Bits.bytesBits bytes)
  | .crc32 bits => .unit 0x9 bits
  | .voiceDeint s => .unit 0xA (Bits.natBits 4 s.val)
  | .voicePack u => .unit 0xB (fieldBits u)
  | .nidDec w => .unit 0xC (Bits.toBits w)
  | .fuReserved sel => .unit sel []

/-- What stands at the inputs for an operation, under the configuration's type codes (R76). -/
def encode : Instr → Presented := encodeWith Config.cfg.duid

/-! ### The opcode table as data -/

/-- One row of spec/opcode_table.json. -/
structure Row where
  mnemonic : String
  format : Format
  pattern : Nat
  mask : Nat
deriving DecidableEq, Repr

/-- The rows of a format in the table's order, under the type codes `code`; spec/opcode_table.json writes the rows of
format NID for the default codes (notes of its NID rows). The rows of UNREC are "every duid that equals none of the
seven `DUID_*` fields". -/
def rowsOf (code : FrameType → BitVec 4) : Format → List Row
  | .inp => [⟨"IDLE", .inp, 0x0, 0xC⟩, ⟨"OBSERVE", .inp, 0x4, 0xC⟩, ⟨"STATS_CLEAR", .inp, 0x8, 0xC⟩,
    ⟨"CLEAR_OBSERVE", .inp, 0xC, 0xC⟩]
  | .pin => [⟨"RESET", .pin, 0x1, 0x1⟩]
  | .nid => [⟨"DISCARD", .nid, 0x0000, 0xFFF0⟩, ⟨"HDU", .nid, (code .hdu).toNat, 0xF⟩,
    ⟨"TDU", .nid, (code .tdu).toNat, 0xF⟩, ⟨"LDU1", .nid, (code .ldu1).toNat, 0xF⟩,
    ⟨"TSBK", .nid, (code .tsbk).toNat, 0xF⟩, ⟨"LDU2", .nid, (code .ldu2).toNat, 0xF⟩,
    ⟨"PDU", .nid, (code .pdu).toNat, 0xF⟩, ⟨"TDULC", .nid, (code .tdulc).toNat, 0xF⟩] ++
    ((List.range 16).filter fun d => !isRecognized code (BitVec.ofNat 4 d)).map fun d => ⟨"UNREC", .nid, d, 0xF⟩
  | .fu => [⟨"G24_DEC", .fu, 0x0, 0xF⟩, ⟨"G24_ENC", .fu, 0x1, 0xF⟩, ⟨"RS_63_55", .fu, 0x2, 0xF⟩,
    ⟨"RS_63_51", .fu, 0x3, 0xF⟩, ⟨"RS_63_47", .fu, 0x4, 0xF⟩, ⟨"HAM_DEC", .fu, 0x5, 0xF⟩, ⟨"HAM_ENC", .fu, 0x6, 0xF⟩,
    ⟨"TRELLIS_DEC", .fu, 0x7, 0xF⟩, ⟨"CRC16", .fu, 0x8, 0xF⟩, ⟨"CRC32", .fu, 0x9, 0xF⟩, ⟨"VOICE_DEINT", .fu, 0xA, 0xF⟩,
    ⟨"VOICE_PACK", .fu, 0xB, 0xF⟩, ⟨"NID_DEC", .fu, 0xC, 0xF⟩, ⟨"FU_RESERVED", .fu, 0xD, 0xF⟩,
    ⟨"FU_RESERVED", .fu, 0xE, 0xF⟩, ⟨"FU_RESERVED", .fu, 0xF, 0xF⟩]

/-- spec/opcode_table.json: its rows, which have the default type codes. -/
def opcodeTable : List Row :=
  rowsOf FrameType.code .inp ++ rowsOf FrameType.code .pin ++ rowsOf FrameType.code .nid ++ rowsOf FrameType.code .fu

/-- The format and the word by which the table names what stands at the inputs. -/
def tableWord : Presented → Format × Nat
  | .pins rst word => if rst = 1 then (.pin, 1) else (.inp, word.toNat)
  | .info word => (.nid, word.toNat)
  | .row word => (.nid, word.toNat)
  | .unit sel _ => (.fu, sel.toNat)

/-- A row matches a word of its format when the masked bits are the row's. -/
def Row.selects (r : Row) (p : Presented) : Bool :=
  r.format == (tableWord p).1 && ((tableWord p).2 &&& r.mask) == r.pattern

/-- "Rows of one format are tested in list order; the first match wins" (note of the table's DISCARD row). -/
def tableMnemonic (p : Presented) : Option String :=
  ((rowsOf (codesOf p) (tableWord p).1).find? fun r => r.selects p).map Row.mnemonic

/-! ### A table word as the host numbers it -/

/-- How many operand bits the host's all-zero operand gives a unit: the unit's operand length, twelve bytes for CRC16
(the length of every call), none for CRC32 and for a reserved code. -/
def zeroOperandBits (sel : Nat) : Nat :=
  match sel with
  | 0x0 => 24
  | 0x1 => 12
  | 0x2 => 378
  | 0x3 => 378
  | 0x4 => 378
  | 0x5 => 10
  | 0x6 => 6
  | 0x7 => 16
  | 0x8 => 96
  | 0xA => 4
  | 0xB => 86
  | 0xC => 64
  | _ => 0

/-- What a table word of `nbits` bits stands for at the inputs. The formats IN, PIN and FU share the words below 16, so
a word alone does not say its format: the FIRST row of the table, in the table's order, whose match value it is gives
it (IN for 0, 4, 8 and C, PIN for 1, FU for the rest). A 16-bit word is a row of format NID. DESIGN CHOICE,
assumptions 5 and 11. -/
def presentTableWord (nbits w : Nat) : Presented :=
  if 8 < nbits then .row (BitVec.ofNat 16 w)
  else if w % 16 = 1 then .pins 1 0
  else if w % 4 = 0 then .pins 0 (BitVec.ofNat 4 w)
  else .unit (BitVec.ofNat 4 w) (List.replicate (zeroOperandBits (w % 16)) false)

/-- The instruction the decoder reads from a table word. -/
def decodeTableWord (nbits w : Nat) : Option Instr :=
  match decode (presentTableWord nbits w) with
  | .ok i => some i
  | .error _ => none

end Sys2Proof
end

