-- ==== Sys2Proof/Machine/State.lean ====
section
/-! DEFINITION. The state of one block instance (spec/10_state.md), the records its events and unit results are made
of, the reasons a step can stop, and the state after reset (R41). -/

namespace Sys2Proof.Machine

/-- What the next symbol is used for (R23). -/
inductive Phase where
  | search | nid | body
deriving DecidableEq, Repr

/-- The body buffer (R50): a list of (body index, bit) pairs, the hardware's cell being ONE BIT. Canonical form:
indices strictly rising, and no entry holding the bit an unlisted index reads as, which is 0 (R41). -/
abbrev Memory := List (Nat × Bool)

/-- The canonical form. -/
def Memory.wf : Memory → Bool
  | [] => true
  | [(_, v)] => v
  | (a, v) :: (b, w) :: m => v && decide (a < b) && Memory.wf ((b, w) :: m)

/-- The names of event fields (R89). -/
inductive FieldName where
  | nac | duid | mfid | tgid | algid | keyid | mi | lcw | imbe | tsbk | fmt | sap | blks | pdu | ok
  | symbols | syncs | goodNids | badNids
deriving DecidableEq, Repr

/-- A typed value: "unsigned decimal, fixed-width unsigned hex, boolean, raw byte buffer" (R89). -/
inductive Value where
  | dec (n : Nat)
  | hex (digits : Nat) (n : Nat)
  | bool (b : Bool)
  | buffer (bytes : List Byte)
deriving DecidableEq, Repr

/-- The two kinds of event (R89). -/
inductive EventKind where
  | p25Du | stats
deriving DecidableEq, Repr

/-- An event: "an ordered sequence of (name, typed-value) pairs" (R89). -/
structure Event where
  kind : EventKind
  fields : List (FieldName × Value)
deriving DecidableEq, Repr

/-- What a toolkit unit answers (R130; the result of each row of format FU). -/
inductive UnitResult where
  /-- R132. -/
  | g24Dec (value : BitVec 12) (nerr : Nat) (ok : Bool)
  /-- R131. -/
  | g24Enc (cw : BitVec 24)
  /-- R141: the vector and the count, -1 for uncorrectable. -/
  | rs (hb : HexVec) (n : Int)
  /-- R146. -/
  | hamDec (value : BitVec 6) (mism : Bool)
  /-- R145. -/
  | hamEnc (cw : BitVec 10)
  /-- R150: none is `Fail`. -/
  | trellis (block : Option Block)
  /-- R155. -/
  | crc16 (v : BitVec 16)
  /-- R158. -/
  | crc32 (v : BitVec 32)
  /-- R201: the fields, and nothing of the two spare bits (R203). -/
  | voiceDeint (u : VoiceFields)
  /-- R202. -/
  | voicePack (b : Bytes11)
  /-- R108. -/
  | nidDec (r : NidResult)
deriving DecidableEq, Repr

/-- Encryption-sync state: "an explicit field of a per-channel session object" (R33 to R36). -/
structure Ess where
  /-- algorithm id -/
  algid : BitVec 8
  /-- key id -/
  keyid : BitVec 16
  /-- message indicator -/
  mi : BitVec 72
  /-- talkgroup id -/
  tgid : BitVec 16
deriving DecidableEq, Repr

/-- The state of one instance (R20: four groups), and the model's own fields: the outputs of the step just done
(R210), the result of a unit called directly, and the inputs still to come. -/
structure State where
  /-- the bit accumulator, newest symbol in bits 1:0 (R22) -/
  win : BitVec 48
  phase : Phase
  /-- identifier symbols accumulated (R23) -/
  nidCnt : BitVec 6
  /-- the frame-identifier accumulator (R24) -/
  nidAcc : BitVec 64
  /-- bits the current body needs (R25) -/
  bodyLen : Nat
  /-- index of the next body bit to write (R25) -/
  cursor : Nat
  /-- the frame body (R50) -/
  body : Memory
  /-- Frame register: network access code (R27) -/
  nac : BitVec 12
  /-- Frame register: type code (R27) -/
  duid : BitVec 4
  /-- Frame register: parity bit (R27) -/
  par : BitVec 1
  /-- Frame register: corrected identifier codeword (R27) -/
  nidCw : BitVec 64
  /-- Frame register: bits corrected in it (R27) -/
  nidNerr : BitVec 7
  /-- FrameStats (R29, R30) -/
  symbols : BitVec 64
  syncs : BitVec 64
  goodNids : BitVec 64
  badNids : BitVec 64
  /-- symbols since the last statistics event (R32) -/
  statDiv : BitVec 9
  ess : Ess
  /-- the output `frame_done` of the step just done (R38, R210) -/
  frameDone : Bool
  /-- the event records of the step just done, in order (R210) -/
  events : List Event
  /-- the result of the unit the step just done called directly -/
  unitOut : Option UnitResult
  /-- what will stand at the inputs in the steps to come, the next one first -/
  input : List Presented
deriving DecidableEq, Repr

/-- Why a step stops with a fault. -/
inductive Fault where
  /-- TRELLIS_DEC, called directly, of a segment that reaches past the last cell of the body buffer (index
  `BODY_MAX` - 1): there is no such cell (R50). Raised by `execTrellisDec` only. Safe: the block itself never makes
  such a call (R57), and nothing is proved of a state after it. -/
  | noSuchBodyCell
deriving DecidableEq, Repr

/-- Why a step is refused. -/
inductive Refusal where
  /-- An instruction that has no meaning in this model. Raised by `exec` only; no arm raises it. Safe. -/
  | notModelled (mnemonic : String)
  /-- A reserved select code, 0xD to 0xF: "no processor issues them and a model refuses them" (R90). Raised by
  `execFuReserved`. Safe: nothing is proved of a state after it. -/
  | reservedUnit (sel : BitVec 4)
  /-- The operand bits at a unit's inputs are no operand of the unit. Raised by `step`. Safe: no port of the block
  carries a unit call (R90). -/
  | undecodable (e : DecodeError)
deriving DecidableEq, Repr

/-- Reset values of ESS (R41). -/
def Ess.reset : Ess where
  algid := 0
  keyid := 0
  mi := 0
  tgid := 0

/-- The state after reset (R41); of the model's own fields, no output and no input yet (assumption 2). -/
def State.reset : State where
  win := 0
  phase := .search
  nidCnt := 0
  nidAcc := 0
  bodyLen := 0
  cursor := 0
  body := []
  nac := 0
  duid := 0
  par := 0
  nidCw := 0
  nidNerr := 0
  symbols := 0
  syncs := 0
  goodNids := 0
  badNids := 0
  statDiv := 0
  ess := Ess.reset
  frameDone := false
  events := []
  unitOut := none
  input := []

end Sys2Proof.Machine
end

