-- ==== Sys2Proof/Machine/Ops.lean ====
section
/-! DEFINITION. The named operations every meaning is made of: reading and writing the body buffer (R10, R50, R54),
the outputs of a step (R12, R210), the counters (R9, R30), the control transfer (R11) and the one thing this block has
in the place of taking an exception, the failure-only event (R234, R239). -/

namespace Sys2Proof.Machine

open Sys2Proof

/-! ### The body buffer -/

/-- The bit at a body index: "the bit last written at index i" (R55), 0 before any write (R41). -/
def Memory.read : Memory → Nat → Bool
  | [], _ => false
  | (b, v) :: m, a => if a = b then v else Memory.read m a

/-- Store one bit, keeping the canonical form. -/
def Memory.write : Memory → Nat → Bool → Memory
  | [], a, v => if v then [(a, v)] else []
  | (b, w) :: m, a, v =>
    if a < b then (if v then (a, v) :: (b, w) :: m else (b, w) :: m)
    else if a = b then (if v then (a, v) :: m else m)
    else (b, w) :: Memory.write m a v

/-- `MemWrite(addr, n, v)`: `v[n-1]` at `addr` up to `v[0]` at `addr + n - 1` (R10). -/
def Memory.memWrite {n : Nat} (m : Memory) (addr : Nat) (v : BitVec n) : Memory :=
  (List.range n).foldl (fun m i => m.write (addr + i) (v.getLsbD (n - 1 - i))) m

/-- `MemRead(addr, n)`: the n bits from `addr` on, the lowest index on top (R10). -/
def Memory.memRead (m : Memory) (addr n : Nat) : BitVec n :=
  Bits.ofBits n ((List.range n).map fun i => m.read (addr + i))

/-- `gather(T)`: the body bits at the indices of a table row, the first on top (R10, R54, R79). -/
def Memory.gather {n : Nat} (m : Memory) (row : Fin n → Nat) : BitVec n :=
  Bits.ofBits n ((List.finRange n).map fun j => m.read (row j))

/-! ### The outputs of a step -/

/-- A step begins with no output of its own: `frame_done` = 0, no event, no unit result (R210). -/
def State.beginStep (s : State) : State := { s with frameDone := false, events := [], unitOut := none }

/-- `emit E`: append an event record to the step's output list (R12). -/
def State.emit (s : State) (e : Event) : State := { s with events := s.events ++ [e] }

/-- The step answers with a unit's result. -/
def State.answer (s : State) (r : UnitResult) : State := { s with unitOut := some r }

/-! ### Events (R89) -/

/-- The first two fields of every decode event: `nac`, `duid` (R194). -/
structure Header where
  nac : BitVec 12
  duid : BitVec 4
deriving DecidableEq, Repr

/-- `ev(...)`: the decode event with the listed fields after `nac` and `duid` (R194). -/
def ev (h : Header) (fields : List (FieldName × Value)) : Event where
  kind := .p25Du
  fields := (.nac, .hex 3 h.nac.toNat) :: (.duid, .hex 1 h.duid.toNat) :: fields

/-- The failure-only event `ev(ok: false)`: the whole of a hard failure (R234, R239). -/
def evFail (h : Header) : Event := ev h [(.ok, .bool false)]

/-- The statistics event (R218). -/
def evStats (s : State) : Event where
  kind := .stats
  fields := [(.symbols, .dec s.symbols.toNat), (.syncs, .dec s.syncs.toNat),
    (.goodNids, .dec s.goodNids.toNat), (.badNids, .dec s.badNids.toNat)]

/-! ### Counters, registers and control transfer -/

/-- The clear of the four FrameStats counters, and of nothing else (R31, R221). -/
def State.clearStats (s : State) : State := { s with symbols := 0, syncs := 0, goodNids := 0, badNids := 0 }

/-- Back to "searching for sync" (R26): `phase <- SEARCH`, `nid_cnt <- 0`, and nothing else. -/
def State.toSearch (s : State) : State := { s with phase := .search, nidCnt := 0 }

/-- What a frame-type processor leaves behind: its events, and ESS. It can write nothing else (R195, R196). -/
structure ProcResult where
  events : List Event
  ess : Ess
deriving DecidableEq, Repr

/-- Append a processor's events to the step's outputs and put its ESS in place. -/
def State.apply (s : State) (r : ProcResult) : State := { s with events := s.events ++ r.events, ess := r.ess }

end Sys2Proof.Machine
end

