-- ==== Sys2Proof/Machine/Operands.lean ====
section
/-! DEFINITION. The operands of the units and processors: how coded words, hexbit vectors, blocks and voice fields are
taken out of the body and cut into fields (spec/30_encoding.md section 6, R173, R182). -/

namespace Sys2Proof.Machine

open Sys2Proof

/-- The hexbit vector of a frame that carries n < 63 hexbits: the j-th at `hb[63 - n + j]`, zeros before (R82). -/
def hexVecOf (received : List Hexbit) : HexVec :=
  Vector.ofFn fun q => (List.replicate (63 - received.length) 0 ++ received).getD q.val 0

/-- The hexbits `hb[lo .. lo + n - 1]`. -/
def hexRun (hb : HexVec) (lo n : Nat) : List Hexbit := (hb.toList.drop lo).take n

/-- The link-control bytes: the 12 data hexbits `hb'[39..50]` as nine bytes (R178, R81). -/
def lcwOf (hb : HexVec) : Bytes9 := Bits.bytesBE 9 (Bits.ofHexbits 72 (hexRun hb 39 12))

/-- The fields of the header (R173). -/
structure HeaderFields where
  mi : BitVec 72
  mfid : BitVec 8
  algid : BitVec 8
  keyid : BitVec 16
  tgid : BitVec 16
deriving DecidableEq, Repr

/-- `mi = D[119:48]`, `mfid = D[47:40]`, `algid = D[39:32]`, `keyid = D[31:16]`, `tgid = D[15:0]` (R173). -/
def headerFieldsOf (D : BitVec 120) : HeaderFields where
  mi := D.extractLsb' 48 72
  mfid := D.extractLsb' 40 8
  algid := D.extractLsb' 32 8
  keyid := D.extractLsb' 16 16
  tgid := D.extractLsb' 0 16

/-- The header's data string: the 20 hexbits `hb'[27..46]` (R172). -/
def headerData (hb : HexVec) : BitVec 120 := Bits.ofHexbits 120 (hexRun hb 27 20)

/-- Voice frame 2's data string: the 16 hexbits `hb'[39..54]` (R180). -/
def ldu2Data (hb : HexVec) : BitVec 96 := Bits.ofHexbits 96 (hexRun hb 39 16)

/-- ESS after voice frame 2: `mi = D[95:24]`, `algid = D[23:16]`, `keyid = D[15:0]`; the talkgroup is carried over
(R182, R183). -/
def ldu2Ess (D : BitVec 96) (old : Ess) : Ess where
  mi := D.extractLsb' 24 72
  algid := D.extractLsb' 16 8
  keyid := D.extractLsb' 0 16
  tgid := old.tgid

/-- The 196 deinterleaved bits of a trellis segment: `d[i] = body[off + TRELLIS_PERM[i]]` (R84, R151). -/
def segmentBits (c : Cfg) (m : Memory) (off : Nat) : List Bool :=
  (List.finRange 196).map fun i => m.read (off + (c.trellisPerm i).val)

/-- A 12-byte block from decoded symbols, four to a byte, the earliest in bits 7:6 (R154). Symbols after the 48th are
not output. -/
def blockOf (ys : List (BitVec 2)) : Block :=
  Vector.ofFn fun q =>
    ys.getD (4 * q.val) 0 ++ ys.getD (4 * q.val + 1) 0 ++ ys.getD (4 * q.val + 2) 0 ++ ys.getD (4 * q.val + 3) 0

/-- The "last block" flag of a trunking block: bit 7 of byte 0 (R83). -/
def lastBlock (b : Block) : Bool := b[0].getLsbD 7

/-- The bits of a run of blocks, in order (R86). -/
def payloadBits (bs : List Block) : List Bool := Bits.bytesBits (bs.flatMap Vector.toList)

end Sys2Proof.Machine
end

