-- ==== Sys2Proof/Machine/Fec.lean ====
section
/-! DEFINITION. The FEC Toolkit (spec/41_fec_toolkit.md) and the identifier decoder's unit: pure functions of their
operands and of the configuration (R130). The meanings of the rows of format FU stand in Units.lean. -/

namespace Sys2Proof.Machine

open Sys2Proof

/-- The result of G24_DEC (R132). -/
structure G24Result where
  value : BitVec 12
  nerr : Nat
  ok : Bool
deriving DecidableEq, Repr

/-- The value whose codeword lies within the radius of `w`, if there is one (R132; there is at most one). -/
def g24Search (c : Cfg) (w : BitVec 24) : Option (BitVec 12) :=
  ((List.range 4096).find? fun v => Bits.dist w (c.enc24 (BitVec.ofNat 12 v)) ≤ c.t24).map (BitVec.ofNat 12)

/-- G24_DEC (R132): inside the radius the value of the one codeword there (R133), outside it the fallback value, with
`ok` false (R134). -/
def g24Decode (c : Cfg) (w : BitVec 24) : G24Result :=
  match g24Search c w with
  | some v => ⟨v, Bits.dist w (c.enc24 v), true⟩
  | none => ⟨c.dec24Fallback w, Bits.dist w (c.enc24 (c.dec24Fallback w)), false⟩

/-- The result of HAM_DEC (R146). -/
structure HamResult where
  value : BitVec 6
  mism : Bool
deriving DecidableEq, Repr

/-- HAM_DEC: the value, and the flag "codeword ≠ re-encoding of decoded value" (R146). -/
def hamDecode (c : Cfg) (w : BitVec 10) : HamResult where
  value := c.hamDec w
  mism := w != c.hamEnc (c.hamDec w)

/-- One step of the trellis search: the one symbol whose codeword is nearest, none on a tie (R152, R153). -/
def trellisStep (tab : BitVec 2 → BitVec 2 → BitVec 4) (s : BitVec 2) (cw : BitVec 4) : Option (BitVec 2) :=
  let h := fun x => Bits.dist cw (tab s x)
  let m := min (min (h 0) (h 1)) (min (h 2) (h 3))
  match [0, 1, 2, 3].filter (fun x => h x == m) with
  | [x] => some x
  | _ => none

/-- The search over a run of codewords: the state after a transition is the symbol just decided (R150, R152); one tie
fails the whole segment (R153). -/
def trellisRun (tab : BitVec 2 → BitVec 2 → BitVec 4) : BitVec 2 → List (BitVec 4) → Option (List (BitVec 2))
  | _, [] => some []
  | s, cw :: cws =>
    match trellisStep tab s cw with
    | none => none
    | some y => (trellisRun tab y cws).map (y :: ·)

/-- TRELLIS_DEC (R150): deinterleave, decode the 49 codewords from state 0, pack the first 48 symbols. -/
def trellisDecode (c : Cfg) (m : Memory) (off : Nat) : Option Block :=
  (trellisRun c.trellisTab 0 (Bits.chunk4 (segmentBits c m off))).map blockOf

/-- One bit into the CRC16 register (R155). -/
def crc16Bit (poly r : BitVec 17) (b : Bool) : BitVec 17 :=
  let shifted := (r <<< 1) ||| (BitVec.ofBool b).setWidth 17
  if shifted.getLsbD 16 then shifted ^^^ poly else shifted

/-- CRC16 of a byte buffer, most significant bit first, zero start, result xor 0xFFFF (R155). -/
def crc16 (c : Cfg) (bytes : List Byte) : BitVec 16 :=
  ((Bits.bytesBits bytes).foldl (crc16Bit c.crc16Poly) 0).setWidth 16 ^^^ 0xFFFF

/-- One bit into the CRC32 register (R158). -/
def crc32Bit (poly : BitVec 33) (r : BitVec 32) (b : Bool) : BitVec 32 :=
  if (r.getLsbD 31 ^^ b) then (r <<< 1) ^^^ poly.setWidth 32 else r <<< 1

/-- CRC32 of a bit sequence, first bit first, zero start, complemented (R158). -/
def crc32 (c : Cfg) (bits : List Bool) : BitVec 32 :=
  bits.foldl (crc32Bit c.crc32Poly) 0 ^^^ 0xFFFFFFFF

end Sys2Proof.Machine
end

