-- ==== Sys2Proof/Machine/Flags.lean ====
section
/-! DEFINITION. The one-bit results (R38): the mismatch flags and their counts, the CRC validity of blocks and payloads,
and the `ok` boolean of each event. The block stores no condition code. -/

namespace Sys2Proof.Machine

open Sys2Proof

/-- The mismatch flag of a (24,12) word: `w != enc24(G24_DEC(w).value)` (R135). -/
def mism24 (c : Cfg) (w : BitVec 24) : Bool := w != c.enc24 (g24Decode c w).value

/-- A header word in the shortened use of the code: the hexbit and the flag of `zext_24(w18)` (R136, R80). -/
def headerWord (c : Cfg) (w : BitVec 18) : Hexbit × Bool :=
  ((g24Decode c (w.setWidth 24)).value.extractLsb' 0 6, mism24 c (w.setWidth 24))

/-- The mismatch count: how many words have their flag set (R135, R177). -/
def mismCount (flags : List Bool) : Nat := flags.countP id

/-- A block is CRC16-valid when CRC16 over its twelve bytes is 0 (R156). -/
def crc16Valid (c : Cfg) (b : Block) : Bool := crc16 c b.toList == 0

/-- The payload check: CRC32 of all but the last 32 bits equals those 32 bits, the first on top (R159). -/
def crc32Valid (c : Cfg) (payload : List Bool) : Bool :=
  crc32 c (payload.take (payload.length - 32)) == Bits.ofBits 32 (payload.drop (payload.length - 32))

/-- The header passes the mismatch threshold: "exactly 6 mismatches still runs Reed-Solomon" (R172, R7). -/
def headerPasses (c : Cfg) (m : Nat) : Bool := m ≤ c.hduMismMax

/-- A voice frame's Reed-Solomon part is tried: "if <6" (R176, R181). -/
def lcPasses (c : Cfg) (m : Nat) : Bool := m < c.lcMismLim

/-- A voice frame's voice is extracted: "if <16" (R176, R181). -/
def voicePasses (c : Cfg) (m : Nat) : Bool := m < c.voiceMismLim

/-- `ok` of a voice frame: `have_imbe and not hard` (R176, R179). -/
def voiceOk (haveImbe hard : Bool) : Bool := haveImbe && !hard

/-- The multi-block condition of a packet data unit (R189). -/
def isMultiBlock (c : Cfg) (h : Block) : Bool :=
  (c.pduSap h).toNat == PDU_MBT_SAP && c.pduMbtFmts.contains (c.pduFmt h).toNat &&
    decide (1 ≤ (c.pduBlks h).toNat) && decide ((c.pduBlks h).toNat ≤ c.pduMaxBlocks - 1)

end Sys2Proof.Machine
end

