-- ==== Sys2Proof/Machine/Voice.lean ====
section
/-! DEFINITION. The Voice Codeword Extractor (spec/43_voice_extractor.md). -/

namespace Sys2Proof.Machine

open Sys2Proof

/-- Entries `p .. p + w - 1` of a voice table row (R201). -/
def voiceSlice (T : Fin 86 → Nat) (p w : Nat) (h : p + w ≤ 86) : Fin w → Nat :=
  fun j => T ⟨p + j.val, by omega⟩

/-- VOICE_DEINT of a segment: the eight fields, each gathered top bit first (R201, R87). -/
def voiceDeint (c : Cfg) (m : Memory) (s : Fin 9) : VoiceFields where
  u0 := m.gather (voiceSlice (c.voicePos s) 0 12 (by decide))
  u1 := m.gather (voiceSlice (c.voicePos s) 12 12 (by decide))
  u2 := m.gather (voiceSlice (c.voicePos s) 24 12 (by decide))
  u3 := m.gather (voiceSlice (c.voicePos s) 36 12 (by decide))
  u4 := m.gather (voiceSlice (c.voicePos s) 48 11 (by decide))
  u5 := m.gather (voiceSlice (c.voicePos s) 59 11 (by decide))
  u6 := m.gather (voiceSlice (c.voicePos s) 70 9 (by decide))
  u7 := m.gather (voiceSlice (c.voicePos s) 79 7 (by decide))

/-- The two spare bits of a segment. They are "read and dropped" (R201) and "have no effect on any output or state"
(R203): no meaning holds them in a result. -/
def voiceSpareBits (c : Cfg) (m : Memory) (s : Fin 9) : BitVec 2 := m.gather (c.voiceSpare s)

/-- VOICE_PACK (R202, R88). -/
def voicePack (u : VoiceFields) : Bytes11 :=
  #v[u.u0.extractLsb' 4 8,
    u.u0.extractLsb' 0 4 ++ u.u1.extractLsb' 8 4,
    u.u1.extractLsb' 0 8,
    u.u2.extractLsb' 4 8,
    u.u2.extractLsb' 0 4 ++ u.u3.extractLsb' 8 4,
    u.u3.extractLsb' 0 8,
    u.u4.extractLsb' 3 8,
    u.u4.extractLsb' 0 3 ++ u.u5.extractLsb' 6 5,
    u.u5.extractLsb' 0 6 ++ u.u6.extractLsb' 7 2,
    u.u6.extractLsb' 0 7 ++ u.u7.extractLsb' 6 1,
    u.u7.extractLsb' 0 6 ++ 0#2]

/-- The unpacking that inverts VOICE_PACK; the block itself never unpacks (R205). -/
def voiceUnpack (b : Bytes11) : VoiceFields where
  u0 := b[0] ++ b[1].extractLsb' 4 4
  u1 := b[1].extractLsb' 0 4 ++ b[2]
  u2 := b[3] ++ b[4].extractLsb' 4 4
  u3 := b[4].extractLsb' 0 4 ++ b[5]
  u4 := b[6] ++ b[7].extractLsb' 5 3
  u5 := b[7].extractLsb' 0 5 ++ b[8].extractLsb' 2 6
  u6 := b[8].extractLsb' 0 2 ++ b[9].extractLsb' 1 7
  u7 := b[9].extractLsb' 0 1 ++ b[10].extractLsb' 2 6

/-- VOICE_EXTRACT: the nine packed segments in order, 99 bytes (R200). -/
def voiceExtract (c : Cfg) (m : Memory) : List Byte :=
  (List.finRange 9).flatMap fun s => (voicePack (voiceDeint c m s)).toList

end Sys2Proof.Machine
end

