-- ==== Sys2Proof/Machine/Processors.lean ====
section
/-! DEFINITION. The frame-type processors and the dispatch (spec/42_frame_processors.md), and the meanings of the rows
of format NID. A processor is a function of the frame's header, the body and ESS that answers its events and the new
ESS: it can write nothing else (R195, R196). -/

namespace Sys2Proof.Machine

open Sys2Proof

/-! ### HDU (R172 to R174) -/

/-- The 36 header words as hexbits with their mismatch flags. -/
def hduWords (c : Cfg) (m : Memory) : List (Hexbit × Bool) :=
  (List.finRange 36).map fun i => headerWord c (m.gather (c.hduCwPos i))

/-- The header's ESS update (R174). -/
def headerEss (f : HeaderFields) : Ess where
  algid := f.algid
  keyid := f.keyid
  mi := f.mi
  tgid := f.tgid

/-- The header's success event (R172, R173). -/
def headerEvent (h : Header) (f : HeaderFields) : Event :=
  ev h [(.mfid, .hex 2 f.mfid.toNat), (.tgid, .hex 4 f.tgid.toNat), (.algid, .hex 2 f.algid.toNat),
    (.keyid, .hex 4 f.keyid.toNat), (.mi, .buffer (Bits.bytesBE 9 f.mi).toList), (.ok, .bool true)]

/-- HDU (R172): the mismatch threshold, then Reed-Solomon, then the fields (R238). -/
def procHdu (c : Cfg) (h : Header) (m : Memory) (ess : Ess) : ProcResult :=
  let words := hduWords c m
  if headerPasses c (mismCount (words.map Prod.snd)) then
    let r := c.rsDec .k47 (hexVecOf (words.map Prod.fst))
    if r.2 < 0 then ⟨[evFail h], ess⟩
    else
      let f := headerFieldsOf (headerData r.1)
      ⟨[headerEvent h f], headerEss f⟩
  else ⟨[evFail h], ess⟩

/-! ### TDU (R175) -/

/-- TDU (R175): one event with no field but `ok`; the body is not read. -/
def procTdu (h : Header) (ess : Ess) : ProcResult := ⟨[ev h [(.ok, .bool true)]], ess⟩

/-! ### LDU1 and LDU2 (R176 to R183) -/

/-- The 24 words of a voice frame as hexbits with their mismatch flags (R177). -/
def lduWords (c : Cfg) (m : Memory) (pos : Fin 24 → Fin 10 → Nat) : List HamResult :=
  (List.finRange 24).map fun i => hamDecode c (m.gather (pos i))

/-- `ldu_hexbits(POS)`: the hexbit vector and the mismatch count (R177). -/
def lduHexbits (c : Cfg) (m : Memory) (pos : Fin 24 → Fin 10 → Nat) : HexVec × Nat :=
  let words := lduWords c m pos
  (hexVecOf (words.map HamResult.value), mismCount (words.map HamResult.mism))

/-- The `imbe` field of a voice frame, present when the voice threshold passes (R176, R180). -/
def imbeField (c : Cfg) (m : Memory) (mism : Nat) : List (FieldName × Value) :=
  if voicePasses c mism then [(.imbe, .buffer (voiceExtract c m))] else []

/-- The talkgroup refresh of voice frame 1 (R176, R178). -/
def lcwEss (c : Cfg) (lcw : Bytes9) (ess : Ess) : Ess :=
  match c.lcwTgid lcw with
  | some t => { ess with tgid := t }
  | none => ess

/-- LDU1 (R176, R179). -/
def procLdu1 (c : Cfg) (h : Header) (m : Memory) (ess : Ess) : ProcResult :=
  let (hb, mism) := lduHexbits c m c.ldu1HbPos
  let imbe := imbeField c m mism
  if lcPasses c mism then
    let r := c.rsDec .k51 hb
    if r.2 < 0 then ⟨[ev h (imbe ++ [(.ok, .bool (voiceOk (voicePasses c mism) true))])], ess⟩
    else
      let lcw := lcwOf r.1
      ⟨[ev h ((.lcw, .buffer lcw.toList) :: imbe ++ [(.ok, .bool (voiceOk (voicePasses c mism) false))])],
        lcwEss c lcw ess⟩
  else ⟨[ev h (imbe ++ [(.ok, .bool (voiceOk (voicePasses c mism) false))])], ess⟩

/-- LDU2 (R180, R179): ESS is refreshed on success, its values are not in the event. -/
def procLdu2 (c : Cfg) (h : Header) (m : Memory) (ess : Ess) : ProcResult :=
  let (hb, mism) := lduHexbits c m c.ldu2HbPos
  let imbe := imbeField c m mism
  if lcPasses c mism then
    let r := c.rsDec .k55 hb
    if r.2 < 0 then ⟨[ev h (imbe ++ [(.ok, .bool (voiceOk (voicePasses c mism) true))])], ess⟩
    else ⟨[ev h (imbe ++ [(.ok, .bool (voiceOk (voicePasses c mism) false))])], ldu2Ess (ldu2Data r.1) ess⟩
  else ⟨[ev h (imbe ++ [(.ok, .bool (voiceOk (voicePasses c mism) false))])], ess⟩

/-! ### TSBK (R184 to R186) -/

/-- The blocks decoded from a run of segment offsets: up to and with the first block that has its last-block flag set,
none if a segment examined fails (R184, R185). -/
def tsbkBlocks (c : Cfg) (m : Memory) : List Nat → Option (List Block)
  | [] => some []
  | off :: offs =>
    match trellisDecode c m off with
    | none => none
    | some b => if lastBlock b then some [b] else (tsbkBlocks c m offs).map (b :: ·)

/-- One block's event: the whole block, `ok` its CRC16 validity (R186). -/
def tsbkEvent (c : Cfg) (h : Header) (b : Block) : Event :=
  ev h [(.tsbk, .buffer b.toList), (.ok, .bool (crc16Valid c b))]

/-- The offsets of the blocks a trunking frame can hold, block 0 first. -/
def tsbkOffsets (c : Cfg) : List Nat := (List.range c.tsbkMaxBlocks).map c.tsbkBlockOff

/-- TSBK (R184): one failure event, or one event per decoded block. -/
def procTsbk (c : Cfg) (h : Header) (m : Memory) (ess : Ess) : ProcResult :=
  match tsbkBlocks c m (tsbkOffsets c) with
  | none => ⟨[evFail h], ess⟩
  | some bs => ⟨bs.map (tsbkEvent c h), ess⟩

/-! ### PDU (R187 to R190) -/

/-- The data blocks from a run of segment offsets, none if one fails (R187). -/
def pduBlocks (c : Cfg) (m : Memory) : List Nat → Option (List Block)
  | [] => some []
  | off :: offs =>
    match trellisDecode c m off with
    | none => none
    | some b => (pduBlocks c m offs).map (b :: ·)

/-- The offsets of data blocks 1 to n. -/
def pduOffsets (c : Cfg) (n : Nat) : List Nat := (List.range n).map fun i => c.pduBlockOff (i + 1)

/-- The header-fields event (R187, R188). -/
def pduHeaderEvent (c : Cfg) (h : Header) (b : Block) : Event :=
  ev h [(.fmt, .dec (c.pduFmt b).toNat), (.sap, .dec (c.pduSap b).toNat), (.blks, .dec (c.pduBlks b).toNat),
    (.ok, .bool (crc16Valid c b))]

/-- The multi-block event: the header block and the data blocks, `ok` both checks (R190, R235). -/
def pduMultiEvent (c : Cfg) (h : Header) (b : Block) (data : List Block) : Event :=
  ev h [(.pdu, .buffer (b.toList ++ data.flatMap Vector.toList)),
    (.ok, .bool (crc16Valid c b && crc32Valid c (payloadBits data)))]

/-- PDU (R187). -/
def procPdu (c : Cfg) (h : Header) (m : Memory) (ess : Ess) : ProcResult :=
  match trellisDecode c m (c.pduBlockOff 0) with
  | none => ⟨[evFail h], ess⟩
  | some b =>
    if isMultiBlock c b then
      match pduBlocks c m (pduOffsets c (c.pduBlks b).toNat) with
      | none => ⟨[evFail h], ess⟩
      | some data => ⟨[pduMultiEvent c h b data], ess⟩
    else ⟨[pduHeaderEvent c h b], ess⟩

/-! ### TDULC (R191, R192) -/

/-- The 24 hexbits of the twelve words, two to a word, the upper one first (R191, R81). -/
def tdulcHexbits (c : Cfg) (m : Memory) : List Hexbit :=
  (List.finRange 12).flatMap fun i =>
    let v := (g24Decode c (m.gather (c.tdulcCwPos i))).value
    [v.extractLsb' 6 6, v.extractLsb' 0 6]

/-- TDULC (R191): no mismatch threshold (R192). -/
def procTdulc (c : Cfg) (h : Header) (m : Memory) (ess : Ess) : ProcResult :=
  let r := c.rsDec .k51 (hexVecOf (tdulcHexbits c m))
  if r.2 < 0 then ⟨[evFail h], ess⟩
  else ⟨[ev h [(.lcw, .buffer (lcwOf r.1).toList), (.ok, .bool true)]], ess⟩

/-! ### Dispatch (R170, R171, R193) -/

/-- The processor of a recognized type. -/
def processor (c : Cfg) : FrameType → Header → Memory → Ess → ProcResult
  | .hdu, h, m, ess => procHdu c h m ess
  | .tdu, h, _, ess => procTdu h ess
  | .ldu1, h, m, ess => procLdu1 c h m ess
  | .tsbk, h, m, ess => procTsbk c h m ess
  | .ldu2, h, m, ess => procLdu2 c h m ess
  | .pdu, h, m, ess => procPdu c h m ess
  | .tdulc, h, m, ess => procTdulc c h m ess

/-- Run a processor on the current body and ESS, for the given NAC and type code. -/
def runProcessor (c : Cfg) (t : FrameType) (h : Header) (s : State) : State :=
  s.apply (processor c t h s.body s.ess)

/-- dispatch_frame: NAC 0 is discarded, an unrecognized type code is dropped, the rest go to their processor (R170). -/
def dispatchFrame (c : Cfg) (s : State) : State :=
  if s.nac = 0 then s
  else
    match typeOfCode c.duid s.duid with
    | some t => runProcessor c t ⟨s.nac, s.duid⟩ s
    | none => s

/-! ### The meanings of the rows of format NID

Each is a step of its own whose header is the row's NAC and the configuration's code of the row's type (R76); the body
and ESS are the state's. DESIGN CHOICE (log entries 3 and 22): the body is read whatever frame the buffer holds. -/

/-- A recognized row: the outputs cleared, then the type's processor. -/
def runRow (t : FrameType) (nac : BitVec 12) (s : State) : State :=
  runProcessor Config.cfg t ⟨nac, Config.cfg.duid t⟩ s.beginStep

/-- R171: no processor runs, no event, ESS untouched. -/
def execDiscard (_duid : BitVec 4) (s : State) : Host.Outcome State Fault Refusal := .next s.beginStep

/-- R172. -/
def execHdu (nac : BitVec 12) (s : State) : Host.Outcome State Fault Refusal := .next (runRow .hdu nac s)

/-- R175. -/
def execTdu (nac : BitVec 12) (s : State) : Host.Outcome State Fault Refusal := .next (runRow .tdu nac s)

/-- R176. -/
def execLdu1 (nac : BitVec 12) (s : State) : Host.Outcome State Fault Refusal := .next (runRow .ldu1 nac s)

/-- R184. -/
def execTsbk (nac : BitVec 12) (s : State) : Host.Outcome State Fault Refusal := .next (runRow .tsbk nac s)

/-- R180. -/
def execLdu2 (nac : BitVec 12) (s : State) : Host.Outcome State Fault Refusal := .next (runRow .ldu2 nac s)

/-- R187. -/
def execPdu (nac : BitVec 12) (s : State) : Host.Outcome State Fault Refusal := .next (runRow .pdu nac s)

/-- R191. -/
def execTdulc (nac : BitVec 12) (s : State) : Host.Outcome State Fault Refusal := .next (runRow .tdulc nac s)

/-- R193: no unit is called, no state is written, no event is emitted. -/
def execUnrec (_nac : BitVec 12) (_duid : BitVec 4) (s : State) : Host.Outcome State Fault Refusal :=
  .next s.beginStep

end Sys2Proof.Machine
end

