-- ==== Sys2Proof/Machine/FrameSync.lean ====
section
/-! DEFINITION. The Frame Synchronizer's one operation OBSERVE and its parts (spec/40_framesync.md), the statistics
tick, and the host operations IDLE, STATS_CLEAR, CLEAR_OBSERVE (spec/44_events_host.md) and RESET
(spec/70_reset_and_hazards.md). -/

namespace Sys2Proof.Machine

open Sys2Proof

/-! ### The parts of OBSERVE, in the order of R100 -/

/-- R101. -/
def count (s : State) : State := { s with symbols := s.symbols + 1, statDiv := s.statDiv + 1 }

/-- R102: the window slides on every symbol, in every phase. -/
def shiftWindow (sym : Sym) (s : State) : State := { s with win := (s.win <<< 2) ||| sym.setWidth 48 }

/-- R111: the body length from the type code alone. -/
def bodyLenOf (c : Cfg) (d : BitVec 4) : Nat :=
  match typeOfCode c.duid d with
  | some t => c.bodyLen t
  | none => c.bodyLenUnrec

/-- R105: shift the symbol into the identifier accumulator and count it. -/
def accumulate (sym : Sym) (s : State) : State :=
  { s with nidAcc := (s.nidAcc <<< 2) ||| sym.setWidth 64, nidCnt := s.nidCnt + 1 }

/-- R109: an identifier that does not decode (class Eb): NAC forced to 0, counted bad, back to SEARCH. -/
def rejectNid (s : State) : State := { s.toSearch with nac := 0, badNids := s.badNids + 1 }

/-- R110: the registers an accepted identifier writes, the good counter, and the body's length and cursor. -/
def loadFrame (c : Cfg) (nac : BitVec 12) (duid : BitVec 4) (par : BitVec 1) (cw : BitVec 64) (nerr : Nat)
    (s : State) : State :=
  { s with
    nac := nac
    duid := duid
    par := par
    nidCw := cw
    nidNerr := BitVec.ofNat 7 nerr
    goodNids := s.goodNids + 1
    bodyLen := bodyLenOf c duid
    cursor := 0
    nidCnt := 0 }

/-- A state and the step's `done` (R100). -/
structure Work where
  state : State
  done : Bool
deriving DecidableEq, Repr

/-- R106, R109, R110: decode the identifier once 32 symbols are in. A body of length 0 is complete at once. -/
def decodeNid (c : Cfg) (s : State) : Work :=
  match c.nidDecode s.nidAcc with
  | .fail => ⟨rejectNid s, false⟩
  | .ok nac duid par cw nerr =>
    let s' := loadFrame c nac duid par cw nerr s
    if s'.bodyLen = 0 then ⟨{ s' with phase := .search }, true⟩ else ⟨{ s' with phase := .body }, false⟩

/-- Phase NID (R105, R106). -/
def nidWork (c : Cfg) (sym : Sym) (s : State) : Work :=
  let s := accumulate sym s
  if s.nidCnt = 32 then decodeNid c s else ⟨s, false⟩

/-- Phase BODY (R112): two bits at the cursor, the symbol's upper bit first. -/
def bodyWork (sym : Sym) (s : State) : Work :=
  let s := { s with body := s.body.memWrite s.cursor sym, cursor := s.cursor + 2 }
  if s.bodyLen ≤ s.cursor then ⟨{ s with phase := .search }, true⟩ else ⟨s, false⟩

/-- R103: exactly one of the three, by the phase at the start of the step. -/
def phaseWork (c : Cfg) (p0 : Phase) (sym : Sym) (s : State) : Work :=
  match p0 with
  | .search => ⟨s, false⟩
  | .nid => nidWork c sym s
  | .body => bodyWork sym s

/-- The sync match of R73: the window lies within SYNC_MAX_ERR bits of the pattern. -/
def syncMatch (c : Cfg) (win : BitVec 48) : Bool := Bits.dist win c.fsPattern ≤ c.syncMaxErr

/-- The test is armed in SEARCH, and in every phase when a pattern abandons the frame in progress (R113). -/
def armed (c : Cfg) (p0 : Phase) : Bool := p0 == .search || c.inFrameSync == .abandon

/-- R113: a match starts the next identifier; its writes win over the phase work's. -/
def syncTest (c : Cfg) (p0 : Phase) (s : State) : State :=
  if armed c p0 && syncMatch c s.win then { s with syncs := s.syncs + 1, nidAcc := 0, nidCnt := 0, phase := .nid }
  else s

/-- R218: after STATS_PERIOD symbols, one statistics event with the counters as they now stand. -/
def statsTick (s : State) : State :=
  if s.statDiv.toNat = STATS_PERIOD then { s.emit (evStats s) with statDiv := 0 } else s

/-- OBSERVE on a state whose outputs are clear (R100). -/
def observe (c : Cfg) (sym : Sym) (s : State) : State :=
  let p0 := s.phase
  let w := phaseWork c p0 sym (shiftWindow sym (count s))
  let s := syncTest c p0 w.state
  let s := if w.done then dispatchFrame c s else s
  { statsTick s with frameDone := w.done }

/-! ### The meanings of the rows of formats IN and PIN -/

/-- IDLE (R224): no state changes, `frame_done` = 0, no event. The two `sym` bits are ignored (R71). -/
def execIdle (_ignored : BitVec 2) (s : State) : Host.Outcome State Fault Refusal := .next s.beginStep

/-- OBSERVE (R100). -/
def execObserve (sym : Sym) (s : State) : Host.Outcome State Fault Refusal :=
  .next (observe Config.cfg sym s.beginStep)

/-- STATS_CLEAR (R221). -/
def execStatsClear (_ignored : BitVec 2) (s : State) : Host.Outcome State Fault Refusal :=
  .next s.beginStep.clearStats

/-- CLEAR_OBSERVE (R225): the clear first, then OBSERVE on the cleared counters, in one step. -/
def execClearObserve (sym : Sym) (s : State) : Host.Outcome State Fault Refusal :=
  .next (observe Config.cfg sym s.beginStep.clearStats)

/-- RESET (R260): every field of the block at its reset value, no output; the inputs to come are outside the block. -/
def execReset (_word : BitVec 4) (s : State) : Host.Outcome State Fault Refusal :=
  .next { State.reset with input := s.input }

end Sys2Proof.Machine
end

