-- ==== Sys2Proof/Machine/Units.lean ====
section
/-! DEFINITION. The meanings of the rows of format FU: a toolkit unit called directly with its operand. A unit "reads
no block state, writes no block state, emits no event" (R130), the two that take body bits excepted (R150, R201), so
the step leaves the block's state alone and answers with the unit's result. -/

namespace Sys2Proof.Machine

open Sys2Proof

/-- A unit call: the outputs of the step are the unit's result and nothing else. -/
def answered (r : UnitResult) (s : State) : Host.Outcome State Fault Refusal := .next (s.beginStep.answer r)

/-- The result record of a Reed-Solomon unit (R141). -/
def rsAnswer (c : Cfg) (i : RsInst) (hb : HexVec) : UnitResult := .rs (c.rsDec i hb).1 (c.rsDec i hb).2

/-- R132. -/
def execG24Dec (w : BitVec 24) (s : State) : Host.Outcome State Fault Refusal :=
  answered (.g24Dec (g24Decode Config.cfg w).value (g24Decode Config.cfg w).nerr (g24Decode Config.cfg w).ok) s

/-- R131. -/
def execG24Enc (v : BitVec 12) (s : State) : Host.Outcome State Fault Refusal :=
  answered (.g24Enc (Config.cfg.enc24 v)) s

/-- R141. -/
def execRs6355 (hb : HexVec) (s : State) : Host.Outcome State Fault Refusal :=
  answered (rsAnswer Config.cfg .k55 hb) s

/-- R141. -/
def execRs6351 (hb : HexVec) (s : State) : Host.Outcome State Fault Refusal :=
  answered (rsAnswer Config.cfg .k51 hb) s

/-- R141. -/
def execRs6347 (hb : HexVec) (s : State) : Host.Outcome State Fault Refusal :=
  answered (rsAnswer Config.cfg .k47 hb) s

/-- R146. -/
def execHamDec (w : BitVec 10) (s : State) : Host.Outcome State Fault Refusal :=
  answered (.hamDec (hamDecode Config.cfg w).value (hamDecode Config.cfg w).mism) s

/-- R145. -/
def execHamEnc (v : BitVec 6) (s : State) : Host.Outcome State Fault Refusal :=
  answered (.hamEnc (Config.cfg.hamEnc v)) s

/-- R150. Every segment whose 196 cells exist is decoded, also one that reaches past the current frame's length, where
the cells hold what an earlier frame left (R55); beyond the buffer there is no cell to read (R50). DESIGN CHOICE (log
entry 7). -/
def execTrellisDec (off : Nat) (s : State) : Host.Outcome State Fault Refusal :=
  if off + 196 ≤ Config.cfg.bodyMax then answered (.trellis (trellisDecode Config.cfg s.body off)) s
  else .fault .noSuchBodyCell

/-- R155. -/
def execCrc16 (bytes : List Byte) (s : State) : Host.Outcome State Fault Refusal :=
  answered (.crc16 (crc16 Config.cfg bytes)) s

/-- R158. -/
def execCrc32 (bits : List Bool) (s : State) : Host.Outcome State Fault Refusal :=
  answered (.crc32 (crc32 Config.cfg bits)) s

/-- R201. The rule speaks of a voice-bearing frame's body. DESIGN CHOICE (log entry 22): a direct call reads the cells
at the table's entries whatever frame the buffer holds, also at or above `body_len`, where they hold what an earlier frame
left (R55). Every entry is an index of the buffer (R6), so no call stops. -/
def execVoiceDeint (g : Fin 9) (s : State) : Host.Outcome State Fault Refusal :=
  answered (.voiceDeint (voiceDeint Config.cfg s.body g)) s

/-- R202. -/
def execVoicePack (u : VoiceFields) (s : State) : Host.Outcome State Fault Refusal :=
  answered (.voicePack (voicePack u)) s

/-- R108. -/
def execNidDec (w : BitVec 64) (s : State) : Host.Outcome State Fault Refusal :=
  answered (.nidDec (Config.cfg.nidDecode w)) s

/-- R90: a reserved select code is refused. -/
def execFuReserved (sel : BitVec 4) (_s : State) : Host.Outcome State Fault Refusal :=
  .refused (.reservedUnit sel)

end Sys2Proof.Machine
end

