-- ==== Sys2Proof/Machine/Dispatch.lean ====
section
/-! DEFINITION. The meaning of each operation, one arm for each constructor. -/

namespace Sys2Proof.Machine

open Sys2Proof

def exec (i : Instr) (s : State) : Host.Outcome State Fault Refusal :=
  match i with
  | .idle ignored => Sys2Proof.Machine.execIdle ignored s
  | .observe sym => Sys2Proof.Machine.execObserve sym s
  | .statsClear ignored => Sys2Proof.Machine.execStatsClear ignored s
  | .clearObserve sym => Sys2Proof.Machine.execClearObserve sym s
  | .reset word => Sys2Proof.Machine.execReset word s
  | .discard duid => Sys2Proof.Machine.execDiscard duid s
  | .hdu nac => Sys2Proof.Machine.execHdu nac s
  | .tdu nac => Sys2Proof.Machine.execTdu nac s
  | .ldu1 nac => Sys2Proof.Machine.execLdu1 nac s
  | .tsbk nac => Sys2Proof.Machine.execTsbk nac s
  | .ldu2 nac => Sys2Proof.Machine.execLdu2 nac s
  | .pdu nac => Sys2Proof.Machine.execPdu nac s
  | .tdulc nac => Sys2Proof.Machine.execTdulc nac s
  | .unrec nac duid => Sys2Proof.Machine.execUnrec nac duid s
  | .g24Dec w => Sys2Proof.Machine.execG24Dec w s
  | .g24Enc v => Sys2Proof.Machine.execG24Enc v s
  | .rs6355 hb => Sys2Proof.Machine.execRs6355 hb s
  | .rs6351 hb => Sys2Proof.Machine.execRs6351 hb s
  | .rs6347 hb => Sys2Proof.Machine.execRs6347 hb s
  | .hamDec w => Sys2Proof.Machine.execHamDec w s
  | .hamEnc v => Sys2Proof.Machine.execHamEnc v s
  | .trellisDec off => Sys2Proof.Machine.execTrellisDec off s
  | .crc16 bytes => Sys2Proof.Machine.execCrc16 bytes s
  | .crc32 bits => Sys2Proof.Machine.execCrc32 bits s
  | .voiceDeint g => Sys2Proof.Machine.execVoiceDeint g s
  | .voicePack u => Sys2Proof.Machine.execVoicePack u s
  | .nidDec w => Sys2Proof.Machine.execNidDec w s
  | .fuReserved sel => Sys2Proof.Machine.execFuReserved sel s

end Sys2Proof.Machine
end

