-- ==== Sys2Proof/Machine/Step.lean ====
section
/-! DEFINITION. One step: take in what stands at the inputs, decode it, run it (R56). -/

namespace Sys2Proof.Machine

open Sys2Proof

/-- When nothing is presented, the ports carry `rst` = 0 and the input word 0000, which is IDLE: the block waits for
ever and nothing times out (R63, U18; assumption 6). -/
def State.presented (s : State) : Presented := s.input.headD (.pins 0 0)

/-- The inputs still to come after this step. -/
def State.takeInput (s : State) : State := { s with input := s.input.tail }

/-- One step. -/
def step (s : State) : Host.Outcome State Fault Refusal :=
  match decode s.presented with
  | .ok i => exec i s.takeInput
  | .error e => .refused (.undecodable e)

/-- A table word put at the head of the inputs. -/
def State.withFetchWord (s : State) (nbits w : Nat) : State :=
  { s with input := presentTableWord nbits w :: s.input }

end Sys2Proof.Machine
end

