-- ==== Sys2Proof/Machine/Ports.lean ====
section
/-! DEFINITION. The output ports of the block: the statistics accessor (R220), the frame ports (R222), the ESS ports
(R223) and the outputs of the step (R210). Reading a port changes nothing. There is no port for `stat_div` (R220). -/

namespace Sys2Proof.Machine

open Sys2Proof

/-- What the host can read between two steps. -/
structure Ports where
  statSymbols : BitVec 64
  statSyncs : BitVec 64
  statGoodNids : BitVec 64
  statBadNids : BitVec 64
  frameNac : BitVec 12
  frameDuid : BitVec 4
  framePar : BitVec 1
  frameNidCw : BitVec 64
  frameNidNerr : BitVec 7
  frameBodyLen : Nat
  essAlgid : BitVec 8
  essKeyid : BitVec 16
  essMi : BitVec 72
  essTgid : BitVec 16
  frameDone : Bool
  events : List Event
deriving DecidableEq, Repr

def State.ports (s : State) : Ports where
  statSymbols := s.symbols
  statSyncs := s.syncs
  statGoodNids := s.goodNids
  statBadNids := s.badNids
  frameNac := s.nac
  frameDuid := s.duid
  framePar := s.par
  frameNidCw := s.nidCw
  frameNidNerr := s.nidNerr
  frameBodyLen := s.bodyLen
  essAlgid := s.ess.algid
  essKeyid := s.ess.keyid
  essMi := s.ess.mi
  essTgid := s.ess.tgid
  frameDone := s.frameDone
  events := s.events

/-- The body of the frame just completed, `body[0..frame_body_len-1]`, for a step with `frame_done` = 1 (R222). -/
def State.frameBody (s : State) : List Bool := (List.range s.bodyLen).map s.body.read

end Sys2Proof.Machine
end

