-- ==== Sys2Proof/Machine/Render.lean ====
section
/-! DEFINITION. The text rendering of events (R212 to R219), as a list of characters. The normative output is the
typed record (R211); this is "the one rendering D0 defines for it". -/

namespace Sys2Proof.Machine

open Sys2Proof

/-- The character of a hexadecimal digit, lower case. -/
def hexDigit (n : Nat) : Char := Nat.digitChar (n % 16)

/-- `n` in exactly `digits` lower-case hexadecimal digits, zero-padded (R213, R214). -/
def hexText (digits n : Nat) : List Char :=
  (List.range digits).map fun i => hexDigit (n >>> (4 * (digits - 1 - i)))

/-- `hex(B)`: two digits a byte, `B[0]` first (R13). -/
def bufferText (bytes : List Byte) : List Char := bytes.flatMap fun b => hexText 2 b.toNat

/-- The name a field is rendered under (R89). -/
def FieldName.text : FieldName → String
  | .nac => "nac"
  | .duid => "duid"
  | .mfid => "mfid"
  | .tgid => "tgid"
  | .algid => "algid"
  | .keyid => "keyid"
  | .mi => "mi"
  | .lcw => "lcw"
  | .imbe => "imbe"
  | .tsbk => "tsbk"
  | .fmt => "fmt"
  | .sap => "sap"
  | .blks => "blks"
  | .pdu => "pdu"
  | .ok => "ok"
  | .symbols => "symbols"
  | .syncs => "syncs"
  | .goodNids => "good_nids"
  | .badNids => "bad_nids"

/-- The outer name of an event (R89). -/
def EventKind.text : EventKind → String
  | .p25Du => "p25_du"
  | .stats => "stats"

/-- A text between double quotes. -/
def quoted (t : List Char) : List Char := '"' :: t ++ ['"']

/-- A value's text (R213 to R217). -/
def Value.render : Value → List Char
  | .dec n => Nat.toDigits 10 n
  | .hex digits n => quoted ('0' :: 'x' :: hexText digits n)
  | .bool b => if b then ['t', 'r', 'u', 'e'] else ['f', 'a', 'l', 's', 'e']
  | .buffer bytes => quoted (bufferText bytes)

/-- A name, a colon and one space (R212). -/
def nameText (name : String) : List Char := quoted name.toList ++ [':', ' ']

/-- Fields joined by a comma and one space (R212). -/
def fieldsText : List (FieldName × Value) → List Char
  | [] => []
  | [(n, v)] => nameText n.text ++ v.render
  | (n, v) :: f :: fs => nameText n.text ++ v.render ++ [',', ' '] ++ fieldsText (f :: fs)

/-- The opening and the closing brace. -/
def openBrace : Char := Char.ofNat 0x7B

def closeBrace : Char := Char.ofNat 0x7D

/-- The line of an event (R212, R219). -/
def Event.render (e : Event) : List Char :=
  [openBrace] ++ nameText e.kind.text ++ [openBrace] ++ fieldsText e.fields ++ [closeBrace, closeBrace]

end Sys2Proof.Machine
end

