-- ==== Sys2Proof/Safety.lean ====
section
/-! DEFINITION. What holds of the block's state between steps (`State.Inv`), what it means that a step or a run is the
block's own (only its ports are driven), and when a run is safe. -/

namespace Sys2Proof

/-- The unit operations: the rows of format FU that are not reserved (R90). -/
def Instr.isUnit : Instr → Bool
  | .idle _ => false
  | .observe _ => false
  | .statsClear _ => false
  | .clearObserve _ => false
  | .reset _ => false
  | .discard _ => false
  | .hdu _ => false
  | .tdu _ => false
  | .ldu1 _ => false
  | .tsbk _ => false
  | .ldu2 _ => false
  | .pdu _ => false
  | .tdulc _ => false
  | .unrec _ _ => false
  | .g24Dec _ => true
  | .g24Enc _ => true
  | .rs6355 _ => true
  | .rs6351 _ => true
  | .rs6347 _ => true
  | .hamDec _ => true
  | .hamEnc _ => true
  | .trellisDec _ => true
  | .crc16 _ => true
  | .crc32 _ => true
  | .voiceDeint _ => true
  | .voicePack _ => true
  | .nidDec _ => true
  | .fuReserved _ => false

/-- The operations that lower or may lower a counter: the operator's clear, alone or with a symbol, and reset (R29). -/
def Instr.clears : Instr → Bool
  | .idle _ => false
  | .observe _ => false
  | .statsClear _ => true
  | .clearObserve _ => true
  | .reset _ => true
  | .discard _ => false
  | .hdu _ => false
  | .tdu _ => false
  | .ldu1 _ => false
  | .tsbk _ => false
  | .ldu2 _ => false
  | .pdu _ => false
  | .tdulc _ => false
  | .unrec _ _ => false
  | .g24Dec _ => false
  | .g24Enc _ => false
  | .rs6355 _ => false
  | .rs6351 _ => false
  | .rs6347 _ => false
  | .hamDec _ => false
  | .hamEnc _ => false
  | .trellisDec _ => false
  | .crc16 _ => false
  | .crc32 _ => false
  | .voiceDeint _ => false
  | .voicePack _ => false
  | .nidDec _ => false
  | .fuReserved _ => false

end Sys2Proof

namespace Sys2Proof.Machine

open Sys2Proof

/-- No cell of the body lies beyond the buffer (R50). -/
def Memory.within (m : Memory) (len : Nat) : Bool := m.all fun p => p.1 < len

/-- The invariant of the state: what spec/10_state.md says of the ranges of its registers (R25, R32) and of the body
buffer (R50, R57). -/
structure State.Inv (s : State) : Prop where
  body_wf : s.body.wf = true
  body_within : s.body.within Config.cfg.bodyMax = true
  /-- "`nid_cnt` is reset at 32" (R25): between steps it is below 32. -/
  nidCnt_lt : s.nidCnt.toNat < 32
  /-- Outside the identifier phase no symbol of an identifier is held. -/
  nidCnt_zero : s.phase ≠ .nid → s.nidCnt = 0
  bodyLen_le : evenUp s.bodyLen ≤ Config.cfg.bodyMax
  /-- "`cursor` is always even" (R25). -/
  cursor_even : s.cursor % 2 = 0
  /-- "`cursor` never exceeds `body_len` rounded up to even" (R25). -/
  cursor_le : s.cursor ≤ evenUp s.bodyLen
  /-- A body being assembled is not complete. -/
  cursor_lt : s.phase = .body → s.cursor < s.bodyLen
  /-- `stat_div` is 0..479 between steps (R32). -/
  statDiv_lt : s.statDiv.toNat < STATS_PERIOD
  /-- `nid_nerr` is 0..64 (R27). -/
  nidNerr_le : s.nidNerr.toNat ≤ 64
  /-- "A step emits at most `TSBK_MAX_BLOCKS` + 1 events" (R210). -/
  events_le : s.events.length ≤ Config.cfg.tsbkMaxBlocks + 1

/-- What stands at the inputs is the block's own ports, not a direct call of the model's (assumption 3). -/
def Presented.isPins : Presented → Bool
  | .pins _ _ => true
  | .info _ => false
  | .row _ => false
  | .unit _ _ => false

/-- The counter relation of R119, with the identifier in progress counted: every identifier decoded, and the one being
taken in, follows a sync match of its own. -/
def State.CounterRel (s : State) : Prop :=
  s.goodNids.toNat + s.badNids.toNat + (if s.phase = .nid then 1 else 0) ≤ s.syncs.toNat ∧
    s.syncs.toNat ≤ s.symbols.toNat

/-- A run of `n` steps is safe when it ends in a next state, by no fault and no refusal (R236). -/
def SafeRun (s : State) (n : Nat) : Prop := ∃ t, Sys2Proof.core.run n s = .next t

/-- The state with the outputs of the last step gone: what an operation that has no output leaves of them (R210). -/
def State.quiet (s : State) : State := { s with frameDone := false, events := [], unitOut := none }

/-- The window after one more symbol (R102). -/
def slide (win : BitVec 48) (sym : Sym) : BitVec 48 := (win <<< 2) ||| sym.setWidth 48

/-- The identifier accumulator after one more symbol (R105). -/
def slideNid (acc : BitVec 64) (sym : Sym) : BitVec 64 := (acc <<< 2) ||| sym.setWidth 64

/-- A sync match counts in a step that began in phase `p0` and whose window is now `win`: the test is armed, and the
window lies within SYNC_MAX_ERR bits of the pattern (R113). -/
abbrev SyncAt (c : Cfg) (p0 : Phase) (win : BitVec 48) : Prop :=
  (p0 = .search ∨ c.inFrameSync = .abandon) ∧ Bits.dist win c.fsPattern ≤ c.syncMaxErr

/-- No symbol of a run that begins inside an identifier or a body completes a sync match that counts (R113, R116: an
undisturbed frame). -/
def Undisturbed (c : Cfg) (win : BitVec 48) (syms : List Sym) : Prop :=
  c.inFrameSync = .ignore ∨
    ∀ n, n < syms.length → c.syncMaxErr < Bits.dist ((syms.take (n + 1)).foldl slide win) c.fsPattern

/-- A statistics event falls due with the next symbol (R218). -/
abbrev State.StatDue (s : State) : Prop := s.statDiv + 1 = 480#9

/-- The statistics event that reports the counters of a state (R218, R219). -/
def statsEventOf (s : State) : Event where
  kind := .stats
  fields := [(.symbols, .dec s.symbols.toNat), (.syncs, .dec s.syncs.toNat), (.goodNids, .dec s.goodNids.toNat),
    (.badNids, .dec s.badNids.toNat)]

/-- A run of OBSERVE steps under any configuration, each with its outputs cleared first (R100). -/
def observeAll (c : Cfg) (s : State) (syms : List Sym) : State :=
  syms.foldl (fun s d => observe c d s.beginStep) s

/-- The 32 symbols that carry a 64-bit word, its top two bits first (R53, R105). -/
def symbolsOf (w : BitVec 64) : List Sym := (List.range 32).map fun i => w.extractLsb' (62 - 2 * i) 2

/-- What the dispatch makes of a frame's NAC and type code, its body and ESS: the events and the new ESS (R170). -/
def dispatched (nac : BitVec 12) (duid : BitVec 4) (m : Memory) (ess : Ess) : ProcResult :=
  if nac = 0 then ⟨[], ess⟩
  else
    match typeOfCode Config.cfg.duid duid with
    | some t => processor Config.cfg t ⟨nac, duid⟩ m ess
    | none => ⟨[], ess⟩

/-- The decode event of a frame with these fields after `nac` and `duid` (R194). -/
def decodeEvent (nac : BitVec 12) (duid : BitVec 4) (fields : List (FieldName × Value)) : Event where
  kind := .p25Du
  fields := [(.nac, .hex 3 nac.toNat), (.duid, .hex 1 duid.toNat)] ++ fields

/-- The Reed-Solomon operation of an instance (R141). -/
def rsInstr : RsInst → HexVec → Instr
  | .k55, hb => .rs6355 hb
  | .k51, hb => .rs6351 hb
  | .k47, hb => .rs6347 hb

/-- The state before codeword j of a trellis segment whose symbols are `ys`: 0 before the first, then the last symbol
(R152). -/
def stateBefore (ys : Fin 49 → BitVec 2) (j : Fin 49) : BitVec 2 :=
  if h : j.val = 0 then 0 else ys ⟨j.val - 1, by omega⟩

/-- Codeword j of the trellis segment at `off`: the four deinterleaved bits `d[4j..4j+3]` (R84). -/
def receivedWord (c : Cfg) (m : Memory) (off : Nat) (j : Fin 49) : BitVec 4 :=
  m.gather fun k : Fin 4 => off + (c.trellisPerm ⟨4 * j.val + k.val, by omega⟩).val

/-- The block the first 48 of 49 symbols are packed into: symbol 4q+k in bits 7-2k..6-2k of byte q (R154). -/
def IsPacked (ys : Fin 49 → BitVec 2) (b : Block) : Prop :=
  ∀ (q : Fin 12) (k : Fin 4), b[q].extractLsb' (6 - 2 * k.val) 2 = ys ⟨4 * q.val + k.val, by omega⟩

end Sys2Proof.Machine
end

