-- ==== Sys2Proof/Certificates/Slice0/Obligations.lean ====
section
/-! DEFINITION. The statements for the provers. `Config.cfg` is opaque: a statement about it holds for every well-formed
configuration. A next state is written as the old state with every field that changes named, so that a statement of an
operation's result is also its frame and its completion. The block calls its processors and units inside a step of its own
(R114, R130); that a row of format NID or FU is also a step by itself is the model's choice (assumption 3), which every
statement about such a row rests on. -/

open Sys2Proof Sys2Proof.Machine

/-! ### Encoding -/

/-- Decoding the encoding of a well-formed operation gives it back, with every operand at every value and under any type
codes the configuration may have (R70, R75, R76, R90). -/
def Obligations.DecodeEncodeRoundTrip : Prop :=
  ∀ i : Instr, i.wellFormed Config.cfg.duid = true → decode (encode i) = .ok i

/-- Whatever stands at the inputs, the decoder answers only well-formed operations, and the one the opcode table names:
the first row, in table order, of the format whose masked bits match (note of the table's DISCARD row; R70, R76, R77,
R90). The rows of format NID have the type codes that the word is read under: the configuration's for an information
word, the table's own for a word of the table (log entry 11). -/
def Obligations.DecodeFollowsTheOpcodeTable : Prop :=
  ∀ (p : Presented) (i : Instr), decode p = .ok i → i.wellFormed (codesOf p) = true ∧ tableMnemonic p = some i.mnemonic

/-- What the ports and the information word carry is decoded without loss: two different words never decode to one
operation, and the encoder gives back the word, a word of the opcode table under the table's own type codes (R70, R75,
R260; log entry 11). -/
def Obligations.InputWordsReadBack : Prop :=
  (∀ rst word, ∃ i, decode (.pins rst word) = .ok i ∧ encode i = .pins rst word) ∧
    (∀ word, ∃ i, decode (.info word) = .ok i ∧ encode i = .info word) ∧
    ∀ word, ∃ i, decode (.row word) = .ok i ∧ encodeWith FrameType.code i = .info word

/-- A few words of each format, as the opcode table writes them; the information word of TDU, whose code 3 every
configuration has. That the words 0x2930 and 0x1AB9 name HDU and UNREC rests on the model's reading of a word of the
table under the default type codes (log entry 11, DESIGN CHOICE); those defaults are R76's outside knowledge G3, and
under other codes the information words 0x2930 and 0x1AB9 may name other rows. The table gives HAM_ENC's select code
0x6 alone: the layout of its operand bits is the model's choice (log entry 4). -/
def Obligations.SampleWordsDecode : Prop :=
  decode (.pins 0 0b0001) = .ok (.idle 1) ∧ decode (.pins 0 0b0110) = .ok (.observe 2) ∧
  decode (.pins 0 0b1000) = .ok (.statsClear 0) ∧ decode (.pins 0 0b1111) = .ok (.clearObserve 3) ∧
  decode (.pins 1 0b0110) = .ok (.reset 6) ∧ decode (.info 0x0003) = .ok (.discard 3) ∧
  decode (.info 0x1AB3) = .ok (.tdu 0x1AB) ∧ decode (.row 0x2930) = .ok (.hdu 0x293) ∧
  decode (.row 0x1AB9) = .ok (.unrec 0x1AB 9) ∧
  decode (.unit 0x6 [false, false, false, false, false, true]) = .ok (.hamEnc 1) ∧
  decode (.unit 0xE []) = .ok (.fuReserved 0xE)

/-! ### The step -/

/-- A step takes in the next input and runs the operation that stands there; when no input is left, the ports are idle
and the step is IDLE, for ever (R56, R63). Whatever the step runs, it takes in exactly one input. That an absent input
is IDLE is the model's reading (assumption 6). -/
def Obligations.StepRunsTheDecodedOperation : Prop :=
  (∀ (s : State) (p : Presented) (rest : List Presented) (i : Instr),
    s.input = p :: rest → decode p = .ok i → step s = exec i { s with input := rest }) ∧
  (∀ s : State, s.input = [] → step s = exec (.idle 0) s) ∧
  ∀ s t : State, step s = .next t → t.input = s.input.tail

/-- Driven through its ports the block never stops: no fault, no refusal, for any number of steps from any state. A
configuration that breaks a constraint is refused before any step (R236). -/
def Obligations.BlockNeverStops : Prop :=
  (∀ (s : State) (n : Nat), s.input.all Presented.isPins = true → SafeRun s n) ∧
  ∀ (c : Cfg) (check : Decidable c.WellFormed), ¬ c.WellFormed → c.accept check = .error .illFormed

/-- The state after reset meets the invariant (R41). -/
def Obligations.ResetMeetsTheInvariant : Prop := State.reset.Inv

/-- Every step keeps the invariant `State.Inv`: the body buffer's canonical form and extent, the ranges of `nid_cnt`,
`cursor`, `body_len`, `stat_div` and `nid_nerr`, and the bound on a step's events (R25, R27, R32, R50, R210). -/
def Obligations.EveryStepKeepsTheInvariant : Prop :=
  ∀ s t : State, s.Inv → step s = .next t → t.Inv

/-- Only an input word with a symbol can answer `frame_done` (R38, R115). -/
def Obligations.FrameDoneOnlyFromSymbols : Prop :=
  ∀ (i : Instr) (s t : State), exec i s = .next t → t.frameDone = true →
    ∃ sym, i = .observe sym ∨ i = .clearObserve sym

/-- The counters are monotonic, short of the wrap at 2^64 (R30): an operation that is no clear and no reset adds at most
1 to each, and adds 1 to `symbols` exactly when it takes a symbol (R29). -/
def Obligations.CountersOnlyGrow : Prop :=
  ∀ (i : Instr) (s t : State), i.clears = false → exec i s = .next t →
    (∀ sym, i = .observe sym → t.symbols = s.symbols + 1) ∧
    ((∀ sym, i ≠ .observe sym) → t.symbols = s.symbols) ∧
    (t.syncs = s.syncs ∨ t.syncs = s.syncs + 1) ∧
    (t.goodNids = s.goodNids ∨ t.goodNids = s.goodNids + 1) ∧
    (t.badNids = s.badNids ∨ t.badNids = s.badNids + 1)

/-- `good_nids + bad_nids <= syncs <= symbols` holds after reset and is kept by every step that is no clear, as long as
no counter wraps; an identifier in progress counts as one sync not yet used up (R119). -/
def Obligations.CountersStayOrdered : Prop :=
  State.reset.CounterRel ∧
  ∀ (s t : State) (i : Instr), s.CounterRel → s.symbols.toNat + 1 < 2 ^ 64 → i.clears = false →
    exec i s = .next t → t.CounterRel

/-- While the counters have not been cleared, `stat_div = symbols mod 480` (R32). -/
def Obligations.DividerIsSymbolsModPeriod : Prop :=
  State.reset.statDiv.toNat = State.reset.symbols.toNat % STATS_PERIOD ∧
  ∀ (s t : State) (i : Instr), s.statDiv.toNat = s.symbols.toNat % STATS_PERIOD → s.symbols.toNat + 1 < 2 ^ 64 →
    i.clears = false → exec i s = .next t → t.statDiv.toNat = t.symbols.toNat % STATS_PERIOD

/-- ESS reaches nothing but ESS: two states that differ in ESS only take the same step, with the same events, and end
in states that differ in ESS only (R34, R195; conflict C10). -/
def Obligations.NothingDependsOnEss : Prop :=
  ∀ (i : Instr) (s t : State) (e : Ess), exec i s = .next t →
    ∃ t', exec i { s with ess := e } = .next t' ∧ { t' with ess := t.ess } = t

/-! ### Host operations -/

/-- IDLE answers with nothing and changes nothing, and the ports that show state read as before; STATS_CLEAR writes 0
to the four counters and to nothing else, in particular not to `stat_div` (R224, R220, R221, R223, R31). -/
def Obligations.IdleAndStatsClear : Prop :=
  ∀ (x : BitVec 2) (s : State), exec (.idle x) s = .next s.quiet ∧
    s.quiet.ports = { s.ports with frameDone := false, events := [] } ∧
    { s.quiet with frameDone := s.frameDone, events := s.events, unitOut := s.unitOut } = s ∧
    exec (.statsClear x) s = .next { s.quiet with symbols := 0, syncs := 0, goodNids := 0, badNids := 0 }

/-- The input word `11 ‖ sym`: the clear first, then OBSERVE on the cleared counters, in one step; the symbol is
counted (R225). -/
def Obligations.ClearThenObserve : Prop :=
  ∀ (sym : Sym) (s : State), decode (.pins 0 (0b11#2 ++ sym)) = .ok (.clearObserve sym) ∧
    ∃ t, exec (.clearObserve sym) s = .next t ∧
    exec (.observe sym) { s with symbols := 0, syncs := 0, goodNids := 0, badNids := 0 } = .next t ∧ t.symbols = 1

/-- RESET leaves every field of the block at its reset value, whatever the state was and whatever the input word; it
answers with nothing (R260, R41). -/
def Obligations.ResetFromAnyState : Prop :=
  ∀ (word : BitVec 4) (s : State), ∃ t, exec (.reset word) s = .next t ∧
    t.win = 0 ∧ t.phase = .search ∧ t.nidCnt = 0 ∧ t.nidAcc = 0 ∧ t.bodyLen = 0 ∧ t.cursor = 0 ∧
    (∀ a, t.body.read a = false) ∧ t.nac = 0 ∧ t.duid = 0 ∧ t.par = 0 ∧ t.nidCw = 0 ∧ t.nidNerr = 0 ∧
    t.symbols = 0 ∧ t.syncs = 0 ∧ t.goodNids = 0 ∧ t.badNids = 0 ∧ t.statDiv = 0 ∧
    t.ess.algid = 0 ∧ t.ess.keyid = 0 ∧ t.ess.mi = 0 ∧ t.ess.tgid = 0 ∧
    t.frameDone = false ∧ t.events = [] ∧ t.unitOut = none ∧ t.input = s.input

/-! ### OBSERVE -/

/-- Every symbol is counted and shifted into the window, in every phase (R101, R102). The divider goes up by 1 as well
(R101), but in the step in which the statistics event is due it ends at 0 (R218). -/
def Obligations.ObserveCountsEverySymbol : Prop :=
  ∀ (sym : Sym) (s : State), ∃ t, exec (.observe sym) s = .next t ∧ t.symbols = s.symbols + 1 ∧
    t.win = slide s.win sym ∧ t.statDiv = if s.StatDue then 0 else s.statDiv + 1

/-- In phase SEARCH a symbol does nothing but count and slide the window, and on a sync match start an identifier
(R104, R113): the whole next state. -/
def Obligations.SearchStep : Prop :=
  ∀ (sym : Sym) (s : State), s.phase = .search →
    let hit := Bits.dist (slide s.win sym) Config.cfg.fsPattern ≤ Config.cfg.syncMaxErr
    let u : State := { s.quiet with
      symbols := s.symbols + 1
      win := slide s.win sym
      syncs := if hit then s.syncs + 1 else s.syncs
      nidAcc := if hit then 0 else s.nidAcc
      nidCnt := if hit then 0 else s.nidCnt
      phase := if hit then .nid else .search }
    exec (.observe sym) s = .next { u with
      statDiv := if s.StatDue then 0 else s.statDiv + 1
      events := if s.StatDue then [statsEventOf u] else [] }

/-- A sync match that the test is armed for counts, clears the identifier accumulator and starts identifier
accumulation, whatever the phase work of the same step wrote; without one, `syncs` is unchanged. Inside a body, or
before the last symbol of an identifier, it touches neither `good_nids` nor `bad_nids` (R113). -/
def Obligations.SyncMatchStartsAnIdentifier : Prop :=
  ∀ (sym : Sym) (s : State), ∃ t, exec (.observe sym) s = .next t ∧
    (if SyncAt Config.cfg s.phase (slide s.win sym) then
      t.syncs = s.syncs + 1 ∧ t.nidAcc = 0 ∧ t.nidCnt = 0 ∧ t.phase = .nid
    else t.syncs = s.syncs ∧ (t.phase = .nid → s.phase = .nid)) ∧
    (s.phase ≠ .nid ∨ s.nidCnt ≠ 31 → t.goodNids = s.goodNids ∧ t.badNids = s.badNids)

/-- One of the first 31 symbols of an identifier: it is shifted into the accumulator and counted, unless a sync match
restarts the identifier; the frame is not done and nothing else is written (R105, R113). -/
def Obligations.IdentifierSymbolAccumulates : Prop :=
  ∀ (sym : Sym) (s : State), s.phase = .nid → s.nidCnt.toNat < 31 →
    let hit := SyncAt Config.cfg .nid (slide s.win sym)
    let u : State := { s.quiet with
      symbols := s.symbols + 1
      win := slide s.win sym
      syncs := if hit then s.syncs + 1 else s.syncs
      nidAcc := if hit then 0 else slideNid s.nidAcc sym
      nidCnt := if hit then 0 else s.nidCnt + 1 }
    exec (.observe sym) s = .next { u with
      statDiv := if s.StatDue then 0 else s.statDiv + 1
      events := if s.StatDue then [statsEventOf u] else [] }

/-- The 32nd symbol of an identifier: the 64-bit word is decoded. A failure forces NAC to 0, counts bad, returns to
SEARCH and leaves the other Frame registers and the body's sequencing alone; an accepted identifier writes the five
Frame registers, counts good (also with NAC 0), sets the body's length and cursor, and completes a body of length 0 at
once. A sync match in the same step only starts the next identifier (R106, R109, R110). -/
def Obligations.IdentifierDecoded : Prop :=
  ∀ (sym : Sym) (s : State), s.phase = .nid → s.nidCnt = 31 → ∃ t, exec (.observe sym) s = .next t ∧
    t.nidCnt = 0 ∧ t.body = s.body ∧
    match Config.cfg.nidDecode (slideNid s.nidAcc sym) with
    | .fail =>
      t.nac = 0 ∧ t.badNids = s.badNids + 1 ∧ t.goodNids = s.goodNids ∧ t.duid = s.duid ∧ t.par = s.par ∧
      t.nidCw = s.nidCw ∧ t.nidNerr = s.nidNerr ∧ t.bodyLen = s.bodyLen ∧ t.cursor = s.cursor ∧ t.ess = s.ess ∧
      t.frameDone = false ∧ (∀ e ∈ t.events, e.kind = .stats) ∧
      t.phase = if SyncAt Config.cfg .nid (slide s.win sym) then .nid else .search
    | .ok nac duid par cw nerr =>
      t.nac = nac ∧ t.duid = duid ∧ t.par = par ∧ t.nidCw = cw ∧ t.nidNerr.toNat = nerr ∧
      t.goodNids = s.goodNids + 1 ∧ t.badNids = s.badNids ∧ t.bodyLen = bodyLenOf Config.cfg duid ∧ t.cursor = 0 ∧
      t.frameDone = decide (bodyLenOf Config.cfg duid = 0) ∧
      t.phase = if SyncAt Config.cfg .nid (slide s.win sym) then .nid
        else if bodyLenOf Config.cfg duid = 0 then .search else .body

/-- The body length is looked up by the type code alone: the recognized type's length, else the fallback (R111). -/
def Obligations.BodyLengthFromTypeCode : Prop :=
  ∀ c : Cfg, c.WellFormed → (∀ t, bodyLenOf c (c.duid t) = c.bodyLen t) ∧
    ∀ d, (∀ t, d ≠ c.duid t) → bodyLenOf c d = c.bodyLenUnrec

/-- A symbol in phase BODY is stored as two bits at the cursor, the upper bit first, every other cell of the body
reading as before; the cursor advances by 2; the frame is done exactly when the length is reached (R112). -/
def Obligations.BodySymbolStored : Prop :=
  ∀ (sym : Sym) (s : State), s.phase = .body → s.body.wf = true → ∃ t, exec (.observe sym) s = .next t ∧
    (∀ a, t.body.read a = if a = s.cursor then sym.getLsbD 1 else if a = s.cursor + 1 then sym.getLsbD 0
      else s.body.read a) ∧
    t.cursor = s.cursor + 2 ∧ t.bodyLen = s.bodyLen ∧ t.frameDone = decide (s.bodyLen ≤ s.cursor + 2) ∧
    t.phase = if SyncAt Config.cfg .body (slide s.win sym) then .nid
      else if s.bodyLen ≤ s.cursor + 2 then .search else .body

/-- A frame that completes is dispatched in the same step, on the body with the last symbol in it: the decode events
first, then the statistics event if one is due; a frame that does not complete emits no decode event and leaves ESS
alone (R114, R170, R210). -/
def Obligations.CompletedFrameIsDispatched : Prop :=
  ∀ (sym : Sym) (s : State), ∃ t, exec (.observe sym) s = .next t ∧
    let r := if t.frameDone then dispatched t.nac t.duid t.body s.ess else ⟨[], s.ess⟩
    t.events = r.events ++ (if s.StatDue then [statsEventOf t] else []) ∧ t.ess = r.ess

/-- The frame of OBSERVE: the Frame registers change only when an identifier's last symbol arrives, `body_len` only then,
`cursor` only then or in phase BODY, `nid_acc` and `nid_cnt` only in phase NID or at a sync match, the body only at the
cursor in phase BODY, ESS only with a completed frame (R24, R26, R27, R50, R195, R196). Of the model's own fields, no
unit result is left and the inputs to come are untouched (log entry 2). -/
def Obligations.ObserveFrame : Prop :=
  ∀ (sym : Sym) (s t : State), exec (.observe sym) s = .next t →
    (s.phase ≠ .nid ∨ s.nidCnt ≠ 31 →
      t.nac = s.nac ∧ t.duid = s.duid ∧ t.par = s.par ∧ t.nidCw = s.nidCw ∧ t.nidNerr = s.nidNerr ∧
      t.bodyLen = s.bodyLen ∧ (s.phase ≠ .body → t.cursor = s.cursor)) ∧
    (s.phase ≠ .nid → ¬ SyncAt Config.cfg s.phase (slide s.win sym) → t.nidAcc = s.nidAcc ∧ t.nidCnt = s.nidCnt) ∧
    (∀ a, ¬ (s.phase = .body ∧ (a = s.cursor ∨ a = s.cursor + 1)) → t.body.read a = s.body.read a) ∧
    (t.frameDone = false → t.ess = s.ess) ∧ t.unitOut = none ∧ t.input = s.input

/-- The statistics event: exactly one, the last of the step, in the step whose symbol completes the 480, with the
counters as they stand at the end of the step; `stat_div` then starts again (R218). -/
def Obligations.StatisticsEventWhenDue : Prop :=
  ∀ (sym : Sym) (s : State), ∃ t es, exec (.observe sym) s = .next t ∧ (∀ e ∈ es, e.kind = .p25Du) ∧
    if s.StatDue then
      t.statDiv = 0 ∧ t.events = es ++ [⟨.stats, [(.symbols, .dec t.symbols.toNat), (.syncs, .dec t.syncs.toNat),
        (.goodNids, .dec t.goodNids.toNat), (.badNids, .dec t.badNids.toNat)]⟩]
    else t.statDiv = s.statDiv + 1 ∧ t.events = es

/-! ### Runs of symbols -/

/-- A run of the machine whose next inputs are symbols is OBSERVE of each, in order (R59, R264). -/
def Obligations.RunOfSymbolsObservesEach : Prop :=
  ∀ (s : State) (syms : List Sym) (rest : List Presented),
    s.input = syms.map (fun d => .pins 0 (0b01#2 ++ d)) ++ rest →
    Sys2Proof.core.run syms.length s = .next (observeAll Config.cfg { s with input := rest } syms)

/-- Between two statistics events lie 480 symbols: after the 480th symbol since the last one the step's events hold
exactly one statistics event, with the running totals, and before it none (R218, R219). -/
def Obligations.StatisticsEventOncePerPeriod : Prop :=
  ∀ (c : Cfg) (s : State) (syms : List Sym), s.statDiv = 0 → 0 < syms.length → syms.length ≤ STATS_PERIOD →
    let t := observeAll c s syms
    t.symbols.toNat = (s.symbols.toNat + syms.length) % 2 ^ 64 ∧
    t.statDiv.toNat = syms.length % STATS_PERIOD ∧
    t.events.filter (fun e => e.kind == .stats) = if syms.length = STATS_PERIOD then [statsEventOf t] else []

/-- An undisturbed identifier: the 32 symbols after a sync match give the decoder exactly the 64-bit word they carry,
its first received bit on top, whatever the accumulator held before (R116, R74, R105, R106). -/
def Obligations.IdentifierTakesThirtyTwoSymbols : Prop :=
  ∀ (c : Cfg) (s : State) (w : BitVec 64), s.phase = .nid → s.nidCnt = 0 → Undisturbed c s.win (symbolsOf w) →
    let t := observeAll c s (symbolsOf w)
    (∀ n, n < 32 → (observeAll c s ((symbolsOf w).take n)).phase = .nid) ∧ t.nidAcc = w ∧
    match c.nidDecode w with
    | .fail =>
      t.phase = .search ∧ t.nac = 0 ∧ t.badNids = s.badNids + 1 ∧ t.goodNids = s.goodNids ∧ t.frameDone = false
    | .ok nac duid par cw _ =>
      t.nac = nac ∧ t.duid = duid ∧ t.par = par ∧ t.nidCw = cw ∧ t.goodNids = s.goodNids + 1 ∧
      t.badNids = s.badNids ∧ t.bodyLen = bodyLenOf c duid ∧ t.cursor = 0 ∧
      (if t.bodyLen = 0 then t.phase = .search ∧ t.frameDone = true else t.phase = .body ∧ t.frameDone = false)

/-- An undisturbed body: its symbols end up in the body buffer two bits each, in order of arrival, none skipped; the
frame is done with the last of them and not before; the cells beyond keep what they held (R52, R112, R116, R55). -/
def Obligations.BodyHoldsTheSymbolsInOrder : Prop :=
  ∀ (c : Cfg) (s : State) (syms : List Sym), s.phase = .body → s.cursor = 0 → 0 < s.bodyLen → s.body.wf = true →
    2 * syms.length = evenUp s.bodyLen → Undisturbed c s.win syms →
    let t := observeAll c s syms
    t.frameDone = true ∧ t.phase = .search ∧
    (∀ n, 0 < n → n < syms.length → (observeAll c s (syms.take n)).frameDone = false) ∧
    (∀ (k : Nat) (h : k < syms.length),
      t.body.read (2 * k) = syms[k].getLsbD 1 ∧ t.body.read (2 * k + 1) = syms[k].getLsbD 0) ∧
    ∀ a, 2 * syms.length ≤ a → t.body.read a = s.body.read a

/-! ### Dispatch and the frame-type processors -/

/-- An information word runs the one branch of the dispatch that its NAC and type code select, on the current body and
ESS; nothing but the events and ESS is written (R170, R194, R196). -/
def Obligations.InformationWordRunsTheDispatch : Prop :=
  ∀ (nac : BitVec 12) (duid : BitVec 4) (s : State), exec (decodeInfo Config.cfg.duid (nac ++ duid)) s = .next { s.quiet with
    events := (dispatched nac duid s.body s.ess).events
    ess := (dispatched nac duid s.body s.ess).ess }

/-- DISCARD and UNREC: no processor runs, no event, ESS untouched, no state written (R171, R193). -/
def Obligations.DiscardedFramesLeaveNoTrace : Prop :=
  (∀ (duid : BitVec 4) (s : State), exec (.discard duid) s = .next s.quiet) ∧
  ∀ (nac : BitVec 12) (duid : BitVec 4) (s : State), exec (.unrec nac duid) s = .next s.quiet

/-- TDU: exactly one event, with no field besides `nac`, `duid` and `ok`; no state is written and the body bits are not
read; the event of NAC 0x1AB as D0 renders it (R175). -/
def Obligations.TerminatorEmitsOneEvent : Prop :=
  (∀ (nac : BitVec 12) (s : State), exec (.tdu nac) s = .next { s.quiet with
    events := [⟨.p25Du, [(.nac, .hex 3 nac.toNat), (.duid, .hex 1 3), (.ok, .bool true)]⟩] }) ∧
  (decodeEvent 0x1AB 0x3 [(.ok, .bool true)]).render = [openBrace] ++ "\"p25_du\": ".toList ++ [openBrace] ++
    "\"nac\": \"0x1ab\", \"duid\": \"0x3\", \"ok\": true".toList ++ [closeBrace, closeBrace]

/-- HDU: the 36 words, their mismatch count against HDU_MISM_MAX, Reed-Solomon over the 36 hexbits placed behind 27
zeros, the five fields of the 20 data hexbits, ESS on success only (R172 to R174). -/
def Obligations.HeaderProcessing : Prop :=
  ∀ (nac : BitVec 12) (s : State), ∃ (hb : HexVec) (D : BitVec 120),
    let c := Config.cfg
    let w := fun i : Fin 36 => (s.body.gather (c.hduCwPos i)).setWidth 24
    let m := (List.finRange 36).countP fun i => w i != c.enc24 (g24Decode c (w i)).value
    let r := c.rsDec .k47 hb
    (∀ q : Fin 63, hb[q] =
      if h : 27 ≤ q.val then (g24Decode c (w ⟨q.val - 27, by omega⟩)).value.extractLsb' 0 6 else 0) ∧
    (∀ j : Fin 20, D.extractLsb' (6 * (19 - j.val)) 6 = r.1[27 + j.val]) ∧
    exec (.hdu nac) s = .next (
      if c.hduMismMax < m ∨ r.2 < 0 then { s.quiet with events := [decodeEvent nac (c.duid .hdu) [(.ok, .bool false)]] }
      else { s.quiet with
        events := [decodeEvent nac (c.duid .hdu) [(.mfid, .hex 2 (D.extractLsb' 40 8).toNat),
          (.tgid, .hex 4 (D.extractLsb' 0 16).toNat), (.algid, .hex 2 (D.extractLsb' 32 8).toNat),
          (.keyid, .hex 4 (D.extractLsb' 16 16).toNat),
          (.mi, .buffer (Bits.bytesBE 9 (D.extractLsb' 48 72)).toList), (.ok, .bool true)]]
        ess := {
          algid := D.extractLsb' 32 8
          keyid := D.extractLsb' 16 16
          mi := D.extractLsb' 48 72
          tgid := D.extractLsb' 0 16 } })

/-- A header that arrives with bit errors inside every word's correction radius, in no more words than HDU_MISM_MAX,
decodes to exactly what was sent: the event carries the payload's fields with `ok` true, and ESS takes them. The sent
word i is the shortened code's word of hexbit 27 + i of a Reed-Solomon codeword whose first 27 hexbits are 0 (R80, R82,
R133, R142, R172 to R174). -/
def Obligations.HeaderSurvivesBitErrors : Prop :=
  ∀ (nac : BitVec 12) (s : State) (p : Vector Hexbit RsInst.k47.k) (D : BitVec 120) (e : Fin 36 → BitVec 18),
    let c := Config.cfg
    (∀ q : Fin 27, p[q.val]'(Nat.lt_trans q.isLt (by decide)) = 0) →
    (∀ j : Fin 20, D.extractLsb' (6 * (19 - j.val)) 6 = p[27 + j.val]'(Nat.add_lt_add_left j.isLt 27)) →
    (∀ i : Fin 36, s.body.gather (c.hduCwPos i) =
      (c.enc24 ((c.rsEnc .k47 p)[27 + i.val].setWidth 12)).setWidth 18 ^^^ e i) →
    (∀ i, Bits.popcount (e i) ≤ c.t24) → ((List.finRange 36).countP fun i => e i != 0) ≤ c.hduMismMax →
    exec (.hdu nac) s = .next { s.quiet with
      events := [decodeEvent nac (c.duid .hdu) [(.mfid, .hex 2 (D.extractLsb' 40 8).toNat),
        (.tgid, .hex 4 (D.extractLsb' 0 16).toNat), (.algid, .hex 2 (D.extractLsb' 32 8).toNat),
        (.keyid, .hex 4 (D.extractLsb' 16 16).toNat),
        (.mi, .buffer (Bits.bytesBE 9 (D.extractLsb' 48 72)).toList), (.ok, .bool true)]]
      ess := ⟨D.extractLsb' 32 8, D.extractLsb' 16 16, D.extractLsb' 48 72, D.extractLsb' 0 16⟩ }

/-- LDU1: the 24 hexbits behind 39 zeros, the two thresholds, the link control of 12 data hexbits, the talkgroup
refresh, the voice, and `ok` (R176 to R179). -/
def Obligations.VoiceFrameOne : Prop :=
  ∀ (nac : BitVec 12) (s : State), ∃ (hb : HexVec) (D : BitVec 72),
    let c := Config.cfg
    let w := fun i : Fin 24 => s.body.gather (c.ldu1HbPos i)
    let m := (List.finRange 24).countP fun i => w i != c.hamEnc (c.hamDec (w i))
    let r := c.rsDec .k51 hb
    let good := m < c.lcMismLim ∧ 0 ≤ r.2
    let hard := m < c.lcMismLim ∧ r.2 < 0
    let voice := m < c.voiceMismLim
    (∀ q : Fin 63, hb[q] = if h : 39 ≤ q.val then c.hamDec (w ⟨q.val - 39, by omega⟩) else 0) ∧
    (∀ j : Fin 12, D.extractLsb' (6 * (11 - j.val)) 6 = r.1[39 + j.val]) ∧
    exec (.ldu1 nac) s = .next { s.quiet with
      events := [decodeEvent nac (c.duid .ldu1) ((if good then [(.lcw, .buffer (Bits.bytesBE 9 D).toList)] else []) ++
        (if voice then [(.imbe, .buffer (voiceExtract c s.body))] else []) ++
        [(.ok, .bool (decide (voice ∧ ¬ hard)))])]
      ess := if good then
          match c.lcwTgid (Bits.bytesBE 9 D) with
          | some tg => { s.ess with tgid := tg }
          | none => s.ess
        else s.ess }

/-- LDU2: the same hexbits from its own table, Reed-Solomon (63,55), the refresh of three ESS fields from 16 data
hexbits, never of the talkgroup; the values are not in the event (R180 to R183, R179). -/
def Obligations.VoiceFrameTwo : Prop :=
  ∀ (nac : BitVec 12) (s : State), ∃ (hb : HexVec) (D : BitVec 96),
    let c := Config.cfg
    let w := fun i : Fin 24 => s.body.gather (c.ldu2HbPos i)
    let m := (List.finRange 24).countP fun i => w i != c.hamEnc (c.hamDec (w i))
    let r := c.rsDec .k55 hb
    let voice := m < c.voiceMismLim
    (∀ q : Fin 63, hb[q] = if h : 39 ≤ q.val then c.hamDec (w ⟨q.val - 39, by omega⟩) else 0) ∧
    (∀ j : Fin 16, D.extractLsb' (6 * (15 - j.val)) 6 = r.1[39 + j.val]) ∧
    exec (.ldu2 nac) s = .next { s.quiet with
      events := [decodeEvent nac (c.duid .ldu2) ((if voice then [(.imbe, .buffer (voiceExtract c s.body))] else []) ++
        [(.ok, .bool (decide (voice ∧ ¬ (m < c.lcMismLim ∧ r.2 < 0))))])]
      ess := if m < c.lcMismLim ∧ 0 ≤ r.2 then
          { s.ess with mi := D.extractLsb' 24 72, algid := D.extractLsb' 16 8, keyid := D.extractLsb' 0 16 }
        else s.ess }

/-- TSBK: blocks are decoded in order up to and with the first whose last-block flag is set; a trellis failure of a
block examined gives one failure event and nothing else; otherwise one event per block, in block order, `ok` its CRC16
validity (R184 to R186). -/
def Obligations.TrunkingBlocks : Prop :=
  ∀ (nac : BitVec 12) (s : State),
    let c := Config.cfg
    let block := fun k => trellisDecode c s.body (c.tsbkBlockOff k)
    (∃ n, n < c.tsbkMaxBlocks ∧ (∀ k, k < n → ∃ b, block k = some b ∧ b[0].getLsbD 7 = false) ∧ block n = none ∧
      exec (.tsbk nac) s = .next { s.quiet with events := [decodeEvent nac (c.duid .tsbk) [(.ok, .bool false)]] }) ∨
    ∃ bs : List Block, 0 < bs.length ∧ bs.length ≤ c.tsbkMaxBlocks ∧
      (∀ (k : Nat) (h : k < bs.length), block k = some bs[k] ∧
        (k + 1 < bs.length → bs[k][0].getLsbD 7 = false) ∧
        (k + 1 = bs.length → bs[k][0].getLsbD 7 = true ∨ bs.length = c.tsbkMaxBlocks)) ∧
      exec (.tsbk nac) s = .next { s.quiet with events :=
        (bs.map fun b => decodeEvent nac (c.duid .tsbk) [(.tsbk, .buffer b.toList), (.ok, .bool (crc16 c b.toList == 0))]) }

/-- PDU: the header block's trellis failure, else the multi-block case (service access point 61, a listed format, a
block count that fits) with its data blocks and CRC32, else the header fields (R187 to R190, R159). -/
def Obligations.PacketData : Prop :=
  ∀ (nac : BitVec 12) (s : State),
    let c := Config.cfg
    let block := fun k => trellisDecode c s.body (c.pduBlockOff k)
    let failed := exec (.pdu nac) s = .next { s.quiet with events := [decodeEvent nac (c.duid .pdu) [(.ok, .bool false)]] }
    match block 0 with
    | none => failed
    | some h =>
      let n := (c.pduBlks h).toNat
      if (c.pduSap h).toNat = 61 ∧ (c.pduFmt h).toNat ∈ c.pduMbtFmts ∧ 1 ≤ n ∧ n ≤ c.pduMaxBlocks - 1 then
        ((∃ k, 1 ≤ k ∧ k ≤ n ∧ block k = none) ∧ failed) ∨
        ∃ d : List Block, d.length = n ∧ (∀ (k : Nat) (hk : k < d.length), block (k + 1) = some d[k]) ∧
          let payload := Bits.bytesBits (d.flatMap Vector.toList)
          payload.length = 96 * n ∧
          exec (.pdu nac) s = .next { s.quiet with events := [decodeEvent nac (c.duid .pdu)
            [(.pdu, .buffer (h.toList ++ d.flatMap Vector.toList)),
              (.ok, .bool (crc16 c h.toList == 0 &&
                crc32 c (payload.take (96 * n - 32)) == Bits.ofBits 32 (payload.drop (96 * n - 32))))]] }
      else exec (.pdu nac) s = .next { s.quiet with events := [decodeEvent nac (c.duid .pdu)
        [(.fmt, .dec (c.pduFmt h).toNat), (.sap, .dec (c.pduSap h).toNat), (.blks, .dec n),
          (.ok, .bool (crc16 c h.toList == 0))]] }

/-- TDULC: the 24 hexbits of twelve (24,12) words behind 39 zeros, Reed-Solomon (63,51) always, the link control; ESS
is not written (R191, R192). -/
def Obligations.TerminatorWithLinkControl : Prop :=
  ∀ (nac : BitVec 12) (s : State), ∃ (hb : HexVec) (D : BitVec 72),
    let c := Config.cfg
    let v := fun i : Fin 12 => (g24Decode c (s.body.gather (c.tdulcCwPos i))).value
    let r := c.rsDec .k51 hb
    (∀ q : Fin 39, hb[q.val] = 0) ∧
    (∀ i : Fin 12, hb[39 + 2 * i.val] = (v i).extractLsb' 6 6 ∧ hb[40 + 2 * i.val] = (v i).extractLsb' 0 6) ∧
    (∀ j : Fin 12, D.extractLsb' (6 * (11 - j.val)) 6 = r.1[39 + j.val]) ∧
    exec (.tdulc nac) s = .next { s.quiet with events := [decodeEvent nac (c.duid .tdulc)
      (if r.2 < 0 then [(.ok, .bool false)]
      else [(.lcw, .buffer (Bits.bytesBE 9 D).toList), (.ok, .bool true)])] }

/-- Who writes ESS: only HDU, LDU1 (the talkgroup alone) and LDU2 (never the talkgroup); no processor writes the
synchronizer's state, the Frame registers or the counters (R34, R195, R196). -/
def Obligations.ProcessorsWriteOnlyEventsAndEss : Prop :=
  ∀ (word : BitVec 16) (s : State), ∃ t, exec (decodeInfo Config.cfg.duid word) s = .next t ∧
    { s.quiet with events := t.events, ess := t.ess } = t ∧
    (t.ess ≠ s.ess → ∃ nac, decodeInfo Config.cfg.duid word = .hdu nac ∨ decodeInfo Config.cfg.duid word = .ldu1 nac ∨ decodeInfo Config.cfg.duid word = .ldu2 nac) ∧
    (∀ nac, decodeInfo Config.cfg.duid word = .ldu1 nac → { t.ess with tgid := s.ess.tgid } = s.ess) ∧
    (∀ nac, decodeInfo Config.cfg.duid word = .ldu2 nac → t.ess.tgid = s.ess.tgid)

/-- Events per completed frame: none for DISCARD and UNREC, one for HDU, TDU, LDU1, LDU2, PDU and TDULC, one to
TSBK_MAX_BLOCKS for TSBK; each starts with `nac` and `duid` (R197, R194). -/
def Obligations.EventsPerFrame : Prop :=
  ∀ (nac : BitVec 12) (duid : BitVec 4) (m : Memory) (ess : Ess),
    let es := (dispatched nac duid m ess).events
    (∀ e ∈ es, ∃ fields, e = decodeEvent nac duid fields) ∧
    if nac = 0 ∨ isRecognized Config.cfg.duid duid = false then es = []
    else if duid = Config.cfg.duid .tsbk then 1 ≤ es.length ∧ es.length ≤ Config.cfg.tsbkMaxBlocks
    else es.length = 1

/-! ### The FEC toolkit -/

/-- G24_DEC inside the radius: any codeword with at most T24 bits flipped gives the value back, the number of flipped
bits, and `ok` (R133). -/
def Obligations.BlockCodeCorrects : Prop :=
  ∀ (v : BitVec 12) (e : BitVec 24) (s : State), Bits.popcount e ≤ Config.cfg.t24 →
    exec (.g24Dec (Config.cfg.enc24 v ^^^ e)) s =
      .next { s.quiet with unitOut := some (.g24Dec v (Bits.popcount e) true) }

/-- G24_DEC of any word answers: inside the radius of a codeword its value, else the fallback value with `ok` false;
the count is the distance to the re-encoded value; the mismatch flag `w != enc24(value)` is set exactly when that count
is not 0, and always when `ok` is false (R132, R134, R135). -/
def Obligations.BlockDecodeAnswersAlways : Prop :=
  ∀ (w : BitVec 24) (s : State), ∃ (v : BitVec 12) (ok : Bool),
    let c := Config.cfg
    exec (.g24Dec w) s = .next { s.quiet with unitOut := some (.g24Dec v (Bits.dist w (c.enc24 v)) ok) } ∧
    (ok = true ↔ ∃ u, Bits.dist w (c.enc24 u) ≤ c.t24) ∧
    (ok = true → Bits.dist w (c.enc24 v) ≤ c.t24) ∧ (ok = false → v = c.dec24Fallback w) ∧
    (w ≠ c.enc24 v ↔ Bits.dist w (c.enc24 v) ≠ 0) ∧ (ok = false → w ≠ c.enc24 v)

/-- The encoders answer with the configured codeword: G24_ENC systematic and GF(2)-linear, so that the zero value has the
zero word, two codewords more than 2·T24 apart; HAM_ENC injective (R131, R145). -/
def Obligations.EncodersAnswer : Prop :=
  let c := Config.cfg
  (∀ (v : BitVec 12) (s : State), exec (.g24Enc v) s = .next { s.quiet with unitOut := some (.g24Enc (c.enc24 v)) } ∧
    (c.enc24 v).extractLsb' 12 12 = v ∧ ∀ u, u ≠ v → 2 * c.t24 < Bits.dist (c.enc24 u) (c.enc24 v)) ∧
  (∀ u v, c.enc24 (u ^^^ v) = c.enc24 u ^^^ c.enc24 v) ∧ c.enc24 0 = 0 ∧
  ∀ (v : BitVec 6) (s : State), exec (.hamEnc v) s = .next { s.quiet with unitOut := some (.hamEnc (c.hamEnc v)) } ∧
    ∀ u, c.hamEnc u = c.hamEnc v → u = v

/-- HAM_DEC always returns a value; its flag is set exactly on the words that are no codeword, and a codeword gives its
value back (R146, R147). -/
def Obligations.TenSixCode : Prop :=
  let c := Config.cfg
  (∀ (w : BitVec 10) (s : State), ∃ mism,
    exec (.hamDec w) s = .next { s.quiet with unitOut := some (.hamDec (c.hamDec w) mism) } ∧
    (mism = true ↔ ∀ v, w ≠ c.hamEnc v)) ∧
  ∀ (v : BitVec 6) (s : State),
    exec (.hamDec (c.hamEnc v)) s = .next { s.quiet with unitOut := some (.hamDec v false) }

/-- The three Reed-Solomon units. Within `t_k` symbol errors of a codeword they answer that codeword and the number of
errors; on any vector they answer, with -1 exactly when no codeword is that near; the zero vector gives itself and 0
(R141 to R143). -/
def Obligations.ReedSolomonUnits : Prop :=
  (∀ (i : RsInst) (p : Vector Hexbit i.k) (hb : HexVec) (s : State),
    symDist hb (Config.cfg.rsEnc i p) ≤ (63 - i.k) / 2 → exec (rsInstr i hb) s =
      .next { s.quiet with unitOut := some (.rs (Config.cfg.rsEnc i p) (symDist hb (Config.cfg.rsEnc i p))) }) ∧
  ∀ (i : RsInst) (hb : HexVec) (s : State), ∃ (hb' : HexVec) (n : Int),
    exec (rsInstr i hb) s = .next { s.quiet with unitOut := some (.rs hb' n) } ∧
    (n = -1 ↔ ∀ p, (63 - i.k) / 2 < symDist hb (Config.cfg.rsEnc i p)) ∧ (n = -1 ∨ 0 ≤ n ∧ n ≤ (63 - i.k) / 2) ∧
    (hb = Vector.replicate 63 0 → hb' = Vector.replicate 63 0 ∧ n = 0)

/-- TRELLIS_DEC answers a block exactly when there is a run of 49 symbols each of which is the one nearest to its
received codeword among the four transitions out of the state before it, and then the block is those symbols packed;
in every other case (a tie somewhere) it fails (R150 to R154). An offset whose segment lies in the buffer but reaches
past `body_len` is outside R150's operand bound; that it is decoded too is the model's choice (log entry 7). -/
def Obligations.TrellisDecodesTheNearestPath : Prop :=
  ∀ (off : Nat) (s : State), off + 196 ≤ Config.cfg.bodyMax → ∃ r : Option Block,
    let c := Config.cfg
    exec (.trellisDec off) s = .next { s.quiet with unitOut := some (.trellis r) } ∧
    ∀ b, r = some b ↔ ∃ ys : Fin 49 → BitVec 2, IsPacked ys b ∧ ∀ j x, x ≠ ys j →
      Bits.dist (receivedWord c s.body off j) (c.trellisTab (stateBefore ys j) (ys j)) <
        Bits.dist (receivedWord c s.body off j) (c.trellisTab (stateBefore ys j) x)

/-- A segment without bit errors never fails: it decodes to the symbols its encoder, started in state 0, was given
(R153). -/
def Obligations.TrellisWithoutErrors : Prop :=
  ∀ (c : Cfg) (m : Memory) (off : Nat) (ys : Fin 49 → BitVec 2) (b : Block), c.WellFormed →
    (∀ j, receivedWord c m off j = c.trellisTab (stateBefore ys j) (ys j)) → IsPacked ys b →
    trellisDecode c m off = some b

/-- The CRC16 unit answers CRC16 of its buffer. Of a buffer with a two-byte check value behind it that is 0 exactly
when the check value is the CRC16 of the buffer with two zero bytes behind it; of any number of zero bytes it is
0xFFFF (R155 to R157). -/
def Obligations.Crc16CheckValue : Prop :=
  (∀ (bytes : List Byte) (s : State),
    exec (.crc16 bytes) s = .next { s.quiet with unitOut := some (.crc16 (crc16 Config.cfg bytes)) }) ∧
  (∀ (c : Cfg) (d : List Byte) (hi lo : Byte), crc16 c (d ++ [hi, lo]) = 0 ↔ hi ++ lo = crc16 c (d ++ [0, 0])) ∧
  ∀ (c : Cfg) (n : Nat), crc16 c (List.replicate n 0) = 0xFFFF

/-- Flipping one bit of a buffer always changes its CRC16, for a polynomial with a constant term: a valid block is then
no longer valid (R157). The premise on the polynomial is the statement's own; R157 asks for more than one term. -/
def Obligations.SingleBitChangeIsDetected : Prop :=
  ∀ (c : Cfg) (a b : List Byte) (x : Byte) (j : Fin 8), c.crc16Poly.getLsbD 16 = true → c.crc16Poly.getLsbD 0 = true →
    crc16 c (a ++ (x ^^^ BitVec.twoPow 8 j.val) :: b) ≠ crc16 c (a ++ x :: b)

/-- CRC32 of a message, appended to it most significant bit first, is the one check value that passes the payload
check; CRC32 of any number of zero bits is 0xFFFFFFFF (R158, R159). -/
def Obligations.Crc32AppendedCheckPasses : Prop :=
  (∀ (bits : List Bool) (s : State), ∃ v,
    exec (.crc32 bits) s = .next { s.quiet with unitOut := some (.crc32 v) } ∧
    ∀ u : BitVec 32, crc32Valid Config.cfg (bits ++ Bits.toBits u) = true ↔ u = v) ∧
  ∀ (n : Nat) (s : State),
    exec (.crc32 (List.replicate n false)) s = .next { s.quiet with unitOut := some (.crc32 0xFFFFFFFF) }

/-- NID_DEC answers with the configured decoder's result; an accepted word's count is its distance from the corrected
codeword, that codeword decodes to the same fields with count 0, and every pair of NAC and type code has a codeword
(R108). -/
def Obligations.IdentifierDecoderContract : Prop :=
  let c := Config.cfg
  (∀ (w : BitVec 64) (s : State),
    exec (.nidDec w) s = .next { s.quiet with unitOut := some (.nidDec (c.nidDecode w)) } ∧
    ∀ nac duid par cw nerr, c.nidDecode w = .ok nac duid par cw nerr →
      nerr = Bits.dist w cw ∧ c.nidDecode cw = .ok nac duid par cw 0) ∧
  ∀ nac duid, ∃ par cw, c.nidDecode cw = .ok nac duid par cw 0

/-- A unit reads no block state but the body, writes none and emits no event: its step changes only the unit result,
which is the same in any two states with the same body (R130). -/
def Obligations.UnitsArePure : Prop :=
  ∀ (i : Instr) (s s' t : State), i.isUnit = true → s'.body = s.body → exec i s = .next t →
    { s.quiet with unitOut := t.unitOut } = t ∧ exec i s' = .next { s'.quiet with unitOut := t.unitOut }

/-- The two calls that stop, and how: a reserved select code is refused (R90); a direct call of TRELLIS_DEC on cells
that do not exist faults (R50). That there are direct calls at all is the model's choice (assumption 3). -/
def Obligations.UnitCallsThatStop : Prop :=
  (∀ (sel : BitVec 4) (s : State), exec (.fuReserved sel) s = .refused (.reservedUnit sel)) ∧
  ∀ (off : Nat) (s : State), Config.cfg.bodyMax < off + 196 → exec (.trellisDec off) s = .fault .noSuchBodyCell

/-! ### The voice codeword extractor -/

/-- VOICE_DEINT: entry j of the segment's row gives the j-th bit of u0 to u7, each field's top bit first; the result is
the eight fields and nothing of the spare bits (R201, R87, R203). That a body which is no voice frame's, or is shorter
than the entries, is read the same way is the model's choice (log entry 22). -/
def Obligations.VoiceFieldsComeFromTheirRow : Prop :=
  ∀ (g : Fin 9) (s : State), ∃ u : VoiceFields,
    exec (.voiceDeint g) s = .next { s.quiet with unitOut := some (.voiceDeint u) } ∧
    let bit := fun j : Fin 86 => s.body.read (Config.cfg.voicePos g j)
    (∀ j : Fin 12, u.u0.getLsbD (11 - j.val) = bit ⟨j.val, by omega⟩) ∧
    (∀ j : Fin 12, u.u1.getLsbD (11 - j.val) = bit ⟨12 + j.val, by omega⟩) ∧
    (∀ j : Fin 12, u.u2.getLsbD (11 - j.val) = bit ⟨24 + j.val, by omega⟩) ∧
    (∀ j : Fin 12, u.u3.getLsbD (11 - j.val) = bit ⟨36 + j.val, by omega⟩) ∧
    (∀ j : Fin 11, u.u4.getLsbD (10 - j.val) = bit ⟨48 + j.val, by omega⟩) ∧
    (∀ j : Fin 11, u.u5.getLsbD (10 - j.val) = bit ⟨59 + j.val, by omega⟩) ∧
    (∀ j : Fin 9, u.u6.getLsbD (8 - j.val) = bit ⟨70 + j.val, by omega⟩) ∧
    (∀ j : Fin 7, u.u7.getLsbD (6 - j.val) = bit ⟨79 + j.val, by omega⟩)

/-- VOICE_PACK loses nothing: unpacking gives the fields back, the last byte's two low bits are 0, and every buffer
with those bits 0 is the packing of some fields (R202, R205, R206). -/
def Obligations.VoicePackRoundTrip : Prop :=
  (∀ (u : VoiceFields) (s : State), ∃ b : Bytes11,
    exec (.voicePack u) s = .next { s.quiet with unitOut := some (.voicePack b) } ∧
    voiceUnpack b = u ∧ b[10].extractLsb' 0 2 = 0) ∧
  ∀ b : Bytes11, b[10].extractLsb' 0 2 = 0 → voicePack (voiceUnpack b) = b

/-- VOICE_EXTRACT gives 99 bytes, segment g in bytes 11g to 11g+10, and depends on the body bits at VOICE_POS only
(R200, R207). -/
def Obligations.VoiceDependsOnVoiceBitsOnly : Prop :=
  ∀ (c : Cfg) (m : Memory), (voiceExtract c m).length = 99 ∧
    (∀ g : Fin 9, ((voiceExtract c m).drop (11 * g.val)).take 11 = (voicePack (voiceDeint c m g)).toList) ∧
    ∀ m' : Memory, (∀ g j, m'.read (c.voicePos g j) = m.read (c.voicePos g j)) → voiceExtract c m' = voiceExtract c m

/-! ### The text of events -/

/-- The rendering rules of values (R213 to R217). A number of kind hex is `0x` and exactly the kind's number of
lower-case hexadecimal digits between quotes, from which the number can be read back; a boolean is bare; a buffer is,
between quotes, two digits for each byte, which read back pair by pair as the bytes, `B[0]` first; an unsigned decimal is
its digits alone, from which the number can be read back, without padding. -/
def Obligations.ValueRendering : Prop :=
  let digits := "0123456789abcdef".toList
  (∀ d n : Nat, ∃ ds : List Char, (Value.hex d n).render = ['"', '0', 'x'] ++ ds ++ ['"'] ∧
    ds.length = d ∧ (∀ ch ∈ ds, ch ∈ digits) ∧ ds.foldl (fun acc ch => 16 * acc + digits.idxOf ch) 0 = n % 16 ^ d) ∧
  ((Value.bool true).render = "true".toList ∧ (Value.bool false).render = "false".toList) ∧
  (∀ bytes : List Byte, ∃ ds : List Char, (Value.buffer bytes).render = ['"'] ++ ds ++ ['"'] ∧
    ds.length = 2 * bytes.length ∧ (∀ ch ∈ ds, ch ∈ digits) ∧
    ∀ k : Fin bytes.length,
      16 * digits.idxOf (ds.getD (2 * k.val) '0') + digits.idxOf (ds.getD (2 * k.val + 1) '0') = bytes[k].toNat) ∧
  ∀ n : Nat, let ds := (Value.dec n).render
    ds ≠ [] ∧ (∀ ch ∈ ds, ch ∈ "0123456789".toList) ∧ ds.foldl (fun acc ch => 10 * acc + digits.idxOf ch) 0 = n ∧
    (ds.head? = some '0' → ds = ['0'])

/-- The line of an event: the outer name, then every field as its name and its value, a colon and one space between
them, the fields joined by a comma and one space, no space inside the braces; it is a single line, with no line
terminator (R212). The statistics event has its four counters in order (R219). -/
def Obligations.EventLine : Prop :=
  (∀ e : Event, e.render = [openBrace, '"'] ++ e.kind.text.toList ++ ['"', ':', ' ', openBrace] ++
      List.intercalate [',', ' '] (e.fields.map fun f => ['"'] ++ f.1.text.toList ++ ['"', ':', ' '] ++ f.2.render) ++
      [closeBrace, closeBrace] ∧
    ∀ ch ∈ e.render, ch ≠ '\n' ∧ ch ≠ '\r') ∧
  ∀ s : State, (statsEventOf s).render = [openBrace] ++ "\"stats\": ".toList ++ [openBrace] ++
    "\"symbols\": ".toList ++ (Value.dec s.symbols.toNat).render ++
    ", \"syncs\": ".toList ++ (Value.dec s.syncs.toNat).render ++
    ", \"good_nids\": ".toList ++ (Value.dec s.goodNids.toNat).render ++
    ", \"bad_nids\": ".toList ++ (Value.dec s.badNids.toNat).render ++ [closeBrace, closeBrace]
end

