-- ==== Sys2Proof/Laws/Bits.lean ====
section
/-! SUPPORT. What the bit-string helpers of Machine/Bits.lean compute: bit by bit, their round trips, and the metric
facts of `dist`. -/

namespace Sys2Proof.Bits

/-! ### Bit strings and numbers -/

@[simp] theorem toNatBE_nil : toNatBE [] = 0 := rfl

theorem toNatBE_concat (bs : List Bool) (b : Bool) : toNatBE (bs ++ [b]) = 2 * toNatBE bs + b.toNat := by
  simp [toNatBE, List.foldl_append]

/-- The last bit of the string is bit 0 of the number. -/
theorem testBit_toNatBE (bs : List Bool) (i : Nat) : (toNatBE bs).testBit i = bs.reverse.getD i false := by
  induction bs using List.reverseRecOn generalizing i with
  | nil => simp
  | append_singleton bs b ih =>
    rw [toNatBE_concat, List.reverse_append, List.reverse_singleton, List.singleton_append]
    cases i with
    | zero => cases b <;> simp [Nat.testBit_zero, Nat.add_mod]
    | succ i =>
      rw [Nat.testBit_succ, List.getD_cons_succ, ← ih i]
      congr 1
      cases b <;> (simp; try omega)

theorem testBit_toNatBE_of_lt (bs : List Bool) (i : Nat) (h : i < bs.length) :
    (toNatBE bs).testBit (bs.length - 1 - i) = bs[i] := by
  rw [testBit_toNatBE, List.getD_eq_getElem?_getD, List.getElem?_reverse (by omega)]
  have : bs.length - 1 - (bs.length - 1 - i) = i := by omega
  rw [this, List.getElem?_eq_getElem h]
  rfl

theorem toNatBE_lt (bs : List Bool) : toNatBE bs < 2 ^ bs.length := by
  refine Nat.lt_pow_two_of_testBit _ fun i hi => ?_
  rw [testBit_toNatBE]
  exact List.getD_eq_default _ _ (by simpa using hi)

@[simp] theorem natBits_length (w n : Nat) : (natBits w n).length = w := by simp [natBits]

theorem natBits_getElem (w n i : Nat) (h : i < (natBits w n).length) :
    (natBits w n)[i] = n.testBit (w - 1 - i) := by simp [natBits]

theorem toNatBE_natBits (w n : Nat) : toNatBE (natBits w n) = n % 2 ^ w := by
  refine Nat.eq_of_testBit_eq fun i => ?_
  rw [Nat.testBit_mod_two_pow]
  by_cases h : i < w
  · have := testBit_toNatBE_of_lt (natBits w n) (w - 1 - i) (by simp; omega)
    rw [natBits_getElem, natBits_length] at this
    have e : w - 1 - (w - 1 - i) = i := by omega
    rw [e] at this
    simp [this, h]
  · rw [testBit_toNatBE]
    simp [h]

@[simp] theorem toBits_length {w : Nat} (v : BitVec w) : (toBits v).length = w := natBits_length _ _

theorem toBits_getElem {w : Nat} (v : BitVec w) (i : Nat) (h : i < (toBits v).length) :
    (toBits v)[i] = v.getLsbD (w - 1 - i) := natBits_getElem _ _ _ h

@[simp] theorem ofBits_toBits {w : Nat} (v : BitVec w) : ofBits w (toBits v) = v := by
  rw [ofBits, toBits, toNatBE_natBits]
  exact BitVec.eq_of_toNat_eq (by simp)

/-- The j-th bit of the string is bit w-1-j of the value. -/
theorem ofBits_getLsbD {w : Nat} (bs : List Bool) (h : bs.length = w) (j : Nat) (hj : j < w) :
    (ofBits w bs).getLsbD (w - 1 - j) = bs[j] := by
  subst h
  rw [ofBits, BitVec.getLsbD_ofNat, testBit_toNatBE_of_lt bs j hj]
  simp; omega

theorem toBits_ofBits {w : Nat} (bs : List Bool) (h : bs.length = w) : toBits (ofBits w bs) = bs := by
  refine List.ext_getElem (by simp [h]) fun i h1 h2 => ?_
  rw [toBits_getElem, ofBits_getLsbD bs h i (by omega)]

theorem toBits_inj {w : Nat} {a b : BitVec w} (h : toBits a = toBits b) : a = b := by
  rw [← ofBits_toBits a, h, ofBits_toBits]

theorem toBits_append {m n : Nat} (a : BitVec m) (b : BitVec n) : toBits (a ++ b) = toBits a ++ toBits b := by
  refine List.ext_getElem (by simp) fun i h1 h2 => ?_
  simp only [toBits_length] at h1
  rw [toBits_getElem, BitVec.getLsbD_append]
  by_cases hi : i < m
  · rw [List.getElem_append_left (by simpa using hi), toBits_getElem, if_neg (by omega)]
    congr 1; omega
  · rw [List.getElem_append_right (by simpa using hi), toBits_getElem, if_pos (by omega), toBits_length]
    congr 1; omega

/-! ### Lengths and runs -/

theorem hasLength_iff {α : Type} (n : Nat) (l : List α) : hasLength n l = true ↔ l.length = n := by
  induction n generalizing l with
  | zero => cases l <;> simp [hasLength]
  | succ n ih => cases l <;> simp [hasLength, ih]

/-- Piece j of a concatenation of pieces of one length. -/
theorem take_drop_flatMap {α β : Type} (f : α → List β) (k : Nat) (l : List α) (hk : ∀ a, (f a).length = k) (j : Nat)
    (hj : j < l.length) : ((l.flatMap f).drop (k * j)).take k = f l[j] := by
  induction l generalizing j with
  | nil => simp at hj
  | cons a l ih =>
    cases j with
    | zero => simp [hk a]
    | succ j =>
      have : k * (j + 1) = (f a).length + k * j := by rw [hk a, Nat.mul_succ, Nat.add_comm]
      rw [List.flatMap_cons, this, List.drop_append]
      simp only [Nat.add_sub_cancel_left, List.getElem_cons_succ]
      rw [List.drop_eq_nil_of_le (by omega), List.nil_append]
      exact ih j (by simpa using hj)

theorem flatMap_length {α β : Type} (f : α → List β) (k : Nat) (l : List α) (hk : ∀ a, (f a).length = k) :
    (l.flatMap f).length = k * l.length := by
  induction l with
  | nil => simp
  | cons a l ih => simp [hk, ih, Nat.mul_succ]; omega

@[simp] theorem bytesBits_length (bs : List Byte) : (bytesBits bs).length = 8 * bs.length :=
  flatMap_length _ _ _ fun _ => toBits_length _

@[simp] theorem bytesBits_nil : bytesBits [] = [] := rfl

theorem bytesBits_cons (b : Byte) (bs : List Byte) : bytesBits (b :: bs) = toBits b ++ bytesBits bs := rfl

theorem bytesBits_append (a b : List Byte) : bytesBits (a ++ b) = bytesBits a ++ bytesBits b := by
  simp [bytesBits]

/-! ### Slices of concatenations -/

theorem extractLsb'_append_high {m n : Nat} (a : BitVec m) (b : BitVec n) (s len : Nat) (h : n ≤ s) :
    (a ++ b).extractLsb' s len = a.extractLsb' (s - n) len := by
  ext i hi
  have h1 : ¬ s + i < n := by omega
  simp only [BitVec.getElem_extractLsb', BitVec.getLsbD_append, h1, if_false]
  congr 1; omega

theorem extractLsb'_append_low {m n : Nat} (a : BitVec m) (b : BitVec n) (s len : Nat) (h : s + len ≤ n) :
    (a ++ b).extractLsb' s len = b.extractLsb' s len := by
  ext i hi
  have h1 : s + i < n := by omega
  simp [BitVec.getElem_extractLsb', BitVec.getLsbD_append, h1]

theorem extractLsb'_whole {w : Nat} (a : BitVec w) : a.extractLsb' 0 w = a := by
  ext i hi; simp

/-! ### Hexbits -/

/-- Hexbit j of a run of n hexbits is the slice of six bits that stands j hexbits below the top. -/
theorem ofHexbits_slice (n : Nat) (hs : List Hexbit) (hn : hs.length = n) (j : Nat) (hj : j < n) :
    (ofHexbits (6 * n) hs).extractLsb' (6 * (n - 1 - j)) 6 = hs[j] := by
  have key : ∀ (hs : List Hexbit) (acc : Nat) (j : Nat) (hj : j < hs.length),
      hs.foldl (fun acc h => 64 * acc + h.toNat) acc / 64 ^ (hs.length - 1 - j) % 64 = (hs[j]).toNat := by
    intro hs
    induction hs using List.reverseRecOn with
    | nil => intro acc j hj; simp at hj
    | append_singleton hs x ih =>
      intro acc j hj
      rw [List.foldl_append]
      simp only [List.foldl_cons, List.foldl_nil, List.length_append, List.length_singleton]
      have hx := x.isLt
      by_cases h : j < hs.length
      · rw [List.getElem_append_left h, ← ih acc j h]
        have e : hs.length + 1 - 1 - j = (hs.length - 1 - j) + 1 := by omega
        rw [e, pow_succ', ← Nat.div_div_eq_div_mul]
        congr 2; omega
      · simp only [List.length_append, List.length_singleton] at hj
        obtain rfl : j = hs.length := by omega
        simp; omega
  subst hn
  apply BitVec.eq_of_toNat_eq
  rw [BitVec.extractLsb'_toNat, ofHexbits, BitVec.toNat_ofNat, Nat.shiftRight_eq_div_pow]
  have h1 := key hs 0 j hj
  have e : (2 : Nat) ^ (6 * (hs.length - 1 - j)) = 64 ^ (hs.length - 1 - j) := by rw [pow_mul]; norm_num
  rw [e, ← h1]
  generalize hs.foldl (fun acc h => 64 * acc + h.toNat) 0 = N
  have e2 : (2 : Nat) ^ (6 * hs.length) = 64 ^ (hs.length - 1 - j) * (64 * 64 ^ j) := by
    rw [pow_mul, ← pow_succ', ← pow_add]
    norm_num
    omega
  rw [e2, Nat.mod_mul_right_div_self, show (2 : Nat) ^ 6 = 64 from rfl, Nat.mod_mul_right_mod]

/-- Two values of 6n bits with the same n hexbit slices are equal. -/
theorem eq_of_slices (n : Nat) (a b : BitVec (6 * n))
    (h : ∀ j, j < n → a.extractLsb' (6 * (n - 1 - j)) 6 = b.extractLsb' (6 * (n - 1 - j)) 6) : a = b := by
  ext i hi
  have hj := h (n - 1 - i / 6) (by omega)
  have e : n - 1 - (n - 1 - i / 6) = i / 6 := by omega
  rw [e] at hj
  have := congrArg (fun v => v.getLsbD (i % 6)) hj
  simp only [BitVec.getLsbD_extractLsb'] at this
  have e2 : 6 * (i / 6) + i % 6 = i := by omega
  rw [e2] at this
  have hm : i % 6 < 6 := Nat.mod_lt _ (by decide)
  simpa [hm, BitVec.getLsbD_eq_getElem hi] using this

/-! ### Distance -/

theorem popcount_zero (w : Nat) : popcount (0 : BitVec w) = 0 := by simp [popcount]

@[simp] theorem dist_self {w : Nat} (a : BitVec w) : dist a a = 0 := by simp [dist, popcount]

theorem dist_comm {w : Nat} (a b : BitVec w) : dist a b = dist b a := by rw [dist, dist, BitVec.xor_comm]

theorem popcount_eq_zero {w : Nat} {v : BitVec w} (h : popcount v = 0) : v = 0 := by
  rw [popcount, List.countP_eq_zero] at h
  ext i hi
  have := h i (List.mem_range.mpr hi)
  simpa [BitVec.getLsbD_eq_getElem hi] using this

theorem eq_of_dist_eq_zero {w : Nat} {a b : BitVec w} (h : dist a b = 0) : a = b :=
  BitVec.xor_eq_zero_iff.mp (popcount_eq_zero h)

theorem dist_eq_zero_iff {w : Nat} {a b : BitVec w} : dist a b = 0 ↔ a = b :=
  ⟨eq_of_dist_eq_zero, fun h => h ▸ dist_self a⟩

theorem popcount_le {w : Nat} (v : BitVec w) : popcount v ≤ w :=
  le_trans (List.countP_le_length) (by simp)

theorem dist_le {w : Nat} (a b : BitVec w) : dist a b ≤ w := popcount_le _

theorem popcount_xor_le {w : Nat} (a b : BitVec w) : popcount (a ^^^ b) ≤ popcount a + popcount b := by
  unfold popcount
  generalize List.range w = l
  induction l with
  | nil => simp
  | cons i l ih =>
    simp only [List.countP_cons, BitVec.getLsbD_xor] at ih ⊢
    cases a.getLsbD i <;> cases b.getLsbD i <;> simp <;> omega

theorem dist_triangle {w : Nat} (a b c : BitVec w) : dist a c ≤ dist a b + dist b c := by
  have h := popcount_xor_le (a ^^^ b) (b ^^^ c)
  have e : a ^^^ b ^^^ (b ^^^ c) = a ^^^ c := by
    rw [BitVec.xor_assoc, ← BitVec.xor_assoc b b c, BitVec.xor_self, BitVec.zero_xor]
  rwa [e] at h

theorem dist_xor_right {w : Nat} (a e : BitVec w) : dist (a ^^^ e) a = popcount e := by
  have h : a ^^^ e ^^^ a = e := by
    rw [BitVec.xor_comm a e, BitVec.xor_assoc, BitVec.xor_self, BitVec.xor_zero]
  rw [dist, h]

theorem popcount_setWidth {w v : Nat} (h : w ≤ v) (a : BitVec w) : popcount (a.setWidth v) = popcount a := by
  obtain ⟨k, rfl⟩ := Nat.exists_eq_add_of_le h
  unfold popcount
  rw [List.range_add, List.countP_append, List.countP_map]
  have h2 : ((fun i => (a.setWidth (w + k)).getLsbD i) ∘ fun x => w + x) = fun _ => false := by
    funext i
    simp
  rw [h2]
  simp only [List.countP_false, Function.const, Nat.add_zero]
  refine List.countP_congr fun i hi => ?_
  have := List.mem_range.mp hi
  simp [show i < w + k by omega]

end Sys2Proof.Bits
end

