-- ==== Sys2Proof/Machine/Stimulus.lean ====
section
/-! DEFINITION. The stimulus notation (R91, R92): each directive as the input words it expands to. A stimulus file is
the block's "program"; it is what a run is given as `State.input`. -/

namespace Sys2Proof.Machine

open Sys2Proof

/-- The directives (R91) and pseudo-directives (R92). `nid` carries the codeword itself, since which 64-bit word is the
valid one of an information word is a matter of the configuration (`IsNidWord`). -/
inductive Directive where
  | reset
  | sym (d : Sym)
  | syms (ds : List Sym)
  | symhex (digits : List (BitVec 4))
  | clear
  | idle (n : Nat)
  | sync
  | nid (w : BitVec 64)
  | bits (pairs : List (Bool × Bool))
  | zeros (n : Nat)
deriving DecidableEq, Repr

/-- One symbol as an input word, `01 ‖ d`. -/
def symWord (d : Sym) : Presented := .pins 0 (0b01#2 ++ d)

/-- Two symbols a hexadecimal digit, the upper two bits first (R91). -/
def digitSyms (h : BitVec 4) : List Sym := [h.extractLsb' 2 2, h.extractLsb' 0 2]

/-- The hexadecimal digits of a value, the most significant first. -/
def hexDigits {w : Nat} (v : BitVec w) : List (BitVec 4) :=
  (List.range (w / 4)).map fun i => v.extractLsb' (4 * (w / 4 - 1 - i)) 4

/-- The input words of a directive. -/
def Directive.expand (c : Cfg) : Directive → List Presented
  | .reset => [.pins 1 0]
  | .sym d => [symWord d]
  | .syms ds => ds.map symWord
  | .symhex digits => (digits.flatMap digitSyms).map symWord
  | .clear => [.pins 0 0b1000]
  | .idle n => List.replicate n (.pins 0 0b0000)
  | .sync => ((hexDigits c.fsPattern).flatMap digitSyms).map symWord
  | .nid w => ((hexDigits w).flatMap digitSyms).map symWord
  | .bits pairs => pairs.map fun p => symWord (BitVec.ofBool p.1 ++ BitVec.ofBool p.2)
  | .zeros n => List.replicate n (symWord 0)

/-- `w` is a word the pseudo-directive `nid N T` may stand for (R92). -/
def IsNidWord (c : Cfg) (nac : BitVec 12) (duid : BitVec 4) (w : BitVec 64) : Prop :=
  ∃ par cw, c.nidDecode w = .ok nac duid par cw 0

/-- A stimulus file as input words. -/
def stimulus (c : Cfg) (ds : List Directive) : List Presented := ds.flatMap (Directive.expand c)

end Sys2Proof.Machine
end

