-- ==== Sys2Proof/Laws/Decode.lean ====
section
/-! SUPPORT. What the decoder reads back and which row of the opcode table a word selects. -/

namespace Sys2Proof.Machine

open Sys2Proof

/-- A fixed-width operand read back from its bits. -/
theorem operand_toBits (sel : BitVec 4) {w : Nat} (v : BitVec w) : operand sel w (Bits.toBits v) = .ok v := by
  rw [operand, if_pos ((Bits.hasLength_iff _ _).mpr (Bits.toBits_length v)), Bits.ofBits_toBits]

/-- A hexbit vector read back from its bits. -/
theorem hexVecOperand_encode (sel : BitVec 4) (hb : HexVec) :
    hexVecOperand sel (hb.toList.flatMap Bits.toBits) = .ok hb := by
  have hl : (hb.toList.flatMap Bits.toBits).length = 378 := by
    rw [Bits.flatMap_length _ 6 _ (fun _ => Bits.toBits_length _), Vector.length_toList]
  rw [hexVecOperand, if_pos ((Bits.hasLength_iff _ _).mpr hl)]
  have : (Vector.ofFn fun j : Fin 63 => Bits.ofBits 6 (((hb.toList.flatMap Bits.toBits).drop (6 * j.val)).take 6)) = hb := by
    apply Vector.ext
    intro j hj
    rw [Vector.getElem_ofFn,
        Bits.take_drop_flatMap _ 6 _ (fun _ => Bits.toBits_length _) j (by rw [Vector.length_toList]; exact hj),
        Bits.ofBits_toBits]
    exact Vector.getElem_toList ..
  rw [this]

/-- The first byte of a bit string. -/
theorem bytesOfBits_append (b : Byte) (l : List Bool) : bytesOfBits (Bits.toBits b ++ l) = b :: bytesOfBits l := by
  have : bytesOfBits (Bits.toBits b ++ l) = Bits.ofBits 8 (Bits.toBits b) :: bytesOfBits l := rfl
  rw [this, Bits.ofBits_toBits]

/-- A byte buffer read back from its bits. -/
theorem bytesOfBits_bytesBits (bs : List Byte) : bytesOfBits (Bits.bytesBits bs) = bs := by
  induction bs with
  | nil => rfl
  | cons b bs ih => rw [Bits.bytesBits_cons, bytesOfBits_append, ih]

/-- The 86 bits of the voice fields. -/
theorem fieldBits_eq (u : VoiceFields) :
    fieldBits u = Bits.toBits (u.u0 ++ u.u1 ++ u.u2 ++ u.u3 ++ u.u4 ++ u.u5 ++ u.u6 ++ u.u7) := by
  simp only [fieldBits, Bits.toBits_append]

/-- The voice fields read back from their 86 bits. -/
theorem fieldsOf_append (u : VoiceFields) :
    fieldsOf (u.u0 ++ u.u1 ++ u.u2 ++ u.u3 ++ u.u4 ++ u.u5 ++ u.u6 ++ u.u7) = u := by
  obtain ⟨u0, u1, u2, u3, u4, u5, u6, u7⟩ := u
  simp only [fieldsOf]
  congr
  · iterate 7 rw [Bits.extractLsb'_append_high _ _ _ _ (by decide)]
    exact Bits.extractLsb'_whole _
  · iterate 6 rw [Bits.extractLsb'_append_high _ _ _ _ (by decide)]
    rw [Bits.extractLsb'_append_low _ _ _ _ (by decide)]
    exact Bits.extractLsb'_whole _
  · iterate 5 rw [Bits.extractLsb'_append_high _ _ _ _ (by decide)]
    rw [Bits.extractLsb'_append_low _ _ _ _ (by decide)]
    exact Bits.extractLsb'_whole _
  · iterate 4 rw [Bits.extractLsb'_append_high _ _ _ _ (by decide)]
    rw [Bits.extractLsb'_append_low _ _ _ _ (by decide)]
    exact Bits.extractLsb'_whole _
  · iterate 3 rw [Bits.extractLsb'_append_high _ _ _ _ (by decide)]
    rw [Bits.extractLsb'_append_low _ _ _ _ (by decide)]
    exact Bits.extractLsb'_whole _
  · iterate 2 rw [Bits.extractLsb'_append_high _ _ _ _ (by decide)]
    rw [Bits.extractLsb'_append_low _ _ _ _ (by decide)]
    exact Bits.extractLsb'_whole _
  · rw [Bits.extractLsb'_append_high _ _ _ _ (by decide)]
    rw [Bits.extractLsb'_append_low _ _ _ _ (by decide)]
    exact Bits.extractLsb'_whole _
  · rw [Bits.extractLsb'_append_low _ _ _ _ (by decide)]
    exact Bits.extractLsb'_whole _

/-- The NAC of an information word. -/
theorem info_nac (nac : BitVec 12) (d : BitVec 4) : (nac ++ d).extractLsb' 4 12 = nac := by
  rw [Bits.extractLsb'_append_high _ _ _ _ (by decide)]; exact Bits.extractLsb'_whole _

/-- The type code of an information word. -/
theorem info_duid (nac : BitVec 12) (d : BitVec 4) : (nac ++ d).extractLsb' 0 4 = d := by
  rw [Bits.extractLsb'_append_low _ _ _ _ (by decide)]; exact Bits.extractLsb'_whole _

/-- An information word is its NAC and its type code (R75). -/
theorem info_split (w : BitVec 16) : w = w.extractLsb' 4 12 ++ w.extractLsb' 0 4 := by
  apply BitVec.eq_of_getLsbD_eq
  intro i hi
  rw [BitVec.getLsbD_append]
  split
  · next h => simp [h]
  · next h => simp [show i - 4 < 12 by omega, show 4 + (i - 4) = i by omega]

/-- The branch of the dispatch an information word selects (R170). -/
theorem decodeInfo_row (code : FrameType → BitVec 4) (nac : BitVec 12) (d : BitVec 4) : decodeInfo code (nac ++ d) =
    if nac = 0 then .discard d else match typeOfCode code d with
    | some .hdu => .hdu nac
    | some .tdu => .tdu nac
    | some .ldu1 => .ldu1 nac
    | some .tsbk => .tsbk nac
    | some .ldu2 => .ldu2 nac
    | some .pdu => .pdu nac
    | some .tdulc => .tdulc nac
    | none => .unrec nac d := by
  simp only [decodeInfo, info_nac, info_duid] <;> rfl

/-- The unrecognized type codes (R76). -/
theorem typeOfCode_none (code : FrameType → BitVec 4) (d : BitVec 4) :
    typeOfCode code d = none ↔ isRecognized code d = false := by
  unfold typeOfCode isRecognized
  split_ifs <;> simp_all

/-- The type code of a recognized type (R76). -/
theorem code_of_typeOfCode (code : FrameType → BitVec 4) (t : FrameType) (d : BitVec 4)
    (h : typeOfCode code d = some t) : code t = d := by
  unfold typeOfCode at h
  split_ifs at h with h1 h2 h3 h4 h5 h6 h7 <;> cases h <;> exact Eq.symm ‹_›

/-- A recognized type is found by its own code, since the codes are pairwise distinct (R6). -/
theorem typeOfCode_code {code : FrameType → BitVec 4} (hd : ∀ t t', code t = code t' → t = t') (t : FrameType) :
    typeOfCode code (code t) = some t := by
  cases h : typeOfCode code (code t) with
  | some t' => rw [hd _ _ (code_of_typeOfCode code t' _ h)]
  | none =>
    rw [typeOfCode_none] at h
    cases t <;> simp [isRecognized] at h

/-- The default type codes are pairwise distinct (R76). -/
theorem code_distinct : ∀ t t' : FrameType, FrameType.code t = FrameType.code t' → t = t' := by
  intro t t'; cases t <;> cases t' <;> decide

/-- A segment offset read back from its bits. -/
theorem toNatBE_indexBits (n : Nat) : Bits.toNatBE (indexBits n) = n := by
  rw [indexBits, Bits.toNatBE_natBits]
  exact Nat.mod_eq_of_lt Nat.lt_log2_self

/-- Which rows of format NID an information word with the given type code selects; `z` says that its NAC is 0. -/
def selInfo (z : Bool) (d : BitVec 4) (r : Row) : Bool :=
  r.format == .nid && (if r.mask == 0xF then d.toNat == r.pattern else z)

/-- The rows an information word selects. -/
theorem selects_info (code : FrameType → BitVec 4) (nac : BitVec 12) (d : BitVec 4) (p : Presented)
    (hp : tableWord p = (.nid, (nac ++ d).toNat)) :
    ∀ r ∈ rowsOf code .nid, r.selects p = selInfo (nac == 0) d r := by
  intro r hr
  have hm : ∀ r ∈ rowsOf code .nid, r.format = .nid → r.mask = 0xF ∨ (r.mask = 0xFFF0 ∧ r.pattern = 0) := by
    intro r hr _
    simp only [rowsOf, List.mem_append, List.mem_map, List.mem_cons, List.not_mem_nil, or_false] at hr
    rcases hr with (rfl | rfl | rfl | rfl | rfl | rfl | rfl | rfl) | ⟨d, -, rfl⟩ <;> simp
  unfold Row.selects selInfo
  rw [hp]
  by_cases hf : r.format = .nid
  · have hx : (nac ++ d).toNat = nac.toNat * 16 + d.toNat := by
      rw [BitVec.toNat_append, Nat.shiftLeft_eq, Nat.or_comm]
      rw [Nat.or_comm, ← Nat.shiftLeft_eq, Nat.shiftLeft_add_eq_or_of_lt d.isLt]
    have hd := d.isLt
    have hn := nac.isLt
    rcases hm r hr hf with h | ⟨h, h'⟩
    · have : (nac ++ d).toNat &&& 15 = d.toNat := by
        rw [show (15 : Nat) = 2 ^ 4 - 1 by rfl, Nat.and_two_pow_sub_one_eq_mod, hx]; omega
      simp [hf, h, this]
    · have : (nac ++ d).toNat &&& 65520 = 16 * nac.toNat := by
        have e : (65520 : Nat) = (2 ^ 12 - 1) <<< 4 := by rfl
        apply Nat.eq_of_testBit_eq
        intro i
        rw [Nat.testBit_and, e, Nat.testBit_shiftLeft, Nat.testBit_two_pow_sub_one,
            show 16 * nac.toNat = nac.toNat <<< 4 by rw [Nat.shiftLeft_eq]; omega, Nat.testBit_shiftLeft,
            BitVec.toNat_append, Nat.testBit_or, Nat.testBit_shiftLeft]
        by_cases h4 : i ≥ 4
        · have : d.toNat.testBit i = false := Nat.testBit_lt_two_pow (lt_of_lt_of_le hd (Nat.pow_le_pow_right (by decide) h4))
          simp [h4, this]
          intro hb
          by_contra hlt
          have := Nat.testBit_lt_two_pow (lt_of_lt_of_le hn (Nat.pow_le_pow_right (by decide) (show 12 ≤ i - 4 by omega)))
          rw [this] at hb; cases hb
        · simp [h4]
      have e2 : (16 * nac.toNat = 0) ↔ nac = 0 := by rw [← BitVec.toNat_inj]; simp
      simp only [hf, h, h', this]
      have e3 : (16 * nac.toNat == 0) = (nac == 0) := by rw [Bool.eq_iff_iff]; simpa using e2
      rw [e3]; simp
  · have : (r.format == Format.nid) = false := by simpa using hf
    rw [this]; rfl

/-- One row of a recognized type in the search: the type code decides. -/
theorem find_code (m : String) (d e : BitVec 4) (rows : List Row) :
    ((⟨m, .nid, e.toNat, 0xF⟩ :: rows : List Row).find? (selInfo false d)).map Row.mnemonic =
      if d = e then some m else (rows.find? (selInfo false d)).map Row.mnemonic := by
  rw [List.find?_cons]
  have : selInfo false d ⟨m, .nid, e.toNat, 0xF⟩ = decide (d = e) := by
    rw [Bool.eq_iff_iff]; simp [selInfo, BitVec.toNat_inj]
  rw [this]
  by_cases h : d = e
  · rw [decide_eq_true h, if_pos h] <;> rfl
  · rw [decide_eq_false h, if_neg h]

/-- The rows of UNREC in the search: any code that is none of the seven finds its own. -/
theorem find_unrec (code : FrameType → BitVec 4) (d : BitVec 4) (h : isRecognized code d = false) :
    ((((List.range 16).filter fun e => !isRecognized code (BitVec.ofNat 4 e)).map fun e =>
      (⟨"UNREC", .nid, e, 0xF⟩ : Row)).find? (selInfo false d)).map Row.mnemonic = some "UNREC" := by
  cases hf : (((List.range 16).filter fun e => !isRecognized code (BitVec.ofNat 4 e)).map fun e =>
      (⟨"UNREC", .nid, e, 0xF⟩ : Row)).find? (selInfo false d) with
  | some r =>
    obtain ⟨e, -, rfl⟩ := List.mem_map.mp (List.mem_of_find?_eq_some hf)
    rfl
  | none =>
    have := List.find?_eq_none.mp hf ⟨"UNREC", .nid, d.toNat, 0xF⟩
      (List.mem_map.mpr ⟨d.toNat, List.mem_filter.mpr ⟨List.mem_range.mpr d.isLt, by simp [h]⟩, rfl⟩)
    simp [selInfo] at this

/-- The first row an information word selects. -/
theorem find_info (code : FrameType → BitVec 4) (z : Bool) (d : BitVec 4) :
    ((rowsOf code .nid).find? (selInfo z d)).map Row.mnemonic =
   some (if z then "DISCARD" else match typeOfCode code d with
    | some .hdu => "HDU"
    | some .tdu => "TDU"
    | some .ldu1 => "LDU1"
    | some .tsbk => "TSBK"
    | some .ldu2 => "LDU2"
    | some .pdu => "PDU"
    | some .tdulc => "TDULC"
    | none => "UNREC") := by
  cases z with
  | true => rfl
  | false =>
    have h0 : selInfo false d ⟨"DISCARD", .nid, 0x0000, 0xFFF0⟩ = false := rfl
    rw [rowsOf, List.cons_append, List.find?_cons, h0]
    simp only [List.cons_append, List.nil_append, find_code, Bool.false_eq_true, if_false]
    cases h : typeOfCode code d with
    | none =>
      have hr := (typeOfCode_none code d).mp h
      rw [find_unrec code d hr]
      unfold typeOfCode at h
      split_ifs at h ⊢ <;> rfl
    | some t =>
      unfold typeOfCode at h
      split_ifs at h ⊢ <;> cases h <;> rfl

/-- The row of a word of format NID, by its NAC and its type code, under the codes it is read under. -/
theorem tableMnemonic_nid (p : Presented) (nac : BitVec 12) (d : BitVec 4)
    (hp : tableWord p = (.nid, (nac ++ d).toNat)) :
    tableMnemonic p = some (if nac == 0 then "DISCARD" else match typeOfCode (codesOf p) d with
      | some .hdu => "HDU"
      | some .tdu => "TDU"
      | some .ldu1 => "LDU1"
      | some .tsbk => "TSBK"
      | some .ldu2 => "LDU2"
      | some .pdu => "PDU"
      | some .tdulc => "TDULC"
      | none => "UNREC") := by
  unfold tableMnemonic
  rw [show (tableWord p).1 = .nid by rw [hp]]
  rw [List.find?_congr (selects_info (codesOf p) nac d p hp)]
  exact find_info (codesOf p) (nac == 0) d

/-- The operand bits play no part in selecting a unit row. -/
theorem selects_unit (sel : BitVec 4) (bits : List Bool) :
    tableMnemonic (.unit sel bits) = tableMnemonic (.unit sel []) := rfl

end Sys2Proof.Machine
end

