-- ==== Sys2Proof/Laws/State.lean ====
section
/-! SUPPORT. One lemma for each field of State and each update of it, true by rfl: no later proof unfolds a record
update. -/

namespace Sys2Proof.Machine

open Sys2Proof

/-- Two states that agree in every field are equal. -/
theorem State.eq_of_fields {s t : State} (h1 : s.win = t.win) (h2 : s.phase = t.phase) (h3 : s.nidCnt = t.nidCnt)
    (h4 : s.nidAcc = t.nidAcc) (h5 : s.bodyLen = t.bodyLen) (h6 : s.cursor = t.cursor) (h7 : s.body = t.body)
    (h8 : s.nac = t.nac) (h9 : s.duid = t.duid) (h10 : s.par = t.par) (h11 : s.nidCw = t.nidCw)
    (h12 : s.nidNerr = t.nidNerr) (h13 : s.symbols = t.symbols) (h14 : s.syncs = t.syncs)
    (h15 : s.goodNids = t.goodNids) (h16 : s.badNids = t.badNids) (h17 : s.statDiv = t.statDiv) (h18 : s.ess = t.ess)
    (h19 : s.frameDone = t.frameDone) (h20 : s.events = t.events) (h21 : s.unitOut = t.unitOut)
    (h22 : s.input = t.input) : s = t := by
  cases s; cases t; simp_all

/-! ### beginStep -/

@[simp] theorem beginStep_win (s : State) : s.beginStep.win = s.win := rfl
@[simp] theorem beginStep_phase (s : State) : s.beginStep.phase = s.phase := rfl
@[simp] theorem beginStep_nidCnt (s : State) : s.beginStep.nidCnt = s.nidCnt := rfl
@[simp] theorem beginStep_nidAcc (s : State) : s.beginStep.nidAcc = s.nidAcc := rfl
@[simp] theorem beginStep_bodyLen (s : State) : s.beginStep.bodyLen = s.bodyLen := rfl
@[simp] theorem beginStep_cursor (s : State) : s.beginStep.cursor = s.cursor := rfl
@[simp] theorem beginStep_body (s : State) : s.beginStep.body = s.body := rfl
@[simp] theorem beginStep_nac (s : State) : s.beginStep.nac = s.nac := rfl
@[simp] theorem beginStep_duid (s : State) : s.beginStep.duid = s.duid := rfl
@[simp] theorem beginStep_par (s : State) : s.beginStep.par = s.par := rfl
@[simp] theorem beginStep_nidCw (s : State) : s.beginStep.nidCw = s.nidCw := rfl
@[simp] theorem beginStep_nidNerr (s : State) : s.beginStep.nidNerr = s.nidNerr := rfl
@[simp] theorem beginStep_symbols (s : State) : s.beginStep.symbols = s.symbols := rfl
@[simp] theorem beginStep_syncs (s : State) : s.beginStep.syncs = s.syncs := rfl
@[simp] theorem beginStep_goodNids (s : State) : s.beginStep.goodNids = s.goodNids := rfl
@[simp] theorem beginStep_badNids (s : State) : s.beginStep.badNids = s.badNids := rfl
@[simp] theorem beginStep_statDiv (s : State) : s.beginStep.statDiv = s.statDiv := rfl
@[simp] theorem beginStep_ess (s : State) : s.beginStep.ess = s.ess := rfl
@[simp] theorem beginStep_frameDone (s : State) : s.beginStep.frameDone = false := rfl
@[simp] theorem beginStep_events (s : State) : s.beginStep.events = [] := rfl
@[simp] theorem beginStep_unitOut (s : State) : s.beginStep.unitOut = none := rfl
@[simp] theorem beginStep_input (s : State) : s.beginStep.input = s.input := rfl

/-! ### quiet -/

@[simp] theorem quiet_win (s : State) : s.quiet.win = s.win := rfl
@[simp] theorem quiet_phase (s : State) : s.quiet.phase = s.phase := rfl
@[simp] theorem quiet_nidCnt (s : State) : s.quiet.nidCnt = s.nidCnt := rfl
@[simp] theorem quiet_nidAcc (s : State) : s.quiet.nidAcc = s.nidAcc := rfl
@[simp] theorem quiet_bodyLen (s : State) : s.quiet.bodyLen = s.bodyLen := rfl
@[simp] theorem quiet_cursor (s : State) : s.quiet.cursor = s.cursor := rfl
@[simp] theorem quiet_body (s : State) : s.quiet.body = s.body := rfl
@[simp] theorem quiet_nac (s : State) : s.quiet.nac = s.nac := rfl
@[simp] theorem quiet_duid (s : State) : s.quiet.duid = s.duid := rfl
@[simp] theorem quiet_par (s : State) : s.quiet.par = s.par := rfl
@[simp] theorem quiet_nidCw (s : State) : s.quiet.nidCw = s.nidCw := rfl
@[simp] theorem quiet_nidNerr (s : State) : s.quiet.nidNerr = s.nidNerr := rfl
@[simp] theorem quiet_symbols (s : State) : s.quiet.symbols = s.symbols := rfl
@[simp] theorem quiet_syncs (s : State) : s.quiet.syncs = s.syncs := rfl
@[simp] theorem quiet_goodNids (s : State) : s.quiet.goodNids = s.goodNids := rfl
@[simp] theorem quiet_badNids (s : State) : s.quiet.badNids = s.badNids := rfl
@[simp] theorem quiet_statDiv (s : State) : s.quiet.statDiv = s.statDiv := rfl
@[simp] theorem quiet_ess (s : State) : s.quiet.ess = s.ess := rfl
@[simp] theorem quiet_frameDone (s : State) : s.quiet.frameDone = false := rfl
@[simp] theorem quiet_events (s : State) : s.quiet.events = [] := rfl
@[simp] theorem quiet_unitOut (s : State) : s.quiet.unitOut = none := rfl
@[simp] theorem quiet_input (s : State) : s.quiet.input = s.input := rfl

/-! ### emit -/

@[simp] theorem emit_win (s : State) (e : Event) : (s.emit e).win = s.win := rfl
@[simp] theorem emit_phase (s : State) (e : Event) : (s.emit e).phase = s.phase := rfl
@[simp] theorem emit_nidCnt (s : State) (e : Event) : (s.emit e).nidCnt = s.nidCnt := rfl
@[simp] theorem emit_nidAcc (s : State) (e : Event) : (s.emit e).nidAcc = s.nidAcc := rfl
@[simp] theorem emit_bodyLen (s : State) (e : Event) : (s.emit e).bodyLen = s.bodyLen := rfl
@[simp] theorem emit_cursor (s : State) (e : Event) : (s.emit e).cursor = s.cursor := rfl
@[simp] theorem emit_body (s : State) (e : Event) : (s.emit e).body = s.body := rfl
@[simp] theorem emit_nac (s : State) (e : Event) : (s.emit e).nac = s.nac := rfl
@[simp] theorem emit_duid (s : State) (e : Event) : (s.emit e).duid = s.duid := rfl
@[simp] theorem emit_par (s : State) (e : Event) : (s.emit e).par = s.par := rfl
@[simp] theorem emit_nidCw (s : State) (e : Event) : (s.emit e).nidCw = s.nidCw := rfl
@[simp] theorem emit_nidNerr (s : State) (e : Event) : (s.emit e).nidNerr = s.nidNerr := rfl
@[simp] theorem emit_symbols (s : State) (e : Event) : (s.emit e).symbols = s.symbols := rfl
@[simp] theorem emit_syncs (s : State) (e : Event) : (s.emit e).syncs = s.syncs := rfl
@[simp] theorem emit_goodNids (s : State) (e : Event) : (s.emit e).goodNids = s.goodNids := rfl
@[simp] theorem emit_badNids (s : State) (e : Event) : (s.emit e).badNids = s.badNids := rfl
@[simp] theorem emit_statDiv (s : State) (e : Event) : (s.emit e).statDiv = s.statDiv := rfl
@[simp] theorem emit_ess (s : State) (e : Event) : (s.emit e).ess = s.ess := rfl
@[simp] theorem emit_frameDone (s : State) (e : Event) : (s.emit e).frameDone = s.frameDone := rfl
@[simp] theorem emit_events (s : State) (e : Event) : (s.emit e).events = s.events ++ [e] := rfl
@[simp] theorem emit_unitOut (s : State) (e : Event) : (s.emit e).unitOut = s.unitOut := rfl
@[simp] theorem emit_input (s : State) (e : Event) : (s.emit e).input = s.input := rfl

/-! ### answer -/

@[simp] theorem answer_win (s : State) (r : UnitResult) : (s.answer r).win = s.win := rfl
@[simp] theorem answer_phase (s : State) (r : UnitResult) : (s.answer r).phase = s.phase := rfl
@[simp] theorem answer_nidCnt (s : State) (r : UnitResult) : (s.answer r).nidCnt = s.nidCnt := rfl
@[simp] theorem answer_nidAcc (s : State) (r : UnitResult) : (s.answer r).nidAcc = s.nidAcc := rfl
@[simp] theorem answer_bodyLen (s : State) (r : UnitResult) : (s.answer r).bodyLen = s.bodyLen := rfl
@[simp] theorem answer_cursor (s : State) (r : UnitResult) : (s.answer r).cursor = s.cursor := rfl
@[simp] theorem answer_body (s : State) (r : UnitResult) : (s.answer r).body = s.body := rfl
@[simp] theorem answer_nac (s : State) (r : UnitResult) : (s.answer r).nac = s.nac := rfl
@[simp] theorem answer_duid (s : State) (r : UnitResult) : (s.answer r).duid = s.duid := rfl
@[simp] theorem answer_par (s : State) (r : UnitResult) : (s.answer r).par = s.par := rfl
@[simp] theorem answer_nidCw (s : State) (r : UnitResult) : (s.answer r).nidCw = s.nidCw := rfl
@[simp] theorem answer_nidNerr (s : State) (r : UnitResult) : (s.answer r).nidNerr = s.nidNerr := rfl
@[simp] theorem answer_symbols (s : State) (r : UnitResult) : (s.answer r).symbols = s.symbols := rfl
@[simp] theorem answer_syncs (s : State) (r : UnitResult) : (s.answer r).syncs = s.syncs := rfl
@[simp] theorem answer_goodNids (s : State) (r : UnitResult) : (s.answer r).goodNids = s.goodNids := rfl
@[simp] theorem answer_badNids (s : State) (r : UnitResult) : (s.answer r).badNids = s.badNids := rfl
@[simp] theorem answer_statDiv (s : State) (r : UnitResult) : (s.answer r).statDiv = s.statDiv := rfl
@[simp] theorem answer_ess (s : State) (r : UnitResult) : (s.answer r).ess = s.ess := rfl
@[simp] theorem answer_frameDone (s : State) (r : UnitResult) : (s.answer r).frameDone = s.frameDone := rfl
@[simp] theorem answer_events (s : State) (r : UnitResult) : (s.answer r).events = s.events := rfl
@[simp] theorem answer_unitOut (s : State) (r : UnitResult) : (s.answer r).unitOut = some r := rfl
@[simp] theorem answer_input (s : State) (r : UnitResult) : (s.answer r).input = s.input := rfl

/-! ### clearStats -/

@[simp] theorem clearStats_win (s : State) : s.clearStats.win = s.win := rfl
@[simp] theorem clearStats_phase (s : State) : s.clearStats.phase = s.phase := rfl
@[simp] theorem clearStats_nidCnt (s : State) : s.clearStats.nidCnt = s.nidCnt := rfl
@[simp] theorem clearStats_nidAcc (s : State) : s.clearStats.nidAcc = s.nidAcc := rfl
@[simp] theorem clearStats_bodyLen (s : State) : s.clearStats.bodyLen = s.bodyLen := rfl
@[simp] theorem clearStats_cursor (s : State) : s.clearStats.cursor = s.cursor := rfl
@[simp] theorem clearStats_body (s : State) : s.clearStats.body = s.body := rfl
@[simp] theorem clearStats_nac (s : State) : s.clearStats.nac = s.nac := rfl
@[simp] theorem clearStats_duid (s : State) : s.clearStats.duid = s.duid := rfl
@[simp] theorem clearStats_par (s : State) : s.clearStats.par = s.par := rfl
@[simp] theorem clearStats_nidCw (s : State) : s.clearStats.nidCw = s.nidCw := rfl
@[simp] theorem clearStats_nidNerr (s : State) : s.clearStats.nidNerr = s.nidNerr := rfl
@[simp] theorem clearStats_symbols (s : State) : s.clearStats.symbols = 0 := rfl
@[simp] theorem clearStats_syncs (s : State) : s.clearStats.syncs = 0 := rfl
@[simp] theorem clearStats_goodNids (s : State) : s.clearStats.goodNids = 0 := rfl
@[simp] theorem clearStats_badNids (s : State) : s.clearStats.badNids = 0 := rfl
@[simp] theorem clearStats_statDiv (s : State) : s.clearStats.statDiv = s.statDiv := rfl
@[simp] theorem clearStats_ess (s : State) : s.clearStats.ess = s.ess := rfl
@[simp] theorem clearStats_frameDone (s : State) : s.clearStats.frameDone = s.frameDone := rfl
@[simp] theorem clearStats_events (s : State) : s.clearStats.events = s.events := rfl
@[simp] theorem clearStats_unitOut (s : State) : s.clearStats.unitOut = s.unitOut := rfl
@[simp] theorem clearStats_input (s : State) : s.clearStats.input = s.input := rfl

/-! ### toSearch -/

@[simp] theorem toSearch_win (s : State) : s.toSearch.win = s.win := rfl
@[simp] theorem toSearch_phase (s : State) : s.toSearch.phase = .search := rfl
@[simp] theorem toSearch_nidCnt (s : State) : s.toSearch.nidCnt = 0 := rfl
@[simp] theorem toSearch_nidAcc (s : State) : s.toSearch.nidAcc = s.nidAcc := rfl
@[simp] theorem toSearch_bodyLen (s : State) : s.toSearch.bodyLen = s.bodyLen := rfl
@[simp] theorem toSearch_cursor (s : State) : s.toSearch.cursor = s.cursor := rfl
@[simp] theorem toSearch_body (s : State) : s.toSearch.body = s.body := rfl
@[simp] theorem toSearch_nac (s : State) : s.toSearch.nac = s.nac := rfl
@[simp] theorem toSearch_duid (s : State) : s.toSearch.duid = s.duid := rfl
@[simp] theorem toSearch_par (s : State) : s.toSearch.par = s.par := rfl
@[simp] theorem toSearch_nidCw (s : State) : s.toSearch.nidCw = s.nidCw := rfl
@[simp] theorem toSearch_nidNerr (s : State) : s.toSearch.nidNerr = s.nidNerr := rfl
@[simp] theorem toSearch_symbols (s : State) : s.toSearch.symbols = s.symbols := rfl
@[simp] theorem toSearch_syncs (s : State) : s.toSearch.syncs = s.syncs := rfl
@[simp] theorem toSearch_goodNids (s : State) : s.toSearch.goodNids = s.goodNids := rfl
@[simp] theorem toSearch_badNids (s : State) : s.toSearch.badNids = s.badNids := rfl
@[simp] theorem toSearch_statDiv (s : State) : s.toSearch.statDiv = s.statDiv := rfl
@[simp] theorem toSearch_ess (s : State) : s.toSearch.ess = s.ess := rfl
@[simp] theorem toSearch_frameDone (s : State) : s.toSearch.frameDone = s.frameDone := rfl
@[simp] theorem toSearch_events (s : State) : s.toSearch.events = s.events := rfl
@[simp] theorem toSearch_unitOut (s : State) : s.toSearch.unitOut = s.unitOut := rfl
@[simp] theorem toSearch_input (s : State) : s.toSearch.input = s.input := rfl

/-! ### apply -/

@[simp] theorem apply_win (s : State) (r : ProcResult) : (s.apply r).win = s.win := rfl
@[simp] theorem apply_phase (s : State) (r : ProcResult) : (s.apply r).phase = s.phase := rfl
@[simp] theorem apply_nidCnt (s : State) (r : ProcResult) : (s.apply r).nidCnt = s.nidCnt := rfl
@[simp] theorem apply_nidAcc (s : State) (r : ProcResult) : (s.apply r).nidAcc = s.nidAcc := rfl
@[simp] theorem apply_bodyLen (s : State) (r : ProcResult) : (s.apply r).bodyLen = s.bodyLen := rfl
@[simp] theorem apply_cursor (s : State) (r : ProcResult) : (s.apply r).cursor = s.cursor := rfl
@[simp] theorem apply_body (s : State) (r : ProcResult) : (s.apply r).body = s.body := rfl
@[simp] theorem apply_nac (s : State) (r : ProcResult) : (s.apply r).nac = s.nac := rfl
@[simp] theorem apply_duid (s : State) (r : ProcResult) : (s.apply r).duid = s.duid := rfl
@[simp] theorem apply_par (s : State) (r : ProcResult) : (s.apply r).par = s.par := rfl
@[simp] theorem apply_nidCw (s : State) (r : ProcResult) : (s.apply r).nidCw = s.nidCw := rfl
@[simp] theorem apply_nidNerr (s : State) (r : ProcResult) : (s.apply r).nidNerr = s.nidNerr := rfl
@[simp] theorem apply_symbols (s : State) (r : ProcResult) : (s.apply r).symbols = s.symbols := rfl
@[simp] theorem apply_syncs (s : State) (r : ProcResult) : (s.apply r).syncs = s.syncs := rfl
@[simp] theorem apply_goodNids (s : State) (r : ProcResult) : (s.apply r).goodNids = s.goodNids := rfl
@[simp] theorem apply_badNids (s : State) (r : ProcResult) : (s.apply r).badNids = s.badNids := rfl
@[simp] theorem apply_statDiv (s : State) (r : ProcResult) : (s.apply r).statDiv = s.statDiv := rfl
@[simp] theorem apply_ess (s : State) (r : ProcResult) : (s.apply r).ess = r.ess := rfl
@[simp] theorem apply_frameDone (s : State) (r : ProcResult) : (s.apply r).frameDone = s.frameDone := rfl
@[simp] theorem apply_events (s : State) (r : ProcResult) : (s.apply r).events = s.events ++ r.events := rfl
@[simp] theorem apply_unitOut (s : State) (r : ProcResult) : (s.apply r).unitOut = s.unitOut := rfl
@[simp] theorem apply_input (s : State) (r : ProcResult) : (s.apply r).input = s.input := rfl

/-! ### count -/

@[simp] theorem count_win (s : State) : (count s).win = s.win := rfl
@[simp] theorem count_phase (s : State) : (count s).phase = s.phase := rfl
@[simp] theorem count_nidCnt (s : State) : (count s).nidCnt = s.nidCnt := rfl
@[simp] theorem count_nidAcc (s : State) : (count s).nidAcc = s.nidAcc := rfl
@[simp] theorem count_bodyLen (s : State) : (count s).bodyLen = s.bodyLen := rfl
@[simp] theorem count_cursor (s : State) : (count s).cursor = s.cursor := rfl
@[simp] theorem count_body (s : State) : (count s).body = s.body := rfl
@[simp] theorem count_nac (s : State) : (count s).nac = s.nac := rfl
@[simp] theorem count_duid (s : State) : (count s).duid = s.duid := rfl
@[simp] theorem count_par (s : State) : (count s).par = s.par := rfl
@[simp] theorem count_nidCw (s : State) : (count s).nidCw = s.nidCw := rfl
@[simp] theorem count_nidNerr (s : State) : (count s).nidNerr = s.nidNerr := rfl
@[simp] theorem count_symbols (s : State) : (count s).symbols = s.symbols + 1 := rfl
@[simp] theorem count_syncs (s : State) : (count s).syncs = s.syncs := rfl
@[simp] theorem count_goodNids (s : State) : (count s).goodNids = s.goodNids := rfl
@[simp] theorem count_badNids (s : State) : (count s).badNids = s.badNids := rfl
@[simp] theorem count_statDiv (s : State) : (count s).statDiv = s.statDiv + 1 := rfl
@[simp] theorem count_ess (s : State) : (count s).ess = s.ess := rfl
@[simp] theorem count_frameDone (s : State) : (count s).frameDone = s.frameDone := rfl
@[simp] theorem count_events (s : State) : (count s).events = s.events := rfl
@[simp] theorem count_unitOut (s : State) : (count s).unitOut = s.unitOut := rfl
@[simp] theorem count_input (s : State) : (count s).input = s.input := rfl

/-! ### shiftWindow -/

@[simp] theorem shiftWindow_win (d : Sym) (s : State) : (shiftWindow d s).win = slide s.win d := rfl
@[simp] theorem shiftWindow_phase (d : Sym) (s : State) : (shiftWindow d s).phase = s.phase := rfl
@[simp] theorem shiftWindow_nidCnt (d : Sym) (s : State) : (shiftWindow d s).nidCnt = s.nidCnt := rfl
@[simp] theorem shiftWindow_nidAcc (d : Sym) (s : State) : (shiftWindow d s).nidAcc = s.nidAcc := rfl
@[simp] theorem shiftWindow_bodyLen (d : Sym) (s : State) : (shiftWindow d s).bodyLen = s.bodyLen := rfl
@[simp] theorem shiftWindow_cursor (d : Sym) (s : State) : (shiftWindow d s).cursor = s.cursor := rfl
@[simp] theorem shiftWindow_body (d : Sym) (s : State) : (shiftWindow d s).body = s.body := rfl
@[simp] theorem shiftWindow_nac (d : Sym) (s : State) : (shiftWindow d s).nac = s.nac := rfl
@[simp] theorem shiftWindow_duid (d : Sym) (s : State) : (shiftWindow d s).duid = s.duid := rfl
@[simp] theorem shiftWindow_par (d : Sym) (s : State) : (shiftWindow d s).par = s.par := rfl
@[simp] theorem shiftWindow_nidCw (d : Sym) (s : State) : (shiftWindow d s).nidCw = s.nidCw := rfl
@[simp] theorem shiftWindow_nidNerr (d : Sym) (s : State) : (shiftWindow d s).nidNerr = s.nidNerr := rfl
@[simp] theorem shiftWindow_symbols (d : Sym) (s : State) : (shiftWindow d s).symbols = s.symbols := rfl
@[simp] theorem shiftWindow_syncs (d : Sym) (s : State) : (shiftWindow d s).syncs = s.syncs := rfl
@[simp] theorem shiftWindow_goodNids (d : Sym) (s : State) : (shiftWindow d s).goodNids = s.goodNids := rfl
@[simp] theorem shiftWindow_badNids (d : Sym) (s : State) : (shiftWindow d s).badNids = s.badNids := rfl
@[simp] theorem shiftWindow_statDiv (d : Sym) (s : State) : (shiftWindow d s).statDiv = s.statDiv := rfl
@[simp] theorem shiftWindow_ess (d : Sym) (s : State) : (shiftWindow d s).ess = s.ess := rfl
@[simp] theorem shiftWindow_frameDone (d : Sym) (s : State) : (shiftWindow d s).frameDone = s.frameDone := rfl
@[simp] theorem shiftWindow_events (d : Sym) (s : State) : (shiftWindow d s).events = s.events := rfl
@[simp] theorem shiftWindow_unitOut (d : Sym) (s : State) : (shiftWindow d s).unitOut = s.unitOut := rfl
@[simp] theorem shiftWindow_input (d : Sym) (s : State) : (shiftWindow d s).input = s.input := rfl

/-! ### accumulate -/

@[simp] theorem accumulate_win (d : Sym) (s : State) : (accumulate d s).win = s.win := rfl
@[simp] theorem accumulate_phase (d : Sym) (s : State) : (accumulate d s).phase = s.phase := rfl
@[simp] theorem accumulate_nidCnt (d : Sym) (s : State) : (accumulate d s).nidCnt = s.nidCnt + 1 := rfl
@[simp] theorem accumulate_nidAcc (d : Sym) (s : State) : (accumulate d s).nidAcc = slideNid s.nidAcc d := rfl
@[simp] theorem accumulate_bodyLen (d : Sym) (s : State) : (accumulate d s).bodyLen = s.bodyLen := rfl
@[simp] theorem accumulate_cursor (d : Sym) (s : State) : (accumulate d s).cursor = s.cursor := rfl
@[simp] theorem accumulate_body (d : Sym) (s : State) : (accumulate d s).body = s.body := rfl
@[simp] theorem accumulate_nac (d : Sym) (s : State) : (accumulate d s).nac = s.nac := rfl
@[simp] theorem accumulate_duid (d : Sym) (s : State) : (accumulate d s).duid = s.duid := rfl
@[simp] theorem accumulate_par (d : Sym) (s : State) : (accumulate d s).par = s.par := rfl
@[simp] theorem accumulate_nidCw (d : Sym) (s : State) : (accumulate d s).nidCw = s.nidCw := rfl
@[simp] theorem accumulate_nidNerr (d : Sym) (s : State) : (accumulate d s).nidNerr = s.nidNerr := rfl
@[simp] theorem accumulate_symbols (d : Sym) (s : State) : (accumulate d s).symbols = s.symbols := rfl
@[simp] theorem accumulate_syncs (d : Sym) (s : State) : (accumulate d s).syncs = s.syncs := rfl
@[simp] theorem accumulate_goodNids (d : Sym) (s : State) : (accumulate d s).goodNids = s.goodNids := rfl
@[simp] theorem accumulate_badNids (d : Sym) (s : State) : (accumulate d s).badNids = s.badNids := rfl
@[simp] theorem accumulate_statDiv (d : Sym) (s : State) : (accumulate d s).statDiv = s.statDiv := rfl
@[simp] theorem accumulate_ess (d : Sym) (s : State) : (accumulate d s).ess = s.ess := rfl
@[simp] theorem accumulate_frameDone (d : Sym) (s : State) : (accumulate d s).frameDone = s.frameDone := rfl
@[simp] theorem accumulate_events (d : Sym) (s : State) : (accumulate d s).events = s.events := rfl
@[simp] theorem accumulate_unitOut (d : Sym) (s : State) : (accumulate d s).unitOut = s.unitOut := rfl
@[simp] theorem accumulate_input (d : Sym) (s : State) : (accumulate d s).input = s.input := rfl

/-! ### rejectNid -/

@[simp] theorem rejectNid_win (s : State) : (rejectNid s).win = s.win := rfl
@[simp] theorem rejectNid_phase (s : State) : (rejectNid s).phase = .search := rfl
@[simp] theorem rejectNid_nidCnt (s : State) : (rejectNid s).nidCnt = 0 := rfl
@[simp] theorem rejectNid_nidAcc (s : State) : (rejectNid s).nidAcc = s.nidAcc := rfl
@[simp] theorem rejectNid_bodyLen (s : State) : (rejectNid s).bodyLen = s.bodyLen := rfl
@[simp] theorem rejectNid_cursor (s : State) : (rejectNid s).cursor = s.cursor := rfl
@[simp] theorem rejectNid_body (s : State) : (rejectNid s).body = s.body := rfl
@[simp] theorem rejectNid_nac (s : State) : (rejectNid s).nac = 0 := rfl
@[simp] theorem rejectNid_duid (s : State) : (rejectNid s).duid = s.duid := rfl
@[simp] theorem rejectNid_par (s : State) : (rejectNid s).par = s.par := rfl
@[simp] theorem rejectNid_nidCw (s : State) : (rejectNid s).nidCw = s.nidCw := rfl
@[simp] theorem rejectNid_nidNerr (s : State) : (rejectNid s).nidNerr = s.nidNerr := rfl
@[simp] theorem rejectNid_symbols (s : State) : (rejectNid s).symbols = s.symbols := rfl
@[simp] theorem rejectNid_syncs (s : State) : (rejectNid s).syncs = s.syncs := rfl
@[simp] theorem rejectNid_goodNids (s : State) : (rejectNid s).goodNids = s.goodNids := rfl
@[simp] theorem rejectNid_badNids (s : State) : (rejectNid s).badNids = s.badNids + 1 := rfl
@[simp] theorem rejectNid_statDiv (s : State) : (rejectNid s).statDiv = s.statDiv := rfl
@[simp] theorem rejectNid_ess (s : State) : (rejectNid s).ess = s.ess := rfl
@[simp] theorem rejectNid_frameDone (s : State) : (rejectNid s).frameDone = s.frameDone := rfl
@[simp] theorem rejectNid_events (s : State) : (rejectNid s).events = s.events := rfl
@[simp] theorem rejectNid_unitOut (s : State) : (rejectNid s).unitOut = s.unitOut := rfl
@[simp] theorem rejectNid_input (s : State) : (rejectNid s).input = s.input := rfl

/-! ### takeInput -/

@[simp] theorem takeInput_win (s : State) : s.takeInput.win = s.win := rfl
@[simp] theorem takeInput_phase (s : State) : s.takeInput.phase = s.phase := rfl
@[simp] theorem takeInput_nidCnt (s : State) : s.takeInput.nidCnt = s.nidCnt := rfl
@[simp] theorem takeInput_nidAcc (s : State) : s.takeInput.nidAcc = s.nidAcc := rfl
@[simp] theorem takeInput_bodyLen (s : State) : s.takeInput.bodyLen = s.bodyLen := rfl
@[simp] theorem takeInput_cursor (s : State) : s.takeInput.cursor = s.cursor := rfl
@[simp] theorem takeInput_body (s : State) : s.takeInput.body = s.body := rfl
@[simp] theorem takeInput_nac (s : State) : s.takeInput.nac = s.nac := rfl
@[simp] theorem takeInput_duid (s : State) : s.takeInput.duid = s.duid := rfl
@[simp] theorem takeInput_par (s : State) : s.takeInput.par = s.par := rfl
@[simp] theorem takeInput_nidCw (s : State) : s.takeInput.nidCw = s.nidCw := rfl
@[simp] theorem takeInput_nidNerr (s : State) : s.takeInput.nidNerr = s.nidNerr := rfl
@[simp] theorem takeInput_symbols (s : State) : s.takeInput.symbols = s.symbols := rfl
@[simp] theorem takeInput_syncs (s : State) : s.takeInput.syncs = s.syncs := rfl
@[simp] theorem takeInput_goodNids (s : State) : s.takeInput.goodNids = s.goodNids := rfl
@[simp] theorem takeInput_badNids (s : State) : s.takeInput.badNids = s.badNids := rfl
@[simp] theorem takeInput_statDiv (s : State) : s.takeInput.statDiv = s.statDiv := rfl
@[simp] theorem takeInput_ess (s : State) : s.takeInput.ess = s.ess := rfl
@[simp] theorem takeInput_frameDone (s : State) : s.takeInput.frameDone = s.frameDone := rfl
@[simp] theorem takeInput_events (s : State) : s.takeInput.events = s.events := rfl
@[simp] theorem takeInput_unitOut (s : State) : s.takeInput.unitOut = s.unitOut := rfl
@[simp] theorem takeInput_input (s : State) : s.takeInput.input = s.input.tail := rfl

/-! ### withFetchWord -/

@[simp] theorem withFetchWord_win (s : State) (nbits w : Nat) : (s.withFetchWord nbits w).win = s.win := rfl
@[simp] theorem withFetchWord_phase (s : State) (nbits w : Nat) : (s.withFetchWord nbits w).phase = s.phase := rfl
@[simp] theorem withFetchWord_nidCnt (s : State) (nbits w : Nat) : (s.withFetchWord nbits w).nidCnt = s.nidCnt := rfl
@[simp] theorem withFetchWord_nidAcc (s : State) (nbits w : Nat) : (s.withFetchWord nbits w).nidAcc = s.nidAcc := rfl
@[simp] theorem withFetchWord_bodyLen (s : State) (nbits w : Nat) :
    (s.withFetchWord nbits w).bodyLen = s.bodyLen := rfl
@[simp] theorem withFetchWord_cursor (s : State) (nbits w : Nat) : (s.withFetchWord nbits w).cursor = s.cursor := rfl
@[simp] theorem withFetchWord_body (s : State) (nbits w : Nat) : (s.withFetchWord nbits w).body = s.body := rfl
@[simp] theorem withFetchWord_nac (s : State) (nbits w : Nat) : (s.withFetchWord nbits w).nac = s.nac := rfl
@[simp] theorem withFetchWord_duid (s : State) (nbits w : Nat) : (s.withFetchWord nbits w).duid = s.duid := rfl
@[simp] theorem withFetchWord_par (s : State) (nbits w : Nat) : (s.withFetchWord nbits w).par = s.par := rfl
@[simp] theorem withFetchWord_nidCw (s : State) (nbits w : Nat) : (s.withFetchWord nbits w).nidCw = s.nidCw := rfl
@[simp] theorem withFetchWord_nidNerr (s : State) (nbits w : Nat) :
    (s.withFetchWord nbits w).nidNerr = s.nidNerr := rfl
@[simp] theorem withFetchWord_symbols (s : State) (nbits w : Nat) :
    (s.withFetchWord nbits w).symbols = s.symbols := rfl
@[simp] theorem withFetchWord_syncs (s : State) (nbits w : Nat) : (s.withFetchWord nbits w).syncs = s.syncs := rfl
@[simp] theorem withFetchWord_goodNids (s : State) (nbits w : Nat) :
    (s.withFetchWord nbits w).goodNids = s.goodNids := rfl
@[simp] theorem withFetchWord_badNids (s : State) (nbits w : Nat) :
    (s.withFetchWord nbits w).badNids = s.badNids := rfl
@[simp] theorem withFetchWord_statDiv (s : State) (nbits w : Nat) :
    (s.withFetchWord nbits w).statDiv = s.statDiv := rfl
@[simp] theorem withFetchWord_ess (s : State) (nbits w : Nat) : (s.withFetchWord nbits w).ess = s.ess := rfl
@[simp] theorem withFetchWord_frameDone (s : State) (nbits w : Nat) :
    (s.withFetchWord nbits w).frameDone = s.frameDone := rfl
@[simp] theorem withFetchWord_events (s : State) (nbits w : Nat) : (s.withFetchWord nbits w).events = s.events := rfl
@[simp] theorem withFetchWord_unitOut (s : State) (nbits w : Nat) :
    (s.withFetchWord nbits w).unitOut = s.unitOut := rfl
@[simp] theorem withFetchWord_input (s : State) (nbits w : Nat) :
    (s.withFetchWord nbits w).input = presentTableWord nbits w :: s.input := rfl

/-! ### loadFrame -/

@[simp] theorem loadFrame_win (c : Cfg) (nac : BitVec 12) (duid : BitVec 4) (par : BitVec 1) (cw : BitVec 64) (nerr : Nat) (s : State) :
    (loadFrame c nac duid par cw nerr s).win = s.win := rfl
@[simp] theorem loadFrame_phase (c : Cfg) (nac : BitVec 12) (duid : BitVec 4) (par : BitVec 1) (cw : BitVec 64) (nerr : Nat) (s : State) :
    (loadFrame c nac duid par cw nerr s).phase = s.phase := rfl
@[simp] theorem loadFrame_nidCnt (c : Cfg) (nac : BitVec 12) (duid : BitVec 4) (par : BitVec 1) (cw : BitVec 64) (nerr : Nat) (s : State) :
    (loadFrame c nac duid par cw nerr s).nidCnt = 0 := rfl
@[simp] theorem loadFrame_nidAcc (c : Cfg) (nac : BitVec 12) (duid : BitVec 4) (par : BitVec 1) (cw : BitVec 64) (nerr : Nat) (s : State) :
    (loadFrame c nac duid par cw nerr s).nidAcc = s.nidAcc := rfl
@[simp] theorem loadFrame_bodyLen (c : Cfg) (nac : BitVec 12) (duid : BitVec 4) (par : BitVec 1) (cw : BitVec 64) (nerr : Nat) (s : State) :
    (loadFrame c nac duid par cw nerr s).bodyLen = bodyLenOf c duid := rfl
@[simp] theorem loadFrame_cursor (c : Cfg) (nac : BitVec 12) (duid : BitVec 4) (par : BitVec 1) (cw : BitVec 64) (nerr : Nat) (s : State) :
    (loadFrame c nac duid par cw nerr s).cursor = 0 := rfl
@[simp] theorem loadFrame_body (c : Cfg) (nac : BitVec 12) (duid : BitVec 4) (par : BitVec 1) (cw : BitVec 64) (nerr : Nat) (s : State) :
    (loadFrame c nac duid par cw nerr s).body = s.body := rfl
@[simp] theorem loadFrame_nac (c : Cfg) (nac : BitVec 12) (duid : BitVec 4) (par : BitVec 1) (cw : BitVec 64) (nerr : Nat) (s : State) :
    (loadFrame c nac duid par cw nerr s).nac = nac := rfl
@[simp] theorem loadFrame_duid (c : Cfg) (nac : BitVec 12) (duid : BitVec 4) (par : BitVec 1) (cw : BitVec 64) (nerr : Nat) (s : State) :
    (loadFrame c nac duid par cw nerr s).duid = duid := rfl
@[simp] theorem loadFrame_par (c : Cfg) (nac : BitVec 12) (duid : BitVec 4) (par : BitVec 1) (cw : BitVec 64) (nerr : Nat) (s : State) :
    (loadFrame c nac duid par cw nerr s).par = par := rfl
@[simp] theorem loadFrame_nidCw (c : Cfg) (nac : BitVec 12) (duid : BitVec 4) (par : BitVec 1) (cw : BitVec 64) (nerr : Nat) (s : State) :
    (loadFrame c nac duid par cw nerr s).nidCw = cw := rfl
@[simp] theorem loadFrame_nidNerr (c : Cfg) (nac : BitVec 12) (duid : BitVec 4) (par : BitVec 1) (cw : BitVec 64) (nerr : Nat) (s : State) :
    (loadFrame c nac duid par cw nerr s).nidNerr = BitVec.ofNat 7 nerr := rfl
@[simp] theorem loadFrame_symbols (c : Cfg) (nac : BitVec 12) (duid : BitVec 4) (par : BitVec 1) (cw : BitVec 64) (nerr : Nat) (s : State) :
    (loadFrame c nac duid par cw nerr s).symbols = s.symbols := rfl
@[simp] theorem loadFrame_syncs (c : Cfg) (nac : BitVec 12) (duid : BitVec 4) (par : BitVec 1) (cw : BitVec 64) (nerr : Nat) (s : State) :
    (loadFrame c nac duid par cw nerr s).syncs = s.syncs := rfl
@[simp] theorem loadFrame_goodNids (c : Cfg) (nac : BitVec 12) (duid : BitVec 4) (par : BitVec 1) (cw : BitVec 64) (nerr : Nat) (s : State) :
    (loadFrame c nac duid par cw nerr s).goodNids = s.goodNids + 1 := rfl
@[simp] theorem loadFrame_badNids (c : Cfg) (nac : BitVec 12) (duid : BitVec 4) (par : BitVec 1) (cw : BitVec 64) (nerr : Nat) (s : State) :
    (loadFrame c nac duid par cw nerr s).badNids = s.badNids := rfl
@[simp] theorem loadFrame_statDiv (c : Cfg) (nac : BitVec 12) (duid : BitVec 4) (par : BitVec 1) (cw : BitVec 64) (nerr : Nat) (s : State) :
    (loadFrame c nac duid par cw nerr s).statDiv = s.statDiv := rfl
@[simp] theorem loadFrame_ess (c : Cfg) (nac : BitVec 12) (duid : BitVec 4) (par : BitVec 1) (cw : BitVec 64) (nerr : Nat) (s : State) :
    (loadFrame c nac duid par cw nerr s).ess = s.ess := rfl
@[simp] theorem loadFrame_frameDone (c : Cfg) (nac : BitVec 12) (duid : BitVec 4) (par : BitVec 1) (cw : BitVec 64) (nerr : Nat) (s : State) :
    (loadFrame c nac duid par cw nerr s).frameDone = s.frameDone := rfl
@[simp] theorem loadFrame_events (c : Cfg) (nac : BitVec 12) (duid : BitVec 4) (par : BitVec 1) (cw : BitVec 64) (nerr : Nat) (s : State) :
    (loadFrame c nac duid par cw nerr s).events = s.events := rfl
@[simp] theorem loadFrame_unitOut (c : Cfg) (nac : BitVec 12) (duid : BitVec 4) (par : BitVec 1) (cw : BitVec 64) (nerr : Nat) (s : State) :
    (loadFrame c nac duid par cw nerr s).unitOut = s.unitOut := rfl
@[simp] theorem loadFrame_input (c : Cfg) (nac : BitVec 12) (duid : BitVec 4) (par : BitVec 1) (cw : BitVec 64) (nerr : Nat) (s : State) :
    (loadFrame c nac duid par cw nerr s).input = s.input := rfl

end Sys2Proof.Machine
end

