-- ==== Sys2Proof/Laws/Memory.lean ====
section
/-! SUPPORT. The laws of the body buffer: read after write, the canonical form and the extent kept by every write, equal
memories equal data, and the bit-by-bit meaning of the wider accesses. -/

namespace Sys2Proof.Machine

open Sys2Proof

namespace Memory

/-- The first listed index of a memory, if any, lies above `a`. -/
def Above (a : Nat) : Memory → Prop
  | [] => True
  | (b, _) :: _ => a < b

theorem wf_cons {b : Nat} {v : Bool} {m : Memory} : wf ((b, v) :: m) = true ↔ v = true ∧ Above b m ∧ wf m = true := by
  cases m with
  | nil => simp [wf, Above]
  | cons p m => obtain ⟨a, w⟩ := p; simp [wf, Above, and_assoc]

theorem Above.trans {a b : Nat} {m : Memory} (h : a ≤ b) (hm : Above b m) : Above a m := by
  cases m with
  | nil => trivial
  | cons p m => exact lt_of_le_of_lt h hm

@[simp] theorem read_nil (a : Nat) : read [] a = false := rfl

theorem read_cons (b : Nat) (v : Bool) (m : Memory) (a : Nat) :
    read ((b, v) :: m) a = if a = b then v else read m a := rfl

/-- Below the first listed index everything reads as 0. -/
theorem read_of_above {m : Memory} (hw : wf m = true) {b : Nat} (hb : Above b m) {a : Nat} (h : a ≤ b) :
    read m a = false := by
  induction m generalizing b with
  | nil => rfl
  | cons p m ih =>
    obtain ⟨c, v⟩ := p
    have hc : b < c := hb
    obtain ⟨-, ha, hm⟩ := wf_cons.mp hw
    rw [read_cons, if_neg (by omega)]
    exact ih hm ha (by omega)

/-- A write leaves every other cell alone, in any memory. -/
theorem read_write_ne (m : Memory) (a : Nat) (v : Bool) (x : Nat) (h : x ≠ a) : (m.write a v).read x = m.read x := by
  induction m with
  | nil => cases v <;> simp [write, read_cons, h]
  | cons p m ih =>
    obtain ⟨b, w⟩ := p
    simp only [write]
    split
    · cases v <;> simp [read_cons, h]
    · split
      · next hab => subst hab; cases v <;> simp [read_cons, h]
      · rw [read_cons, read_cons, ih]

/-- A read of the cell just written gives the bit written. -/
theorem read_write_same (m : Memory) (hw : m.wf = true) (a : Nat) (v : Bool) : (m.write a v).read a = v := by
  induction m with
  | nil => cases v <;> simp [write, read_cons]
  | cons p m ih =>
    obtain ⟨b, w⟩ := p
    obtain ⟨hv, hb, hm⟩ := wf_cons.mp hw
    simp only [write]
    split
    · next h =>
      cases v with
      | false =>
        rw [if_neg (by decide), read_cons, if_neg (by omega)]
        exact read_of_above hm hb (by omega)
      | true => simp [read_cons]
    · split
      · next h =>
        subst h
        cases v with
        | false => rw [if_neg (by decide)]; exact read_of_above hm hb (le_refl _)
        | true => simp [read_cons]
      · next h1 h2 => rw [read_cons, if_neg h2]; exact ih hm

theorem above_write {m : Memory} {b a : Nat} (v : Bool) (hm : Above b m) (h : b < a) (hw : wf m = true) :
    Above b (m.write a v) := by
  cases m with
  | nil => cases v <;> simp [write, Above, h]
  | cons p m =>
    obtain ⟨c, w⟩ := p
    have hc : b < c := hm
    obtain ⟨-, ha, -⟩ := wf_cons.mp hw
    simp only [write]
    split
    · cases v
      · exact hc
      · exact h
    · split
      · cases v
        · exact ha.trans (by omega)
        · exact h
      · exact hc

/-- A write keeps the canonical form. -/
theorem write_wf (m : Memory) (hw : m.wf = true) (a : Nat) (v : Bool) : (m.write a v).wf = true := by
  induction m with
  | nil => cases v <;> simp [write, wf]
  | cons p m ih =>
    obtain ⟨b, w⟩ := p
    obtain ⟨hv, hb, hm⟩ := wf_cons.mp hw
    simp only [write]
    split
    · next h =>
      cases v
      · exact hw
      · exact wf_cons.mpr ⟨rfl, h, hw⟩
    · split
      · next h =>
        cases v
        · exact hm
        · exact wf_cons.mpr ⟨rfl, h ▸ hb, hm⟩
      · exact wf_cons.mpr ⟨hv, above_write v hb (by omega) hm, ih hm⟩

/-- A write inside the buffer keeps the memory inside the buffer. -/
theorem write_within (m : Memory) (len : Nat) (hm : m.within len = true) (a : Nat) (v : Bool) (h : a < len) :
    (m.write a v).within len = true := by
  simp only [within, List.all_eq_true, decide_eq_true_eq] at hm ⊢
  induction m with
  | nil => cases v <;> simp [write, h]
  | cons p m ih =>
    obtain ⟨b, w⟩ := p
    have hb : b < len := hm (b, w) List.mem_cons_self
    have ht : ∀ x ∈ m, x.1 < len := fun x hx => hm x (List.mem_cons_of_mem _ hx)
    simp only [write]
    intro x hx
    split at hx
    · cases v
      · exact hm x (by simpa using hx)
      · simp only [if_true, List.mem_cons] at hx
        rcases hx with rfl | rfl | hx
        · exact h
        · exact hb
        · exact ht x hx
    · split at hx
      · cases v
        · exact ht x (by simpa using hx)
        · simp only [if_true, List.mem_cons] at hx
          rcases hx with rfl | hx
          · exact h
          · exact ht x hx
      · simp only [List.mem_cons] at hx
        rcases hx with rfl | hx
        · exact hb
        · exact ih ht x hx

/-- Equal memories are equal data: two canonical memories that read alike are the same list. -/
theorem ext_of_read {m m' : Memory} (hm : m.wf = true) (hm' : m'.wf = true) (h : ∀ a, m.read a = m'.read a) :
    m = m' := by
  induction m generalizing m' with
  | nil =>
    cases m' with
    | nil => rfl
    | cons p m' =>
      obtain ⟨b, v⟩ := p
      have := h b
      rw [read_cons, if_pos rfl, (wf_cons.mp hm').1] at this
      exact absurd this (by simp)
  | cons p m ih =>
    obtain ⟨b, v⟩ := p
    obtain ⟨rfl, hb, hw⟩ := wf_cons.mp hm
    cases m' with
    | nil =>
      have := h b
      rw [read_cons, if_pos rfl] at this
      exact absurd this (by simp)
    | cons p' m' =>
      obtain ⟨b', v'⟩ := p'
      obtain ⟨rfl, hb', hw'⟩ := wf_cons.mp hm'
      have e : b = b' := by
        rcases Nat.lt_trichotomy b b' with hlt | rfl | hlt
        · have := h b
          rw [read_cons, if_pos rfl, read_cons, if_neg (by omega), read_of_above hw' hb' (by omega)] at this
          exact absurd this (by simp)
        · rfl
        · have := h b'
          rw [read_cons, if_neg (by omega), read_cons, if_pos rfl, read_of_above hw hb (by omega)] at this
          exact absurd this (by simp)
      subst e
      congr 1
      refine ih hw hw' fun a => ?_
      have := h a
      rw [read_cons, read_cons] at this
      by_cases ha : a = b
      · subst ha; rw [read_of_above hw hb (le_refl _), read_of_above hw' hb' (le_refl _)]
      · simpa [ha] using this

/-! ### The wider accesses -/

/-- The two-bit write of OBSERVE: the upper bit at the lower index (R10, R112). -/
theorem memWrite_two (m : Memory) (a : Nat) (d : BitVec 2) :
    m.memWrite a d = (m.write a (d.getLsbD 1)).write (a + 1) (d.getLsbD 0) := by
  simp [memWrite, List.range_succ]

theorem read_memWrite_two (m : Memory) (hw : m.wf = true) (a : Nat) (d : BitVec 2) (x : Nat) :
    (m.memWrite a d).read x =
      if x = a then d.getLsbD 1 else if x = a + 1 then d.getLsbD 0 else m.read x := by
  rw [memWrite_two]
  by_cases h1 : x = a + 1
  · subst h1
    rw [read_write_same _ (write_wf _ hw _ _), if_neg (by omega), if_pos rfl]
  · rw [read_write_ne _ _ _ _ h1, if_neg h1]
    by_cases h0 : x = a
    · subst h0; rw [read_write_same _ hw, if_pos rfl]
    · rw [read_write_ne _ _ _ _ h0, if_neg h0]

theorem read_memWrite_two_ne (m : Memory) (a : Nat) (d : BitVec 2) (x : Nat) (h0 : x ≠ a) (h1 : x ≠ a + 1) :
    (m.memWrite a d).read x = m.read x := by
  rw [memWrite_two, read_write_ne _ _ _ _ h1, read_write_ne _ _ _ _ h0]

theorem memWrite_two_wf (m : Memory) (hw : m.wf = true) (a : Nat) (d : BitVec 2) : (m.memWrite a d).wf = true := by
  rw [memWrite_two]; exact write_wf _ (write_wf _ hw _ _) _ _

theorem memWrite_two_within (m : Memory) (len : Nat) (hm : m.within len = true) (a : Nat) (d : BitVec 2)
    (h : a + 1 < len) : (m.memWrite a d).within len = true := by
  rw [memWrite_two]; exact write_within _ _ (write_within _ _ hm _ _ (by omega)) _ _ h

/-- The j-th index of a row gives the j-th bit from the top (R54, R79). -/
theorem gather_getLsbD {n : Nat} (m : Memory) (row : Fin n → Nat) (j : Fin n) :
    (m.gather row).getLsbD (n - 1 - j.val) = m.read (row j) := by
  rw [gather, Bits.ofBits_getLsbD _ (by simp) j.val j.isLt]
  simp

/-- A gathered word depends on the cells of its row only. -/
theorem gather_congr {n : Nat} {m m' : Memory} {row : Fin n → Nat} (h : ∀ j, m.read (row j) = m'.read (row j)) :
    m.gather row = m'.gather row := by
  unfold gather
  congr 1
  exact List.map_congr_left fun j _ => h j

theorem reset_wf : State.reset.body.wf = true := rfl

end Memory

end Sys2Proof.Machine
end

