-- ==== Sys2Proof/Laws/Fec.lean ====
section
/-! SUPPORT. What the units of the FEC toolkit compute: one lemma for each block decoder, the trellis search and the
CRC registers. -/

namespace Sys2Proof.Machine

open Sys2Proof

/-- Two codewords of the (24,12) code lie more than two correction radii apart (R6, R131). -/
theorem enc24_far {c : Cfg} (hc : c.WellFormed) {a b : BitVec 12} (h : a ≠ b) :
    2 * c.t24 < Bits.dist (c.enc24 a) (c.enc24 b) := by
  obtain ⟨d, h3, hd, -, ht⟩ := hc.t24_radius
  have := hd a b h
  omega

/-- What the search answers: a value whose codeword lies inside the radius, or nothing when there is none. -/
theorem g24Search_spec (c : Cfg) (w : BitVec 24) :
    (∀ v, g24Search c w = some v → Bits.dist w (c.enc24 v) ≤ c.t24) ∧
    (g24Search c w = none → ∀ v, c.t24 < Bits.dist w (c.enc24 v)) := by
  unfold g24Search
  constructor
  · intro v hv
    rw [Option.map_eq_some_iff] at hv
    obtain ⟨n, hn, rfl⟩ := hv
    simpa using List.find?_some hn
  · intro h v
    rw [Option.map_eq_none_iff, List.find?_eq_none] at h
    have := h v.toNat (List.mem_range.mpr v.isLt)
    simpa using this

/-- G24_DEC of a word inside the radius of a codeword (R133). -/
theorem g24Decode_inside {c : Cfg} (hc : c.WellFormed) (w : BitVec 24) (v : BitVec 12)
    (h : Bits.dist w (c.enc24 v) ≤ c.t24) :
    g24Decode c w = ⟨v, Bits.dist w (c.enc24 v), true⟩ := by
  obtain ⟨h1, h2⟩ := g24Search_spec c w
  unfold g24Decode
  cases hs : g24Search c w with
  | none => exact absurd h (Nat.not_le.mpr (h2 hs v))
  | some u =>
    have hu := h1 u hs
    have : u = v := by
      by_contra hne
      have h3 := enc24_far hc hne
      have h4 := Bits.dist_triangle (c.enc24 u) w (c.enc24 v)
      rw [Bits.dist_comm (c.enc24 u) w] at h4
      omega
    rw [this]

/-- G24_DEC of a word outside every radius (R134). -/
theorem g24Decode_outside {c : Cfg} (w : BitVec 24) (h : ∀ v, c.t24 < Bits.dist w (c.enc24 v)) :
    g24Decode c w = ⟨c.dec24Fallback w, Bits.dist w (c.enc24 (c.dec24Fallback w)), false⟩ := by
  obtain ⟨h1, -⟩ := g24Search_spec c w
  unfold g24Decode
  cases hs : g24Search c w with
  | none => rfl
  | some u => exact absurd (h1 u hs) (Nat.not_le.mpr (h u))

/-- G24_DEC of a codeword with bits flipped inside the radius (R133). -/
theorem g24Decode_correct {c : Cfg} (hc : c.WellFormed) (v : BitVec 12) (e : BitVec 24)
    (h : Bits.popcount e ≤ c.t24) :
    g24Decode c (c.enc24 v ^^^ e) = ⟨v, Bits.popcount e, true⟩ := by
  have hd := Bits.dist_xor_right (c.enc24 v) e
  rw [g24Decode_inside hc _ v (by rw [hd]; exact h), hd]

/-- The zero value has the zero codeword (R131). -/
theorem enc24_zero {c : Cfg} (hc : c.WellFormed) : c.enc24 0 = 0 := by
  have := hc.enc24_linear 0 0
  simpa using this

/-- The words of the shortened use keep their six top bits 0 (R136). -/
theorem enc24_short {c : Cfg} (hc : c.WellFormed) (x : Hexbit) (e : BitVec 18) :
    ((c.enc24 (x.setWidth 12)).setWidth 18 ^^^ e).setWidth 24 = c.enc24 (x.setWidth 12) ^^^ e.setWidth 24 := by
  apply BitVec.eq_of_getLsbD_eq
  intro i hi
  simp only [BitVec.getLsbD_setWidth, BitVec.getLsbD_xor, hi, decide_true, Bool.true_and]
  by_cases h : i < 18
  · simp [h]
  · have hs := congrArg (fun v => v.getLsbD (i - 12)) (hc.enc24_systematic (x.setWidth 12))
    simp only [BitVec.getLsbD_extractLsb', BitVec.getLsbD_setWidth] at hs
    have e1 : 12 + (i - 12) = i := by omega
    rw [e1] at hs
    have e2 : (x.getLsbD (i - 12)) = false := BitVec.getLsbD_of_ge _ _ (by omega)
    have e3 : e.getLsbD i = false := BitVec.getLsbD_of_ge _ _ (by omega)
    rw [e2] at hs
    simp [show i - 12 < 12 by omega] at hs
    simp [h, hs, e3]

/-- A header word with bits flipped inside the radius (R136, R172). -/
theorem headerWord_correct {c : Cfg} (hc : c.WellFormed) (x : Hexbit) (e : BitVec 18) (h : Bits.popcount e ≤ c.t24) :
    headerWord c ((c.enc24 (x.setWidth 12)).setWidth 18 ^^^ e) = (x, e != 0) := by
  have hp : Bits.popcount (e.setWidth 24) ≤ c.t24 := by rw [Bits.popcount_setWidth (by decide)]; exact h
  unfold headerWord mism24
  rw [enc24_short hc, g24Decode_correct hc _ _ hp]
  simp only
  congr 1
  · apply BitVec.eq_of_getLsbD_eq
    intro i hi
    simp [BitVec.getLsbD_extractLsb', hi, show i < 12 by omega]
  · rw [Bool.eq_iff_iff]
    simp only [bne_iff_ne, ne_eq]
    have h1 : (c.enc24 (x.setWidth 12) ^^^ e.setWidth 24 = c.enc24 (x.setWidth 12)) ↔ e.setWidth 24 = 0 := by
      constructor
      · intro h
        have := congrArg (fun v => c.enc24 (x.setWidth 12) ^^^ v) h
        simpa [← BitVec.xor_assoc] using this
      · intro h; rw [h]; simp
    have h2 : (e.setWidth 24 = 0) ↔ e = 0 := by
      constructor
      · intro h
        apply Bits.popcount_eq_zero
        rw [← Bits.popcount_setWidth (show 18 ≤ 24 by decide) e, h]; exact Bits.popcount_zero 24
      · intro h; rw [h]; rfl
    rw [h1, h2]

/-- The (10,6) mismatch flag marks exactly the words that are no codeword (R146). -/
theorem hamDecode_mism {c : Cfg} (hc : c.WellFormed) (w : BitVec 10) :
    (hamDecode c w).mism = true ↔ ∀ v, w ≠ c.hamEnc v := by
  show (w != c.hamEnc (c.hamDec w)) = true ↔ _
  rw [bne_iff_ne]
  exact ⟨fun h v hv => h (by rw [hv, hc.ham_inverse]), fun h => h _⟩

/-- A vector is at distance 0 from itself. -/
theorem symDist_self (a : HexVec) : symDist a a = 0 := by simp [symDist]

/-- The step of the three Reed-Solomon operations (R141). -/
theorem exec_rsInstr (i : RsInst) (hb : HexVec) (s : State) :
    exec (rsInstr i hb) s =
        .next { s.quiet with unitOut := some (.rs (Config.cfg.rsDec i hb).1 (Config.cfg.rsDec i hb).2) } := by
  cases i <;> rfl

/-- The trellis step decides the one nearest symbol and fails on a tie (R152, R153). -/
theorem trellisStep_iff (tab : BitVec 2 → BitVec 2 → BitVec 4) (s : BitVec 2) (cw : BitVec 4) (y : BitVec 2) :
    trellisStep tab s cw = some y ↔ ∀ x, x ≠ y → Bits.dist cw (tab s y) < Bits.dist cw (tab s x) := by
  have key : ∀ h : BitVec 2 → Nat, (match [0, 1, 2,
      3].filter (fun x => h x == min (min (h 0) (h 1)) (min (h 2) (h 3))) with
     | [x] => some x
     | _ => none) = some y ↔ ∀ x, x ≠ y → h y < h x := by
    intro h
    have hall : ∀ P : BitVec 2 → Prop, (∀ x, P x) ↔ P 0 ∧ P 1 ∧ P 2 ∧ P 3 := by
      intro P
      refine ⟨fun h => ⟨h 0, h 1, h 2, h 3⟩, fun ⟨h0, h1, h2, h3⟩ x => ?_⟩
      have : x = 0 ∨ x = 1 ∨ x = 2 ∨ x = 3 := by revert x; decide
      rcases this with rfl | rfl | rfl | rfl <;> assumption
    rw [hall]
    have hy : y = 0 ∨ y = 1 ∨ y = 2 ∨ y = 3 := by revert y; decide
    generalize e0 : h 0 = a0
    generalize e1 : h 1 = a1
    generalize e2 : h 2 = a2
    generalize e3 : h 3 = a3
    have hm : (min (min a0 a1) (min a2 a3) ≤ a0 ∧ min (min a0 a1) (min a2 a3) ≤ a1 ∧ min (min a0 a1) (min a2 a3) ≤ a2 ∧ min (min a0 a1) (min a2 a3) ≤ a3) ∧
        (min (min a0 a1) (min a2 a3) = a0 ∨ min (min a0 a1) (min a2 a3) = a1 ∨ min (min a0 a1) (min a2 a3) = a2 ∨ min (min a0 a1) (min a2 a3) = a3) := by omega
    generalize min (min a0 a1) (min a2 a3) = m at hm ⊢
    simp only [List.filter_cons, List.filter_nil, e0, e1, e2, e3, beq_iff_eq]
    have e0' : h 0#2 = a0 := e0
    have e1' : h 1#2 = a1 := e1
    have e2' : h 2#2 = a2 := e2
    have e3' : h 3#2 = a3 := e3
    clear e0 e1 e2 e3
    obtain ⟨⟨m0, m1, m2, m3⟩, hm⟩ := hm
    rcases hy with rfl | rfl | rfl | rfl <;> split_ifs <;> simp [e0', e1', e2', e3'] <;> omega
  exact key fun x => Bits.dist cw (tab s x)

/-- The trellis run: every symbol is decided in the state the symbol before it left (R150, R152). -/
theorem trellisRun_iff (tab : BitVec 2 → BitVec 2 → BitVec 4) (s : BitVec 2) (cws : List (BitVec 4))
    (ys : List (BitVec 2)) :
    trellisRun tab s cws = some ys ↔ ys.length = cws.length ∧
      ∀ (j : Nat) (h : j < cws.length) (h' : j < ys.length), ∀ x, x ≠ ys[j] →
        Bits.dist cws[j] (tab ((s :: ys)[j]'(Nat.lt_succ_of_lt h')) ys[j]) < Bits.dist cws[j] (tab ((s :: ys)[j]'(Nat.lt_succ_of_lt h')) x) := by
  induction cws generalizing s ys with
  | nil =>
    cases ys with
    | nil => simp [trellisRun]
    | cons y ys => simp [trellisRun]
  | cons cw cws ih =>
    cases ys with
    | nil =>
      simp only [trellisRun]
      split <;> simp
    | cons y ys =>
      have hstep := trellisStep_iff tab s cw
      simp only [trellisRun]
      constructor
      · intro h
        split at h
        · cases h
        · next y' hy =>
          rw [Option.map_eq_some_iff] at h
          obtain ⟨zs, hz, he⟩ := h
          cases he
          obtain ⟨h1, h2⟩ := (ih y ys).mp hz
          refine ⟨by simpa using h1, fun j hj hj' => ?_⟩
          cases j with
          | zero => exact (hstep y).mp hy
          | succ j => exact h2 j (by simpa using hj) (by simpa using hj')
      · rintro ⟨h1, h2⟩
        have h0 := (hstep y).mpr (h2 0 (by simp) (by simp))
        rw [h0]
        simp only [Option.map_eq_some_iff]
        exact ⟨ys,
            (ih y ys).mpr ⟨by simpa using h1, fun j hj hj' => h2 (j + 1) (by simpa using hj) (by simpa using hj')⟩,
            rfl⟩

/-- Cutting a bit string into words of four bits. -/
theorem chunk4_spec (l : List Bool) : (Bits.chunk4 l).length = l.length / 4 ∧
    ∀ (j : Nat) (h : j < (Bits.chunk4 l).length) (h' : 4 * j + 3 < l.length), (Bits.chunk4 l)[j] =
        Bits.ofBits 4 [l[4 * j], l[4 * j + 1], l[4 * j + 2], l[4 * j + 3]] := by
  induction l using Bits.chunk4.induct with
  | case1 a b c d rest ih =>
    obtain ⟨h1, h2⟩ := ih
    refine ⟨by simp [Bits.chunk4, h1]; omega, fun j h h' => ?_⟩
    cases j with
    | zero => rfl
    | succ j =>
      have e : 4 * (j + 1) = 4 * j + 4 := by omega
      simp only [Bits.chunk4, List.length_cons] at h h'
      have := h2 j (by omega) (by omega)
      simp only [Bits.chunk4, List.getElem_cons_succ, this, e]
  | case2 l hl =>
    match l, hl with
    | [], _ => simp [Bits.chunk4]
    | [a], _ => simp [Bits.chunk4]
    | [a, b], _ => simp [Bits.chunk4]
    | [a, b, c], _ => simp [Bits.chunk4]
    | a :: b :: c :: d :: r, hl => exact absurd rfl (hl a b c d r)

/-- A segment has 196 bits. -/
theorem segmentBits_length (c : Cfg) (m : Memory) (off : Nat) :
    (segmentBits c m off).length = 196 := by simp [segmentBits]

/-- The 49 codewords of a segment are its deinterleaved bits, four by four (R84). -/
theorem segment_words (c : Cfg) (m : Memory) (off : Nat) : (Bits.chunk4 (segmentBits c m off)).length = 49 ∧
    ∀ (j : Fin 49) (h : j.val < (Bits.chunk4 (segmentBits c m off)).length), (Bits.chunk4 (segmentBits c m off))[j.val] = receivedWord c m off j := by
  obtain ⟨h1, h2⟩ := chunk4_spec (segmentBits c m off)
  rw [segmentBits_length] at h1
  refine ⟨h1, fun j h => ?_⟩
  rw [h2 j.val h (by rw [segmentBits_length]; omega)]
  unfold receivedWord Memory.gather
  congr 1
  simp only [segmentBits, List.getElem_map, List.getElem_finRange]
  rfl

/-- The block of 49 symbols is the packing of the first 48 (R154). -/
theorem blockOf_packed (ys : Fin 49 → BitVec 2) (b : Block) : blockOf (List.ofFn ys) = b ↔ IsPacked ys b := by
  have hb : ∀ (q : Fin 12), (blockOf (List.ofFn ys))[q.val] = ys ⟨4 * q.val, by omega⟩ ++ ys ⟨4 * q.val + 1,
      by omega⟩ ++ ys ⟨4 * q.val + 2, by omega⟩ ++ ys ⟨4 * q.val + 3, by omega⟩ := by
    intro q
    have hg : ∀ i (h : i < 49), (List.ofFn ys).getD i 0 = ys ⟨i, h⟩ := by
      intro i h
      rw [List.getD_eq_getElem?_getD, List.getElem?_eq_getElem (by rw [List.length_ofFn]; exact h), List.getElem_ofFn]
      rfl
    unfold blockOf
    rw [Vector.getElem_ofFn]
    simp only
    rw [hg, hg, hg, hg]
  have hsl : ∀ (a b c d : BitVec 2) (k : Fin 4), (a ++ b ++ c ++ d).extractLsb' (6 - 2 * k.val) 2 = [a, b, c,
      d][k.val] := by
    decide +kernel
  have hext : ∀ (x y : BitVec 8), (∀ k : Fin 4,
      x.extractLsb' (6 - 2 * k.val) 2 = y.extractLsb' (6 - 2 * k.val) 2) → x = y := by
    intro x y h
    have h0 := h 0; have h1 := h 1; have h2 := h 2; have h3 := h 3
    ext i hi
    have hh : ∀ (k : Fin 4) (j : Nat), j < 2 → x.getLsbD (6 - 2 * k.val + j) = y.getLsbD (6 - 2 * k.val + j) := by
      intro k j hj
      have := congrArg (fun v => v.getLsbD j) (h k)
      simpa [hj] using this
    have := hh ⟨3 - i / 2, by omega⟩ (i % 2) (by omega)
    have e : 6 - 2 * (3 - i / 2) + i % 2 = i := by omega
    simp only [e] at this
    simpa [BitVec.getLsbD_eq_getElem hi] using this
  constructor
  · rintro rfl q k
    show ((blockOf (List.ofFn ys))[q.val]).extractLsb' _ 2 = _
    rw [hb q, hsl]
    match k with
    | 0 => rfl
    | 1 => rfl
    | 2 => rfl
    | 3 => rfl
  · intro h
    apply Vector.ext
    intro q hq
    apply hext
    intro k
    rw [hb ⟨q, hq⟩, hsl]
    have := h ⟨q, hq⟩ k
    rw [Fin.getElem_fin] at this
    rw [this]
    match k with
    | 0 => rfl
    | 1 => rfl
    | 2 => rfl
    | 3 => rfl

/-- The bits of an exclusive or. -/
theorem toBits_xor {w : Nat} (a b : BitVec w) :
    Bits.toBits (a ^^^ b) = List.zipWith xor (Bits.toBits a) (Bits.toBits b) := by
  apply List.ext_getElem (by simp)
  intro i h h'
  rw [List.getElem_zipWith, Bits.toBits_getElem, Bits.toBits_getElem, Bits.toBits_getElem, BitVec.getLsbD_xor]

/-- The low bits of a bit string's value. -/
theorem ofBits_setWidth {v w : Nat} (h : v ≤ w) (l : List Bool) : (Bits.ofBits w l).setWidth v = Bits.ofBits v l := by
  apply BitVec.eq_of_getLsbD_eq
  intro i hi
  simp only [Bits.ofBits, BitVec.getLsbD_setWidth, BitVec.getLsbD_ofNat, hi, show i < w by omega, decide_true,
      Bool.true_and]

/-- One more bit at the end of a bit string. -/
theorem ofBits17_concat (l : List Bool) (b : Bool) :
    (Bits.ofBits 17 l <<< 1) ||| (BitVec.ofBool b).setWidth 17 = Bits.ofBits 17 (l ++ [b]) := by
  apply BitVec.eq_of_getLsbD_eq
  intro i hi
  simp only [Bits.ofBits, BitVec.getLsbD_or, BitVec.getLsbD_shiftLeft, BitVec.getLsbD_ofNat, hi, decide_true,
      Bool.true_and, BitVec.getLsbD_setWidth, Bits.testBit_toNatBE]
  cases i with
  | zero => cases b <;> simp
  | succ i => 
    have : i < 17 := by omega
    simp [this]

/-- The bits of zero bytes. -/
theorem bytesBits_zeros (n : Nat) : Bits.bytesBits (List.replicate n 0) = List.replicate (8 * n) false := by
  induction n with
  | zero => rfl
  | succ n ih =>
    rw [List.replicate_succ, Bits.bytesBits_cons, ih, Nat.mul_succ, Nat.add_comm, List.replicate_add]; rfl

/-- The CRC16 register is linear (R155). -/
theorem crc16Bit_xor (p r q : BitVec 17) (a b : Bool) :
    crc16Bit p (r ^^^ q) (a ^^ b) = crc16Bit p r a ^^^ crc16Bit p q b := by
  have hs : ((r ^^^ q) <<< 1 ||| (BitVec.ofBool (a ^^ b)).setWidth 17) = (r <<< 1 ||| (BitVec.ofBool a).setWidth 17) ^^^ (q <<< 1 ||| (BitVec.ofBool b).setWidth 17) := by
    apply BitVec.eq_of_getLsbD_eq
    intro i hi
    by_cases h0 : i = 0
    · subst h0; cases a <;> cases b <;> simp
    · have : ∀ c : Bool, ((BitVec.ofBool c).setWidth 17).getLsbD i = false := by
        intro c; simp [BitVec.getLsbD_setWidth, BitVec.getLsbD_ofBool, h0]
      simp [hi, h0]
  unfold crc16Bit
  rw [hs]
  generalize (r <<< 1 ||| (BitVec.ofBool a).setWidth 17) = x
  generalize (q <<< 1 ||| (BitVec.ofBool b).setWidth 17) = y
  simp only [BitVec.getLsbD_xor]
  cases x.getLsbD 16 <;> cases y.getLsbD 16 <;> simp
  · rw [BitVec.xor_assoc]
  · rw [BitVec.xor_assoc, BitVec.xor_comm y p, ← BitVec.xor_assoc]
  · rw [BitVec.xor_assoc, BitVec.xor_comm p (y ^^^ p), BitVec.xor_assoc, BitVec.xor_self, BitVec.xor_zero]

/-- A CRC16 run is linear. -/
theorem crc16_fold_xor (p : BitVec 17) (l l' : List Bool) (h : l.length = l'.length) (r q : BitVec 17) :
    (List.zipWith xor l l').foldl (crc16Bit p) (r ^^^ q) = l.foldl (crc16Bit p) r ^^^ l'.foldl (crc16Bit p) q := by
  induction l generalizing l' r q with
  | nil => cases l' <;> simp_all
  | cons a l ih =>
    cases l' with
    | nil => simp at h
    | cons b l' =>
      simp only [List.zipWith_cons_cons, List.foldl_cons, crc16Bit_xor]
      exact ih l' (by simpa using h) _ _

/-- A CRC16 run is the start value run over zeros, plus the run from zero. -/
theorem crc16_fold_split (p : BitVec 17) (l : List Bool) (r : BitVec 17) :
    l.foldl (crc16Bit p) r = (List.replicate l.length false).foldl (crc16Bit p) r ^^^ l.foldl (crc16Bit p) 0 := by
  have := crc16_fold_xor p (List.replicate l.length false) l (by simp) r 0
  rw [show r ^^^ (0 : BitVec 17) = r from BitVec.xor_zero] at this
  rw [← this]
  congr 1
  apply List.ext_getElem (by simp)
  intro i h h'; simp

/-- A run of at most sixteen bits from zero only shifts them in. -/
theorem crc16_fold_short (p : BitVec 17) (l : List Bool) (h : l.length ≤ 16) :
    l.foldl (crc16Bit p) 0 = Bits.ofBits 17 l := by
  induction l using List.reverseRecOn with
  | nil => rfl
  | append_singleton l b ih =>
    simp only [List.length_append, List.length_singleton] at h
    rw [List.foldl_append, ih (by omega)]
    simp only [List.foldl_cons, List.foldl_nil, crc16Bit, ofBits17_concat]
    rw [if_neg]
    rw [Bits.ofBits, BitVec.getLsbD_ofNat, Bits.testBit_toNatBE]
    simp; rw [List.getElem?_eq_none (by simp; omega)]; rfl

/-- Zero bits leave a zero CRC16 register zero. -/
theorem crc16_zeros (p : BitVec 17) (n : Nat) : (List.replicate n false).foldl (crc16Bit p) 0 = 0 := by
  induction n with
  | zero => rfl
  | succ n ih => 
    have : crc16Bit p 0 false = 0 := by simp [crc16Bit]
    rw [List.replicate_succ, List.foldl_cons, this, ih]

/-- A nonzero CRC16 register stays nonzero on a zero bit, for a polynomial with a constant term. -/
theorem crc16Bit_false_ne {p r : BitVec 17} (h16 : p.getLsbD 16 = true) (h0 : p.getLsbD 0 = true)
    (hr : r.getLsbD 16 = false) (hne : r ≠ 0) :
    (crc16Bit p r false).getLsbD 16 = false ∧ crc16Bit p r false ≠ 0 := by
  unfold crc16Bit
  have hs : (r <<< 1 ||| (BitVec.ofBool false).setWidth 17) = r <<< 1 := by simp
  rw [hs]
  simp only
  by_cases h : (r <<< 1).getLsbD 16 = true
  · rw [if_pos h]
    refine ⟨by rw [BitVec.getLsbD_xor, h, h16]; rfl, fun he => ?_⟩
    have := congrArg (fun v => v.getLsbD 0) he
    have h0' : p[0] = true := h0
    simp at this; rw [h0'] at this; cases this
  · rw [if_neg h]
    refine ⟨by simpa using h, fun he => hne ?_⟩
    apply BitVec.eq_of_getLsbD_eq
    intro i hi
    by_cases hi' : i = 16
    · rw [hi', hr]; rfl
    · have := congrArg (fun v => v.getLsbD (i + 1)) he
      simpa [show i + 1 < 17 by omega, BitVec.getLsbD_eq_getElem hi] using this

/-- A nonzero CRC16 register stays nonzero on zero bits. -/
theorem crc16_zeros_ne {p : BitVec 17} (h16 : p.getLsbD 16 = true) (h0 : p.getLsbD 0 = true) (n : Nat)
    (r : BitVec 17) (hr : r.getLsbD 16 = false) (hne : r ≠ 0) :
    ((List.replicate n false).foldl (crc16Bit p) r).getLsbD 16 = false ∧
        (List.replicate n false).foldl (crc16Bit p) r ≠ 0 := by
  induction n generalizing r with
  | zero => exact ⟨hr, hne⟩
  | succ n ih =>
    obtain ⟨h1, h2⟩ := crc16Bit_false_ne h16 h0 hr hne
    rw [List.replicate_succ, List.foldl_cons]
    exact ih _ h1 h2

/-- CRC16 around one byte of a buffer. -/
theorem crc16_split_bytes (c : Cfg) (a b : List Byte) (x : Byte) : crc16 c (a ++ x :: b) =
   (((List.replicate (8 * b.length) false).foldl (crc16Bit c.crc16Poly) ((Bits.toBits x).foldl (crc16Bit c.crc16Poly) ((Bits.bytesBits a).foldl (crc16Bit c.crc16Poly) 0)))
     ^^^ (Bits.bytesBits b).foldl (crc16Bit c.crc16Poly) 0).setWidth 16 ^^^ 0xFFFF := by
  unfold crc16
  rw [Bits.bytesBits_append, Bits.bytesBits_cons, List.foldl_append, List.foldl_append,
      crc16_fold_split _ (Bits.bytesBits b), Bits.bytesBits_length]

end Sys2Proof.Machine
end

