-- ==== Sys2Proof/Laws/Observe.lean ====
section
/-! SUPPORT. What OBSERVE can do, said once: the parts that no phase touches, the whole of each phase's work, the sync
test, the dispatch and the statistics tick as one equation each, and every field of the state after OBSERVE. -/

namespace Sys2Proof.Machine

open Sys2Proof

/-! ### Phase work: what no phase touches -/

@[simp] theorem phaseWork_symbols (c : Cfg) (p : Phase) (d : Sym) (s : State) :
    (phaseWork c p d s).state.symbols = s.symbols := by
  cases p <;> simp only [phaseWork, nidWork, bodyWork, decodeNid] <;> (repeat' split) <;> rfl

@[simp] theorem phaseWork_win (c : Cfg) (p : Phase) (d : Sym) (s : State) :
    (phaseWork c p d s).state.win = s.win := by
  cases p <;> simp only [phaseWork, nidWork, bodyWork, decodeNid] <;> (repeat' split) <;> rfl

@[simp] theorem phaseWork_statDiv (c : Cfg) (p : Phase) (d : Sym) (s : State) :
    (phaseWork c p d s).state.statDiv = s.statDiv := by
  cases p <;> simp only [phaseWork, nidWork, bodyWork, decodeNid] <;> (repeat' split) <;> rfl

@[simp] theorem phaseWork_syncs (c : Cfg) (p : Phase) (d : Sym) (s : State) :
    (phaseWork c p d s).state.syncs = s.syncs := by
  cases p <;> simp only [phaseWork, nidWork, bodyWork, decodeNid] <;> (repeat' split) <;> rfl

@[simp] theorem phaseWork_ess (c : Cfg) (p : Phase) (d : Sym) (s : State) :
    (phaseWork c p d s).state.ess = s.ess := by
  cases p <;> simp only [phaseWork, nidWork, bodyWork, decodeNid] <;> (repeat' split) <;> rfl

@[simp] theorem phaseWork_events (c : Cfg) (p : Phase) (d : Sym) (s : State) :
    (phaseWork c p d s).state.events = s.events := by
  cases p <;> simp only [phaseWork, nidWork, bodyWork, decodeNid] <;> (repeat' split) <;> rfl

@[simp] theorem phaseWork_unitOut (c : Cfg) (p : Phase) (d : Sym) (s : State) :
    (phaseWork c p d s).state.unitOut = s.unitOut := by
  cases p <;> simp only [phaseWork, nidWork, bodyWork, decodeNid] <;> (repeat' split) <;> rfl

@[simp] theorem phaseWork_input (c : Cfg) (p : Phase) (d : Sym) (s : State) :
    (phaseWork c p d s).state.input = s.input := by
  cases p <;> simp only [phaseWork, nidWork, bodyWork, decodeNid] <;> (repeat' split) <;> rfl

@[simp] theorem phaseWork_frameDone (c : Cfg) (p : Phase) (d : Sym) (s : State) :
    (phaseWork c p d s).state.frameDone = s.frameDone := by
  cases p <;> simp only [phaseWork, nidWork, bodyWork, decodeNid] <;> (repeat' split) <;> rfl

/-! ### The sync test, the dispatch and the tick -/

theorem syncTest_eq (c : Cfg) (p0 : Phase) (s : State) :
    syncTest c p0 s =
      if SyncAt c p0 s.win then { s with syncs := s.syncs + 1, nidAcc := 0, nidCnt := 0, phase := .nid } else s := by
  unfold syncTest armed syncMatch SyncAt
  by_cases h1 : p0 = .search <;> by_cases h2 : c.inFrameSync = .abandon <;> simp [h1, h2]

@[simp] theorem syncTest_symbols (c : Cfg) (p : Phase) (s : State) : (syncTest c p s).symbols = s.symbols := by
  rw [syncTest_eq]; split <;> rfl

@[simp] theorem syncTest_win (c : Cfg) (p : Phase) (s : State) : (syncTest c p s).win = s.win := by
  rw [syncTest_eq]; split <;> rfl

@[simp] theorem syncTest_statDiv (c : Cfg) (p : Phase) (s : State) : (syncTest c p s).statDiv = s.statDiv := by
  rw [syncTest_eq]; split <;> rfl

@[simp] theorem syncTest_ess (c : Cfg) (p : Phase) (s : State) : (syncTest c p s).ess = s.ess := by
  rw [syncTest_eq]; split <;> rfl

@[simp] theorem syncTest_events (c : Cfg) (p : Phase) (s : State) : (syncTest c p s).events = s.events := by
  rw [syncTest_eq]; split <;> rfl

@[simp] theorem syncTest_unitOut (c : Cfg) (p : Phase) (s : State) : (syncTest c p s).unitOut = s.unitOut := by
  rw [syncTest_eq]; split <;> rfl

@[simp] theorem syncTest_input (c : Cfg) (p : Phase) (s : State) : (syncTest c p s).input = s.input := by
  rw [syncTest_eq]; split <;> rfl

@[simp] theorem syncTest_frameDone (c : Cfg) (p : Phase) (s : State) : (syncTest c p s).frameDone = s.frameDone := by
  rw [syncTest_eq]; split <;> rfl

@[simp] theorem syncTest_body (c : Cfg) (p : Phase) (s : State) : (syncTest c p s).body = s.body := by
  rw [syncTest_eq]; split <;> rfl

@[simp] theorem syncTest_bodyLen (c : Cfg) (p : Phase) (s : State) : (syncTest c p s).bodyLen = s.bodyLen := by
  rw [syncTest_eq]; split <;> rfl

@[simp] theorem syncTest_cursor (c : Cfg) (p : Phase) (s : State) : (syncTest c p s).cursor = s.cursor := by
  rw [syncTest_eq]; split <;> rfl

@[simp] theorem syncTest_nac (c : Cfg) (p : Phase) (s : State) : (syncTest c p s).nac = s.nac := by
  rw [syncTest_eq]; split <;> rfl

@[simp] theorem syncTest_duid (c : Cfg) (p : Phase) (s : State) : (syncTest c p s).duid = s.duid := by
  rw [syncTest_eq]; split <;> rfl

@[simp] theorem syncTest_par (c : Cfg) (p : Phase) (s : State) : (syncTest c p s).par = s.par := by
  rw [syncTest_eq]; split <;> rfl

@[simp] theorem syncTest_nidCw (c : Cfg) (p : Phase) (s : State) : (syncTest c p s).nidCw = s.nidCw := by
  rw [syncTest_eq]; split <;> rfl

@[simp] theorem syncTest_nidNerr (c : Cfg) (p : Phase) (s : State) : (syncTest c p s).nidNerr = s.nidNerr := by
  rw [syncTest_eq]; split <;> rfl

@[simp] theorem syncTest_goodNids (c : Cfg) (p : Phase) (s : State) : (syncTest c p s).goodNids = s.goodNids := by
  rw [syncTest_eq]; split <;> rfl

@[simp] theorem syncTest_badNids (c : Cfg) (p : Phase) (s : State) : (syncTest c p s).badNids = s.badNids := by
  rw [syncTest_eq]; split <;> rfl

@[simp] theorem syncTest_syncs (c : Cfg) (p : Phase) (s : State) :
    (syncTest c p s).syncs = if SyncAt c p s.win then s.syncs + 1 else s.syncs := by
  rw [syncTest_eq]; split <;> rfl

@[simp] theorem syncTest_nidAcc (c : Cfg) (p : Phase) (s : State) :
    (syncTest c p s).nidAcc = if SyncAt c p s.win then 0 else s.nidAcc := by
  rw [syncTest_eq]; split <;> rfl

@[simp] theorem syncTest_nidCnt (c : Cfg) (p : Phase) (s : State) :
    (syncTest c p s).nidCnt = if SyncAt c p s.win then 0 else s.nidCnt := by
  rw [syncTest_eq]; split <;> rfl

@[simp] theorem syncTest_phase (c : Cfg) (p : Phase) (s : State) :
    (syncTest c p s).phase = if SyncAt c p s.win then .nid else s.phase := by
  rw [syncTest_eq]; split <;> rfl

/-- The events and ESS a completed frame leaves (R170). -/
def dispatchResult (c : Cfg) (nac : BitVec 12) (duid : BitVec 4) (m : Memory) (ess : Ess) : ProcResult :=
  if nac = 0 then ⟨[], ess⟩
  else
    match typeOfCode c.duid duid with
    | some t => processor c t ⟨nac, duid⟩ m ess
    | none => ⟨[], ess⟩

theorem dispatchResult_cfg (nac : BitVec 12) (duid : BitVec 4) (m : Memory) (ess : Ess) :
    dispatchResult Config.cfg nac duid m ess = dispatched nac duid m ess := by
  unfold dispatchResult dispatched <;> rfl

theorem dispatchFrame_eq (c : Cfg) (s : State) :
    dispatchFrame c s = s.apply (dispatchResult c s.nac s.duid s.body s.ess) := by
  unfold dispatchFrame dispatchResult runProcessor State.apply
  split
  · simp
  · cases typeOfCode c.duid s.duid <;> simp

theorem statsTick_eq (s : State) :
    statsTick s = if s.statDiv = 480#9 then { s with events := s.events ++ [evStats s], statDiv := 0 } else s := by
  unfold statsTick State.emit STATS_PERIOD
  have : s.statDiv.toNat = 480 ↔ s.statDiv = 480#9 := by
    rw [← BitVec.toNat_inj]; simp
  simp only [this]

theorem evStats_eq (s : State) : evStats s = statsEventOf s := rfl

/-! ### The whole of OBSERVE -/

/-- What follows the phase work in OBSERVE, as one record update of the state the phase work leaves. -/
def afterWork (c : Cfg) (p0 : Phase) (w : Work) : State :=
  let s := w.state
  let r := if w.done then dispatchResult c s.nac s.duid s.body s.ess else ⟨[], s.ess⟩
  let u : State := { s with
    syncs := if SyncAt c p0 s.win then s.syncs + 1 else s.syncs
    nidAcc := if SyncAt c p0 s.win then 0 else s.nidAcc
    nidCnt := if SyncAt c p0 s.win then 0 else s.nidCnt
    phase := if SyncAt c p0 s.win then .nid else s.phase }
  { u with
    ess := r.ess
    frameDone := w.done
    statDiv := if s.statDiv = 480#9 then 0 else s.statDiv
    events := s.events ++ r.events ++ (if s.statDiv = 480#9 then [statsEventOf u] else []) }

theorem syncTest_fields (c : Cfg) (p0 : Phase) (s : State) :
    syncTest c p0 s = { s with
      syncs := if SyncAt c p0 s.win then s.syncs + 1 else s.syncs
      nidAcc := if SyncAt c p0 s.win then 0 else s.nidAcc
      nidCnt := if SyncAt c p0 s.win then 0 else s.nidCnt
      phase := if SyncAt c p0 s.win then .nid else s.phase } := by
  rw [syncTest_eq]
  by_cases hit : SyncAt c p0 s.win
  · simp only [if_pos hit]
  · simp only [if_neg hit]

theorem dispatch_fields (c : Cfg) (done : Bool) (s : State) :
    (if done then dispatchFrame c s else s) = { s with
      events := s.events ++ (if done then dispatchResult c s.nac s.duid s.body s.ess else ⟨[], s.ess⟩).events
      ess := (if done then dispatchResult c s.nac s.duid s.body s.ess else ⟨[], s.ess⟩).ess } := by
  cases done
  · simp
  · rw [if_pos rfl, if_pos rfl, dispatchFrame_eq]; rfl

theorem statsTick_fields (s : State) (done : Bool) :
    ({ statsTick s with frameDone := done } : State) = { s with
      frameDone := done
      statDiv := if s.statDiv = 480#9 then 0 else s.statDiv
      events := s.events ++ (if s.statDiv = 480#9 then [statsEventOf s] else []) } := by
  rw [statsTick_eq]
  by_cases h : s.statDiv = 480#9
  · simp only [if_pos h, evStats_eq]
  · simp only [if_neg h, List.append_nil]

/-- OBSERVE is its phase work and then `afterWork`. -/
theorem observe_eq (c : Cfg) (d : Sym) (s : State) :
    observe c d s = afterWork c s.phase (phaseWork c s.phase d (shiftWindow d (count s))) := by
  have h : observe c d s =
      let w := phaseWork c s.phase d (shiftWindow d (count s))
      { statsTick (if w.done then dispatchFrame c (syncTest c s.phase w.state) else syncTest c s.phase w.state) with
        frameDone := w.done } := rfl
  rw [h]
  simp only
  rw [statsTick_fields, dispatch_fields, syncTest_fields]
  rfl

/-! ### Every field after OBSERVE -/

@[simp] theorem observe_symbols (c : Cfg) (d : Sym) (s : State) : (observe c d s).symbols = s.symbols + 1 := by
  rw [observe_eq]; exact phaseWork_symbols ..

@[simp] theorem observe_win (c : Cfg) (d : Sym) (s : State) : (observe c d s).win = slide s.win d := by
  rw [observe_eq]; exact phaseWork_win ..

@[simp] theorem observe_unitOut (c : Cfg) (d : Sym) (s : State) : (observe c d s).unitOut = s.unitOut := by
  rw [observe_eq]; exact phaseWork_unitOut ..

@[simp] theorem observe_input (c : Cfg) (d : Sym) (s : State) : (observe c d s).input = s.input := by
  rw [observe_eq]; exact phaseWork_input ..

@[simp] theorem observe_statDiv (c : Cfg) (d : Sym) (s : State) :
    (observe c d s).statDiv = if s.StatDue then 0 else s.statDiv + 1 := by
  rw [observe_eq]; simp only [afterWork, phaseWork_statDiv, shiftWindow_statDiv, count_statDiv]

@[simp] theorem observe_syncs (c : Cfg) (d : Sym) (s : State) :
    (observe c d s).syncs = if SyncAt c s.phase (slide s.win d) then s.syncs + 1 else s.syncs := by
  rw [observe_eq]; simp [afterWork]

/-- The phase work of OBSERVE. -/
def work (c : Cfg) (d : Sym) (s : State) : Work := phaseWork c s.phase d (shiftWindow d (count s))

theorem observe_phase (c : Cfg) (d : Sym) (s : State) :
    (observe c d s).phase = if SyncAt c s.phase (slide s.win d) then .nid else (work c d s).state.phase := by
  rw [observe_eq]; simp [afterWork, work]

theorem observe_nidAcc (c : Cfg) (d : Sym) (s : State) :
    (observe c d s).nidAcc = if SyncAt c s.phase (slide s.win d) then 0 else (work c d s).state.nidAcc := by
  rw [observe_eq]; simp [afterWork, work]

theorem observe_nidCnt (c : Cfg) (d : Sym) (s : State) :
    (observe c d s).nidCnt = if SyncAt c s.phase (slide s.win d) then 0 else (work c d s).state.nidCnt := by
  rw [observe_eq]; simp [afterWork, work]

theorem observe_frameDone (c : Cfg) (d : Sym) (s : State) : (observe c d s).frameDone = (work c d s).done := by
  rw [observe_eq]; rfl

theorem observe_body (c : Cfg) (d : Sym) (s : State) : (observe c d s).body = (work c d s).state.body := by
  rw [observe_eq]; rfl

theorem observe_bodyLen (c : Cfg) (d : Sym) (s : State) : (observe c d s).bodyLen = (work c d s).state.bodyLen := by
  rw [observe_eq]; rfl

theorem observe_cursor (c : Cfg) (d : Sym) (s : State) : (observe c d s).cursor = (work c d s).state.cursor := by
  rw [observe_eq]; rfl

theorem observe_nac (c : Cfg) (d : Sym) (s : State) : (observe c d s).nac = (work c d s).state.nac := by
  rw [observe_eq]; rfl

theorem observe_duid (c : Cfg) (d : Sym) (s : State) : (observe c d s).duid = (work c d s).state.duid := by
  rw [observe_eq]; rfl

theorem observe_par (c : Cfg) (d : Sym) (s : State) : (observe c d s).par = (work c d s).state.par := by
  rw [observe_eq]; rfl

theorem observe_nidCw (c : Cfg) (d : Sym) (s : State) : (observe c d s).nidCw = (work c d s).state.nidCw := by
  rw [observe_eq]; rfl

theorem observe_nidNerr (c : Cfg) (d : Sym) (s : State) : (observe c d s).nidNerr = (work c d s).state.nidNerr := by
  rw [observe_eq]; rfl

theorem observe_goodNids (c : Cfg) (d : Sym) (s : State) : (observe c d s).goodNids = (work c d s).state.goodNids := by
  rw [observe_eq]; rfl

theorem observe_badNids (c : Cfg) (d : Sym) (s : State) : (observe c d s).badNids = (work c d s).state.badNids := by
  rw [observe_eq]; rfl

theorem observe_ess (c : Cfg) (d : Sym) (s : State) :
    (observe c d s).ess = (if (observe c d s).frameDone then
      dispatchResult c (observe c d s).nac (observe c d s).duid (observe c d s).body s.ess else ⟨[], s.ess⟩).ess := by
  rw [observe_frameDone, observe_nac, observe_duid, observe_body, observe_eq]
  simp only [afterWork, work, phaseWork_ess, shiftWindow_ess, count_ess]
  rfl

theorem observe_events (c : Cfg) (d : Sym) (s : State) :
    (observe c d s).events = s.events ++ (if (observe c d s).frameDone then
      dispatchResult c (observe c d s).nac (observe c d s).duid (observe c d s).body s.ess else ⟨[], s.ess⟩).events ++
      (if s.StatDue then [statsEventOf (observe c d s)] else []) := by
  rw [observe_frameDone, observe_nac, observe_duid, observe_body, statsEventOf, observe_symbols, observe_syncs,
    observe_goodNids, observe_badNids, observe_eq]
  simp only [afterWork, work, statsEventOf, phaseWork_ess, shiftWindow_ess, count_ess, phaseWork_events,
    shiftWindow_events, count_events, phaseWork_statDiv, shiftWindow_statDiv, count_statDiv, phaseWork_symbols,
    shiftWindow_symbols, count_symbols, phaseWork_syncs, shiftWindow_syncs, count_syncs, phaseWork_win,
    shiftWindow_win, count_win]
  rfl

/-! ### The phase work of each phase -/

theorem work_search {s : State} (h : s.phase = .search) (c : Cfg) (d : Sym) :
    work c d s = ⟨shiftWindow d (count s), false⟩ := by
  rw [work, h]; rfl

theorem work_body {s : State} (h : s.phase = .body) (c : Cfg) (d : Sym) :
    work c d s = ⟨{ shiftWindow d (count s) with
      body := s.body.memWrite s.cursor d
      cursor := s.cursor + 2
      phase := if s.bodyLen ≤ s.cursor + 2 then .search else .body }, decide (s.bodyLen ≤ s.cursor + 2)⟩ := by
  rw [work, h]
  simp only [phaseWork, bodyWork, shiftWindow_bodyLen, shiftWindow_cursor, shiftWindow_body, count_bodyLen,
    count_cursor, count_body]
  by_cases hl : s.bodyLen ≤ s.cursor + 2
  · simp only [hl, decide_true, if_true]
  · simp only [hl, decide_false, if_false, ← h]
    rfl

theorem work_nid {s : State} (h : s.phase = .nid) (c : Cfg) (d : Sym) :
    work c d s = if s.nidCnt = 31 then decodeNid c (accumulate d (shiftWindow d (count s)))
      else ⟨accumulate d (shiftWindow d (count s)), false⟩ := by
  rw [work, h]
  simp only [phaseWork, nidWork, accumulate_nidCnt, shiftWindow_nidCnt, count_nidCnt]
  have : s.nidCnt + 1 = 32 ↔ s.nidCnt = 31 := by
    rw [← BitVec.toNat_inj, ← BitVec.toNat_inj, BitVec.toNat_add]
    have := s.nidCnt.isLt
    simp; omega
  simp only [this]

/-- An identifier that does not decode (R109). -/
theorem decodeNid_fail {c : Cfg} {s : State} (h : c.nidDecode s.nidAcc = .fail) :
    decodeNid c s = ⟨rejectNid s, false⟩ := by
  rw [decodeNid, h]

/-- An accepted identifier (R110). -/
theorem decodeNid_ok {c : Cfg} {s : State} {nac duid par cw nerr} (h : c.nidDecode s.nidAcc = .ok nac duid par cw nerr) :
    decodeNid c s = ⟨{ loadFrame c nac duid par cw nerr s with
      phase := if bodyLenOf c duid = 0 then .search else .body }, decide (bodyLenOf c duid = 0)⟩ := by
  rw [decodeNid, h]
  simp only [loadFrame_bodyLen]
  by_cases hl : bodyLenOf c duid = 0
  · simp only [hl, decide_true, if_true]
  · simp only [hl, decide_false, if_false]

end Sys2Proof.Machine
end

