-- ==== Sys2Proof/Laws/Processors.lean ====
section
/-! SUPPORT. What every frame-type processor can do, said once: the form and the number of its events, that they do not
depend on ESS, and which fields of ESS it may write. -/

namespace Sys2Proof.Machine

open Sys2Proof

/-! ### The blocks of a trunking frame -/

theorem tsbkBlocks_length_le (c : Cfg) (m : Memory) (offs : List Nat) (bs : List Block)
    (h : tsbkBlocks c m offs = some bs) : bs.length ≤ offs.length := by
  induction offs generalizing bs with
  | nil => simp only [tsbkBlocks, Option.some.injEq] at h; subst h; simp
  | cons off offs ih =>
    simp only [tsbkBlocks] at h
    split at h
    · cases h
    · split at h
      · simp only [Option.some.injEq] at h; subst h; simp
      · rw [Option.map_eq_some_iff] at h
        obtain ⟨bs', h', rfl⟩ := h
        simpa using ih bs' h'

theorem tsbkBlocks_pos (c : Cfg) (m : Memory) (off : Nat) (offs : List Nat) (bs : List Block)
    (h : tsbkBlocks c m (off :: offs) = some bs) : 0 < bs.length := by
  simp only [tsbkBlocks] at h
  split at h
  · cases h
  · split at h
    · simp only [Option.some.injEq] at h; subst h; simp
    · rw [Option.map_eq_some_iff] at h
      obtain ⟨bs', -, rfl⟩ := h
      simp

theorem tsbkOffsets_length (c : Cfg) : (tsbkOffsets c).length = c.tsbkMaxBlocks := by simp [tsbkOffsets]

/-! ### Events -/

/-- Every event of a processor is a decode event of its frame (R194). -/
theorem processor_event_form (c : Cfg) (t : FrameType) (h : Header) (m : Memory) (ess : Ess) :
    ∀ e ∈ (processor c t h m ess).events, ∃ fields, e = ev h fields := by
  intro e he
  cases t <;> simp only [processor, procHdu, procTdu, procLdu1, procTsbk, procLdu2, procPdu, procTdulc, evFail,
    headerEvent, pduHeaderEvent, pduMultiEvent] at he
  case tsbk =>
    split at he
    · exact ⟨_, List.mem_singleton.mp he⟩
    · obtain ⟨b, -, rfl⟩ := List.mem_map.mp he
      exact ⟨_, rfl⟩
  all_goals
    repeat' split at he
    all_goals exact ⟨_, List.mem_singleton.mp he⟩

/-- Every processor but TSBK's emits exactly one event (R197). -/
theorem processor_one_event (c : Cfg) (t : FrameType) (ht : t ≠ .tsbk) (h : Header) (m : Memory) (ess : Ess) :
    (processor c t h m ess).events.length = 1 := by
  cases t <;> simp only [processor, procHdu, procTdu, procLdu1, procLdu2, procPdu, procTdulc]
  case tsbk => exact absurd rfl ht
  all_goals
    repeat' split
    all_goals rfl

/-- TSBK emits one to TSBK_MAX_BLOCKS events (R197). -/
theorem processor_tsbk_events (c : Cfg) (hc : 1 ≤ c.tsbkMaxBlocks) (h : Header) (m : Memory) (ess : Ess) :
    1 ≤ (processor c .tsbk h m ess).events.length ∧ (processor c .tsbk h m ess).events.length ≤ c.tsbkMaxBlocks := by
  simp only [processor, procTsbk]
  split
  · exact ⟨le_refl _, hc⟩
  · next bs hb =>
    have h1 := tsbkBlocks_length_le _ _ _ _ hb
    rw [tsbkOffsets_length] at h1
    refine ⟨?_, by simpa using h1⟩
    have : tsbkOffsets c ≠ [] := by
      intro h0
      have := congrArg List.length h0
      rw [tsbkOffsets_length] at this
      simp at this; omega
    obtain ⟨off, offs, ho⟩ := List.exists_cons_of_ne_nil this
    rw [ho] at hb
    simpa [Nat.succ_le_iff] using tsbkBlocks_pos _ _ _ _ _ hb

/-- At most TSBK_MAX_BLOCKS events a frame (R210). -/
theorem processor_events_le (c : Cfg) (hc : 1 ≤ c.tsbkMaxBlocks) (t : FrameType) (h : Header) (m : Memory) (ess : Ess) :
    (processor c t h m ess).events.length ≤ c.tsbkMaxBlocks := by
  by_cases ht : t = .tsbk
  · subst ht; exact (processor_tsbk_events c hc h m ess).2
  · rw [processor_one_event c t ht]; exact hc

/-- The events do not depend on ESS, and what is written to ESS depends on it only where it is left alone (C10). -/
theorem processor_events_ess (c : Cfg) (t : FrameType) (h : Header) (m : Memory) (ess ess' : Ess) :
    (processor c t h m ess).events = (processor c t h m ess').events := by
  cases t <;> simp only [processor, procHdu, procTdu, procLdu1, procTsbk, procLdu2, procPdu, procTdulc]
  all_goals
    repeat' split
    all_goals rfl

/-! ### ESS -/

/-- The processors of TDU, TSBK, PDU and TDULC never write ESS (R34, R195). -/
theorem processor_keeps_ess (c : Cfg) (t : FrameType) (h1 : t ≠ .hdu) (h2 : t ≠ .ldu1) (h3 : t ≠ .ldu2) (h : Header)
    (m : Memory) (ess : Ess) : (processor c t h m ess).ess = ess := by
  cases t <;> simp only [processor, procTdu, procTsbk, procPdu, procTdulc]
  case hdu => exact absurd rfl h1
  case ldu1 => exact absurd rfl h2
  case ldu2 => exact absurd rfl h3
  all_goals
    repeat' split
    all_goals rfl

/-- LDU1 writes the talkgroup only (R34, R178). -/
theorem processor_ldu1_ess (c : Cfg) (h : Header) (m : Memory) (ess : Ess) :
    { (processor c .ldu1 h m ess).ess with tgid := ess.tgid } = ess := by
  simp only [processor, procLdu1, lcwEss]
  repeat' split
  all_goals rfl

/-- LDU2 never writes the talkgroup (R34, R183). -/
theorem processor_ldu2_tgid (c : Cfg) (h : Header) (m : Memory) (ess : Ess) :
    (processor c .ldu2 h m ess).ess.tgid = ess.tgid := by
  simp only [processor, procLdu2, ldu2Ess]
  repeat' split
  all_goals rfl

/-! ### The dispatch -/

theorem dispatchResult_event_form (c : Cfg) (nac : BitVec 12) (duid : BitVec 4) (m : Memory) (ess : Ess) :
    ∀ e ∈ (dispatchResult c nac duid m ess).events, ∃ fields, e = ev ⟨nac, duid⟩ fields := by
  unfold dispatchResult
  split
  · simp
  · split
    · intro e he; exact processor_event_form _ _ _ _ _ e he
    · simp

theorem dispatchResult_events_le (c : Cfg) (hc : 1 ≤ c.tsbkMaxBlocks) (nac : BitVec 12) (duid : BitVec 4) (m : Memory)
    (ess : Ess) : (dispatchResult c nac duid m ess).events.length ≤ c.tsbkMaxBlocks := by
  unfold dispatchResult
  split
  · simp
  · split
    · exact processor_events_le c hc ..
    · simp

theorem dispatchResult_events_ess (c : Cfg) (nac : BitVec 12) (duid : BitVec 4) (m : Memory) (ess ess' : Ess) :
    (dispatchResult c nac duid m ess).events = (dispatchResult c nac duid m ess').events := by
  unfold dispatchResult
  split
  · rfl
  · split
    · exact processor_events_ess ..
    · rfl

end Sys2Proof.Machine
end

