-- ==== Sys2Proof/Laws/Operands.lean ====
section
/-! SUPPORT. What the processors take out of the body: hexbit vectors and data strings, block runs, voice fields; and
the digits of rendered values. -/

namespace Sys2Proof.Machine

open Sys2Proof

/-- Where the received hexbits of a shortened vector stand (R82). -/
theorem hexVecOf_get (l : List Hexbit) (h : l.length ≤ 63) (q : Nat) (hq : q < 63) :
    (hexVecOf l)[q] = if h' : 63 - l.length ≤ q then l[q - (63 - l.length)] else 0 := by
  rw [hexVecOf, Vector.getElem_ofFn]
  simp only
  by_cases h' : 63 - l.length ≤ q
  · rw [dif_pos h', List.getD_eq_getElem?_getD, List.getElem?_append_right (by simpa using h'), List.length_replicate,
      List.getElem?_eq_getElem (by omega)]; rfl
  · rw [dif_neg h', List.getD_eq_getElem?_getD, List.getElem?_append_left (by simp; omega), List.getElem?_replicate]
    rw [if_pos (by omega)]; rfl

/-- The length of a run of hexbits. -/
theorem hexRun_length (hb : HexVec) (lo n : Nat) (h : lo + n ≤ 63) : (hexRun hb lo n).length = n := by
  simp [hexRun]; omega

/-- The hexbits of a run. -/
theorem hexRun_get (hb : HexVec) (lo n j : Nat) (h : lo + n ≤ 63) (hj : j < n) :
    (hexRun hb lo n)[j]'(by rw [hexRun_length hb lo n h]; exact hj) = hb[lo + j] := by
  simp [hexRun]

/-- Hexbit j of a data string cut out of a hexbit vector (R81). -/
theorem slice_hexRun (n : Nat) (hb : HexVec) (lo j : Nat) (h : lo + n ≤ 63) (hj : j < n) :
    (Bits.ofHexbits (6 * n) (hexRun hb lo n)).extractLsb' (6 * (n - 1 - j)) 6 = hb[lo + j] := by
  rw [Bits.ofHexbits_slice n _ (hexRun_length hb lo n h) j hj, hexRun_get hb lo n j h hj]

/-- The hexbits of a voice frame (R177). -/
theorem lduHexbits_fst (c : Cfg) (m : Memory) (pos : Fin 24 → Fin 10 → Nat) (q : Fin 63) :
    (lduHexbits c m pos).1[q] = if h : 39 ≤ q.val then c.hamDec (m.gather (pos ⟨q.val - 39, by omega⟩)) else 0 := by
  show (hexVecOf _)[q.val] = _
  have hlen : ((lduWords c m pos).map HamResult.value).length = 24 := by simp [lduWords]
  rw [hexVecOf_get _ (by omega) _ q.isLt]
  simp only [hlen]
  by_cases h : 39 ≤ q.val
  · rw [dif_pos h, dif_pos h]; simp [lduWords, hamDecode]
  · rw [dif_neg h, dif_neg h]

/-- The mismatch count of a voice frame (R177). -/
theorem lduHexbits_snd (c : Cfg) (m : Memory) (pos : Fin 24 → Fin 10 → Nat) :
    (lduHexbits c m pos).2 =
        (List.finRange 24).countP fun i => m.gather (pos i) != c.hamEnc (c.hamDec (m.gather (pos i))) := by
  simp only [lduHexbits, mismCount, List.countP_map, lduWords]
  rfl

/-- The two hexbits of word i of a terminator with link control (R191). -/
theorem tdulc_get (c : Cfg) (m : Memory) (i : Fin 12) (b : Nat) (hb : b < 2) :
    (tdulcHexbits c m)[2 * i.val + b]? =
        some (((g24Decode c (m.gather (c.tdulcCwPos i))).value).extractLsb' (6 - 6 * b) 6) := by
  have h := Bits.take_drop_flatMap (fun i : Fin 12 => [((g24Decode c (m.gather (c.tdulcCwPos i))).value).extractLsb' 6 6, ((g24Decode c (m.gather (c.tdulcCwPos i))).value).extractLsb' 0 6]) 2 (List.finRange 12) (fun _ => rfl) i.val (by simp)
  have h2 := congrArg (fun l => l[b]?) h
  simp only [List.getElem?_take, hb, if_true, List.getElem?_drop] at h2
  unfold tdulcHexbits
  rw [h2]
  interval_cases b <;> simp

/-- When the trunking blocks fail: at the first segment that fails, no block before it being the last (R184, R185). -/
theorem tsbkBlocks_none (c : Cfg) (m : Memory) (offs : List Nat) (h : tsbkBlocks c m offs = none) :
    ∃ (n : Nat) (hn : n < offs.length), (∀ (k : Nat) (hk : k < n), ∃ b,
        trellisDecode c m (offs[k]'(Nat.lt_trans hk hn)) = some b ∧ lastBlock b = false) ∧
      trellisDecode c m offs[n] = none := by
  induction offs with
  | nil => simp [tsbkBlocks] at h
  | cons off offs ih =>
    simp only [tsbkBlocks] at h
    split at h
    · next hd => exact ⟨0, by simp, fun k hk => absurd hk (Nat.not_lt_zero _), hd⟩
    · next b hb =>
      split at h
      · cases h
      · next hl =>
        rw [Option.map_eq_none_iff] at h
        obtain ⟨n, hn, h1, h2⟩ := ih h
        refine ⟨n + 1, by simpa using hn, fun k hk => ?_, by simpa using h2⟩
        cases k with
        | zero => exact ⟨b, hb, by simpa using hl⟩
        | succ k => simpa using h1 k (by omega)

/-- The trunking blocks decoded: in order, up to and with the first last block (R184, R185). -/
theorem tsbkBlocks_some (c : Cfg) (m : Memory) (offs : List Nat) (bs : List Block)
    (h : tsbkBlocks c m offs = some bs) :
    bs.length ≤ offs.length ∧ ∀ (k : Nat) (hk : k < bs.length) (hk' : k < offs.length), trellisDecode c m offs[k] =
        some bs[k] ∧
      (k + 1 < bs.length → lastBlock bs[k] = false) ∧
          (k + 1 = bs.length → lastBlock bs[k] = true ∨ bs.length = offs.length) := by
  induction offs generalizing bs with
  | nil => simp only [tsbkBlocks, Option.some.injEq] at h; subst h; simp
  | cons off offs ih =>
    simp only [tsbkBlocks] at h
    split at h
    · cases h
    · next b hb =>
      split at h
      · next hl =>
        simp only [Option.some.injEq] at h; subst h
        refine ⟨by simp, fun k hk hk' => ?_⟩
        simp only [List.length_singleton] at hk
        obtain rfl : k = 0 := by omega
        exact ⟨hb, fun h => by simp at h, fun _ => .inl hl⟩
      · next hl =>
        rw [Option.map_eq_some_iff] at h
        obtain ⟨bs', h', rfl⟩ := h
        obtain ⟨h1, h2⟩ := ih bs' h'
        refine ⟨by simpa using h1, fun k hk hk' => ?_⟩
        cases k with
        | zero =>
          refine ⟨hb, fun _ => by simpa using hl, fun h => .inr ?_⟩
          simp only [List.length_cons] at h ⊢
          have h0 : bs' = [] := List.eq_nil_of_length_eq_zero (by omega)
          subst h0
          cases offs with
          | nil => rfl
          | cons o os => exact absurd (tsbkBlocks_pos _ _ _ _ _ h') (by simp)
        | succ k =>
          simp only [List.length_cons, List.getElem_cons_succ] at hk hk' ⊢
          obtain ⟨a1, a2, a3⟩ := h2 k (by omega) (by omega)
          exact ⟨a1, fun h => a2 (by omega), fun h => (a3 (by omega)).imp id (by omega)⟩

/-- When the data blocks fail. -/
theorem pduBlocks_none (c : Cfg) (m : Memory) (offs : List Nat) (h : pduBlocks c m offs = none) :
    ∃ (n : Nat) (hn : n < offs.length), trellisDecode c m offs[n] = none := by
  induction offs with
  | nil => simp [pduBlocks] at h
  | cons off offs ih =>
    simp only [pduBlocks] at h
    split at h
    · next hd => exact ⟨0, by simp, hd⟩
    · rw [Option.map_eq_none_iff] at h
      obtain ⟨n, hn, h2⟩ := ih h
      exact ⟨n + 1, by simpa using hn, by simpa using h2⟩

/-- The data blocks decoded, in order (R187). -/
theorem pduBlocks_some (c : Cfg) (m : Memory) (offs : List Nat) (bs : List Block) (h : pduBlocks c m offs = some bs) :
    bs.length = offs.length ∧ ∀ (k : Nat) (hk : k < bs.length) (hk' : k < offs.length), trellisDecode c m offs[k] =
        some bs[k] := by
  induction offs generalizing bs with
  | nil => simp only [pduBlocks, Option.some.injEq] at h; subst h; simp
  | cons off offs ih =>
    simp only [pduBlocks] at h
    split at h
    · cases h
    · next b hb =>
      rw [Option.map_eq_some_iff] at h
      obtain ⟨bs', h', rfl⟩ := h
      obtain ⟨h1, h2⟩ := ih bs' h'
      refine ⟨by simpa using h1, fun k hk hk' => ?_⟩
      cases k with
      | zero => exact hb
      | succ k =>
        simp only [List.length_cons, List.getElem_cons_succ] at hk hk' ⊢
        exact h2 k (by omega) (by omega)

/-- The multi-block condition (R189). -/
theorem isMultiBlock_iff (c : Cfg) (h : Block) : isMultiBlock c h = true ↔
   ((c.pduSap h).toNat = 61 ∧ (c.pduFmt h).toNat ∈ c.pduMbtFmts ∧ 1 ≤ (c.pduBlks h).toNat ∧
       (c.pduBlks h).toNat ≤ c.pduMaxBlocks - 1) := by
  simp [isMultiBlock, PDU_MBT_SAP, and_assoc]

/-- A payload has 96 bits a block. -/
theorem payloadBits_length (d : List Block) : (payloadBits d).length = 96 * d.length := by
  rw [payloadBits, Bits.bytesBits_length, Bits.flatMap_length _ 12 _ (fun b => by simp)]
  omega

/-- A value is its upper part and its lower part. -/
theorem split_append {m n : Nat} (x : BitVec (m + n)) : x.extractLsb' n m ++ x.extractLsb' 0 n = x := by
  apply BitVec.eq_of_getLsbD_eq
  intro i hi
  rw [BitVec.getLsbD_append]
  split
  · next h => simp [h]
  · next h => simp [show i - n < m by omega, show n + (i - n) = i by omega]

/-- VOICE_DEINT depends on the body bits at the segment's row only (R201). -/
theorem voiceDeint_congr (c : Cfg) (m m' : Memory) (g : Fin 9)
    (h : ∀ j, m'.read (c.voicePos g j) = m.read (c.voicePos g j)) :
    voiceDeint c m' g = voiceDeint c m g := by
  unfold voiceDeint
  congr 1 <;> exact Memory.gather_congr (fun j => h _)

/-- At the default thresholds: a header with 6 mismatching words passes and one with 7 does not; a voice frame with 6
does not get its Reed-Solomon part, and one with 16 does not get its voice (R7). -/
theorem thresholds_at_defaults (c : Cfg) (h : c.AtDefaults) (m : Nat) :
    (headerPasses c m ↔ ¬ 6 < m) ∧ (lcPasses c m ↔ m < 6) ∧ (voicePasses c m ↔ m < 16) := by
  simp [headerPasses, lcPasses, voicePasses, h.hduMismMax_eq, h.lcMismLim_eq, h.voiceMismLim_eq]

/-- The last digit of a hexadecimal text. -/
theorem hexText_succ (d n : Nat) : hexText (d + 1) n = hexText d (n >>> 4) ++ [hexDigit n] := by
  unfold hexText
  rw [List.range_succ, List.map_append]
  congr 1
  · apply List.map_congr_left
    intro i hi
    have := List.mem_range.mp hi
    rw [← Nat.shiftRight_add]
    congr 2; omega
  · simp

/-- The sixteen digits, lower case. -/
theorem hexDigit_mem (n : Nat) :
    hexDigit n ∈ "0123456789abcdef".toList ∧ "0123456789abcdef".toList.idxOf (hexDigit n) = n % 16 := by
  unfold hexDigit
  have h : n % 16 < 16 := Nat.mod_lt _ (by decide)
  generalize n % 16 = k at h
  revert k
  decide

/-- A hexadecimal text: its length, its alphabet, and the number it reads back as. -/
theorem hexText_spec (d n : Nat) : (hexText d n).length = d ∧
    (∀ ch ∈ hexText d n, ch ∈ "0123456789abcdef".toList) ∧
    (hexText d n).foldl (fun acc ch => 16 * acc + "0123456789abcdef".toList.idxOf ch) 0 = n % 16 ^ d := by
  induction d generalizing n with
  | zero => simp [hexText, Nat.mod_one]
  | succ d ih =>
    obtain ⟨h1, h2, h3⟩ := ih (n >>> 4)
    obtain ⟨g1, g2⟩ := hexDigit_mem n
    rw [hexText_succ]
    refine ⟨by simp [h1], fun ch hch => ?_, ?_⟩
    · rcases List.mem_append.mp hch with h | h
      · exact h2 ch h
      · rw [List.mem_singleton.mp h]; exact g1
    · rw [List.foldl_append, h3]
      simp only [List.foldl_cons, List.foldl_nil, g2]
      rw [Nat.shiftRight_eq_div_pow, show (2 : Nat) ^ 4 = 16 from rfl, Nat.pow_succ', Nat.mod_mul, Nat.add_comm]

/-- The text of a buffer is two digits for each byte, the upper four bits first. -/
theorem bufferText_cons (b : Byte) (bytes : List Byte) :
    bufferText (b :: bytes) = hexDigit (b.toNat / 16) :: hexDigit b.toNat :: bufferText bytes := by
  have : hexText 2 b.toNat = [hexDigit (b.toNat / 16), hexDigit b.toNat] := by
    simp [hexText, List.range_succ, Nat.shiftRight_eq_div_pow]
  rw [bufferText, List.flatMap_cons, this]
  rfl

/-- A decimal text: never empty, only decimal digits, the number it reads back as, and no leading zero. -/
theorem decText_spec (n : Nat) : Nat.toDigits 10 n ≠ [] ∧ (∀ ch ∈ Nat.toDigits 10 n, ch ∈ "0123456789".toList) ∧
    (Nat.toDigits 10 n).foldl (fun acc ch => 10 * acc + "0123456789abcdef".toList.idxOf ch) 0 = n ∧
    ((Nat.toDigits 10 n).head? = some '0' → Nat.toDigits 10 n = ['0']) := by
  have hd : ∀ k < 10, Nat.digitChar k ∈ "0123456789".toList ∧
      "0123456789abcdef".toList.idxOf (Nat.digitChar k) = k ∧ (Nat.digitChar k = '0' → k = 0) := by decide
  induction n using Nat.strong_induction_on with
  | _ n ih =>
    by_cases h : n < 10
    · obtain ⟨h1, h2, h3⟩ := hd n h
      rw [Nat.toDigits_of_lt_base h]
      refine ⟨by simp, by simpa using h1, by simpa using h2, fun h0 => ?_⟩
      simpa using h0
    · obtain ⟨g1, g2, g3, g4⟩ := ih (n / 10) (by omega)
      obtain ⟨h1, h2, -⟩ := hd (n % 10) (by omega)
      rw [Nat.toDigits_of_base_le (by decide) (by omega)]
      refine ⟨by simp, fun ch hch => ?_, ?_, fun h0 => ?_⟩
      · rcases List.mem_append.mp hch with hc | hc
        · exact g2 ch hc
        · rw [List.mem_singleton.mp hc]; exact h1
      · rw [List.foldl_append, g3]
        simp only [List.foldl_cons, List.foldl_nil, h2]
        omega
      · rw [List.head?_append_of_ne_nil _ g1] at h0
        rw [g4 h0] at g3
        have : "0123456789abcdef".toList.idxOf '0' = 0 := by decide
        simp only [List.foldl_cons, List.foldl_nil, this] at g3
        omega

/-- The fields of an event line are joined by a comma and one space (R212). -/
theorem fieldsText_eq (fields : List (FieldName × Value)) :
    fieldsText fields = List.intercalate [',', ' '] (fields.map fun f => nameText f.1.text ++ f.2.render) := by
  induction fields with
  | nil => rfl
  | cons f fs ih =>
    cases fs with
    | nil => simp [fieldsText, List.intercalate]
    | cons g gs =>
      rw [fieldsText, ih]
      simp [List.intercalate]

end Sys2Proof.Machine
end

