-- ==== Sys2Proof/Laws/PerInstr.lean ====
section
/-! SUPPORT. Per-instruction family EncodeRow: the words the encoder lays out for an operation are matched by a row of
the opcode table that carries the operation's own mnemonic, and by no row before it (R70, R76, R90). -/

namespace Sys2Proof.Laws.EncodeRow

open Sys2Proof Sys2Proof.Machine

/-- The first row of the opcode table that the encoding of a well-formed operation matches is its own. -/
def Statement (i : Instr) : Prop :=
  i.wellFormed Config.cfg.duid = true → tableMnemonic (encode i) = some i.mnemonic

/-- The row of an information word with a nonzero NAC and the code of a recognized type. -/
theorem type_row (nac : BitVec 12) (h : (nac != 0) = true) (t : FrameType) :
    tableMnemonic (.info (nac ++ Config.cfg.duid t)) = some (match t with
      | .hdu => "HDU"
      | .tdu => "TDU"
      | .ldu1 => "LDU1"
      | .tsbk => "TSBK"
      | .ldu2 => "LDU2"
      | .pdu => "PDU"
      | .tdulc => "TDULC") := by
  have h0 : (nac == 0) = false := by simpa using h
  rw [tableMnemonic_nid _ nac (Config.cfg.duid t) rfl, h0, codesOf,
    typeOfCode_code Config.cfg_wellFormed.duid_distinct]
  cases t <;> rfl

/-- The row of a unit, by its select code. -/
theorem unit_row (sel : BitVec 4) (bits : List Bool) (m : String) (hm : tableMnemonic (.unit sel []) = some m) {p : Prop} :
    p → tableMnemonic (.unit sel bits) = some m := fun _ => (selects_unit sel bits).trans hm

theorem idle (ignored : BitVec 2) : Statement (.idle ignored) := by
  revert ignored; unfold Statement; decide

theorem observe (sym : Sym) : Statement (.observe sym) := by
  revert sym; unfold Statement; decide

theorem statsClear (ignored : BitVec 2) : Statement (.statsClear ignored) := by
  revert ignored; unfold Statement; decide

theorem clearObserve (sym : Sym) : Statement (.clearObserve sym) := by
  revert sym; unfold Statement; decide

theorem reset (word : BitVec 4) : Statement (.reset word) := by
  revert word; unfold Statement; decide

theorem discard (duid : BitVec 4) : Statement (.discard duid) := by
  intro _
  exact tableMnemonic_nid _ 0 duid rfl

theorem hdu (nac : BitVec 12) : Statement (.hdu nac) := fun h => type_row nac h .hdu

theorem tdu (nac : BitVec 12) : Statement (.tdu nac) := fun h => type_row nac h .tdu

theorem ldu1 (nac : BitVec 12) : Statement (.ldu1 nac) := fun h => type_row nac h .ldu1

theorem tsbk (nac : BitVec 12) : Statement (.tsbk nac) := fun h => type_row nac h .tsbk

theorem ldu2 (nac : BitVec 12) : Statement (.ldu2 nac) := fun h => type_row nac h .ldu2

theorem pdu (nac : BitVec 12) : Statement (.pdu nac) := fun h => type_row nac h .pdu

theorem tdulc (nac : BitVec 12) : Statement (.tdulc nac) := fun h => type_row nac h .tdulc

theorem unrec (nac : BitVec 12) (duid : BitVec 4) : Statement (.unrec nac duid) := by
  intro h
  simp only [Instr.wellFormed, Bool.and_eq_true, Bool.not_eq_true'] at h
  have h0 : (nac == 0) = false := by simpa using h.1
  show tableMnemonic (.info (nac ++ duid)) = _
  rw [tableMnemonic_nid _ nac duid rfl, h0, codesOf, (typeOfCode_none _ duid).mpr h.2]
  rfl

theorem g24Dec (w : BitVec 24) : Statement (.g24Dec w) := unit_row 0x0 _ "G24_DEC" (by decide)

theorem g24Enc (v : BitVec 12) : Statement (.g24Enc v) := unit_row 0x1 _ "G24_ENC" (by decide)

theorem rs6355 (hb : HexVec) : Statement (.rs6355 hb) := unit_row 0x2 _ "RS_63_55" (by decide)

theorem rs6351 (hb : HexVec) : Statement (.rs6351 hb) := unit_row 0x3 _ "RS_63_51" (by decide)

theorem rs6347 (hb : HexVec) : Statement (.rs6347 hb) := unit_row 0x4 _ "RS_63_47" (by decide)

theorem hamDec (w : BitVec 10) : Statement (.hamDec w) := unit_row 0x5 _ "HAM_DEC" (by decide)

theorem hamEnc (v : BitVec 6) : Statement (.hamEnc v) := unit_row 0x6 _ "HAM_ENC" (by decide)

theorem trellisDec (off : Nat) : Statement (.trellisDec off) := unit_row 0x7 _ "TRELLIS_DEC" (by decide)

theorem crc16 (bytes : List Byte) : Statement (.crc16 bytes) := unit_row 0x8 _ "CRC16" (by decide)

theorem crc32 (bits : List Bool) : Statement (.crc32 bits) := unit_row 0x9 _ "CRC32" (by decide)

theorem voiceDeint (s : Fin 9) : Statement (.voiceDeint s) := unit_row 0xA _ "VOICE_DEINT" (by decide)

theorem voicePack (u : VoiceFields) : Statement (.voicePack u) := unit_row 0xB _ "VOICE_PACK" (by decide)

theorem nidDec (w : BitVec 64) : Statement (.nidDec w) := unit_row 0xC _ "NID_DEC" (by decide)

theorem fuReserved (sel : BitVec 4) : Statement (.fuReserved sel) := by
  revert sel; unfold Statement; decide

end Sys2Proof.Laws.EncodeRow
end

