-- ==== Sys2Proof/Laws/Run.lean ====
section
/-! SUPPORT. What every operation leaves alone, the invariant under OBSERVE, and runs of symbols. -/

namespace Sys2Proof.Machine

open Sys2Proof

/-- The three phases (R23). -/
theorem phase_cases (p : Phase) : p = .search ∨ p = .nid ∨ p = .body := by cases p <;> simp

/-- What a step emits beside the decode events is a statistics event. -/
theorem stat_kind {e : Event} {p : Prop} [Decidable p] {s : State} (h : e ∈ (if p then [statsEventOf s] else [])) :
    e.kind = .stats := by
  split at h <;> simp at h; rw [h]; rfl

/-- The phase work adds at most 1 to each identifier counter (R109, R110). -/
theorem work_goodbad (c : Cfg) (d : Sym) (s : State) :
    ((work c d s).state.goodNids = s.goodNids ∨ (work c d s).state.goodNids = s.goodNids + 1) ∧
    ((work c d s).state.badNids = s.badNids ∨ (work c d s).state.badNids = s.badNids + 1) := by
  cases hq : s.phase with
  | search => rw [work_search hq]; simp
  | body => rw [work_body hq]; simp
  | nid =>
    rw [work_nid hq]
    split
    · cases hd : c.nidDecode (accumulate d (shiftWindow d (count s))).nidAcc with
      | fail => rw [decodeNid_fail hd]; simp
      | ok => rw [decodeNid_ok hd]; simp
    · simp

/-- The phase work does not look at ESS. -/
theorem work_withEss (c : Cfg) (d : Sym) (s : State) (e : Ess) :
    work c d { s with ess := e } = ⟨{ (work c d s).state with ess := e }, (work c d s).done⟩ := by
  rcases phase_cases s.phase with hq | hq | hq
  · rw [work_search hq, work_search (by exact hq)]; rfl
  · rw [work_nid hq, work_nid (by exact hq)]
    by_cases h : s.nidCnt = 31
    · rw [if_pos h, if_pos (by exact h)]
      cases hd : c.nidDecode (accumulate d (shiftWindow d (count s))).nidAcc with
      | fail => rw [decodeNid_fail hd, decodeNid_fail (by exact hd)]; rfl
      | ok => rw [decodeNid_ok hd, decodeNid_ok (by exact hd)]; rfl
    · rw [if_neg h, if_neg (by exact h)]; rfl
  · rw [work_body hq, work_body (by exact hq)]; rfl

/-- OBSERVE looks at ESS only to write ESS (R34). -/
theorem observe_withEss (c : Cfg) (d : Sym) (s : State) (e : Ess) :
    { observe c d { s with ess := e } with ess := (observe c d s).ess } = observe c d s := by
  have h1 : (observe c d { s with ess := e }).frameDone = (observe c d s).frameDone := by
    rw [observe_frameDone, observe_frameDone, work_withEss]
  have h2 : (observe c d { s with ess := e }).nac = (observe c d s).nac := by
    rw [observe_nac, observe_nac, work_withEss]
  have h3 : (observe c d { s with ess := e }).duid = (observe c d s).duid := by
    rw [observe_duid, observe_duid, work_withEss]
  have h4 : (observe c d { s with ess := e }).body = (observe c d s).body := by
    rw [observe_body, observe_body, work_withEss]
  have h5 : (observe c d { s with ess := e }).goodNids = (observe c d s).goodNids := by
    rw [observe_goodNids, observe_goodNids, work_withEss]
  have h6 : (observe c d { s with ess := e }).badNids = (observe c d s).badNids := by
    rw [observe_badNids, observe_badNids, work_withEss]
  apply State.eq_of_fields
  case h18 => rfl
  case h20 =>
    show (observe c d { s with ess := e }).events = _
    rw [observe_events, observe_events, h1, h2, h3, h4]
    have : statsEventOf (observe c d { s with ess := e }) = statsEventOf (observe c d s) := by
      simp only [statsEventOf, observe_symbols, observe_syncs, h5, h6]
    rw [this]
    congr 2
    split
    · exact dispatchResult_events_ess ..
    · rfl
  all_goals simp only [observe_win, observe_phase, observe_nidCnt, observe_nidAcc, observe_bodyLen, observe_cursor,
      observe_body, observe_nac, observe_duid, observe_par, observe_nidCw, observe_nidNerr, observe_symbols,
      observe_syncs, observe_goodNids, observe_badNids, observe_statDiv, observe_frameDone, observe_unitOut,
      observe_input, work_withEss]

/-- The phase work does not look at the inputs to come. -/
theorem work_withInput (c : Cfg) (d : Sym) (s : State) (x : List Presented) :
    work c d { s with input := x } = ⟨{ (work c d s).state with input := x }, (work c d s).done⟩ := by
  rcases phase_cases s.phase with hq | hq | hq
  · rw [work_search hq, work_search (by exact hq)]; rfl
  · rw [work_nid hq, work_nid (by exact hq)]
    by_cases h : s.nidCnt = 31
    · rw [if_pos h, if_pos (by exact h)]
      cases hd : c.nidDecode (accumulate d (shiftWindow d (count s))).nidAcc with
      | fail => rw [decodeNid_fail hd, decodeNid_fail (by exact hd)]; rfl
      | ok => rw [decodeNid_ok hd, decodeNid_ok (by exact hd)]; rfl
    · rw [if_neg h, if_neg (by exact h)]; rfl
  · rw [work_body hq, work_body (by exact hq)]; rfl

/-- OBSERVE does not look at the inputs to come. -/
theorem observe_withInput (c : Cfg) (d : Sym) (s : State) (x : List Presented) :
    observe c d { s with input := x } = { observe c d s with input := x } := by
  have h := work_withInput c d s x
  unfold work at h
  rw [observe_eq, observe_eq, h]
  rfl

/-- No operation touches the inputs to come. -/
theorem exec_input (i : Instr) (s t : State) (h : exec i s = .next t) : t.input = s.input := by
  cases i
  case trellisDec off =>
    simp only [exec, execTrellisDec] at h
    split at h <;> cases h
    rfl
  all_goals (cases h <;> simp [runRow, runProcessor])

/-- Every body fits into the buffer (R6). -/
theorem bodyLenOf_le (d : BitVec 4) : evenUp (bodyLenOf Config.cfg d) ≤ Config.cfg.bodyMax := by
  unfold bodyLenOf
  split
  · exact Config.cfg_wellFormed.bodyLen_le _
  · exact Config.cfg_wellFormed.bodyLenUnrec_le

/-- The invariant does not depend on the outputs, the inputs and ESS. -/
theorem inv_setOutputs {s : State} (h : s.Inv) (f : Bool) (es : List Event) (u : Option UnitResult)
    (i : List Presented) (e : Ess)
    (hes : es.length ≤ Config.cfg.tsbkMaxBlocks + 1) :
        ({ s with frameDone := f, events := es, unitOut := u, input := i, ess := e } : State).Inv :=
  { h with events_le := hes }

/-- The phase work keeps the invariant (R25). -/
theorem work_inv {s : State} (h : s.Inv) (d : Sym) : (work Config.cfg d s).state.body.wf = true ∧
    (work Config.cfg d s).state.body.within Config.cfg.bodyMax = true ∧
    (work Config.cfg d s).state.nidCnt.toNat < 32 ∧
    ((work Config.cfg d s).state.phase ≠ .nid → (work Config.cfg d s).state.nidCnt = 0) ∧
    evenUp (work Config.cfg d s).state.bodyLen ≤ Config.cfg.bodyMax ∧
    (work Config.cfg d s).state.cursor % 2 = 0 ∧
    (work Config.cfg d s).state.cursor ≤ evenUp (work Config.cfg d s).state.bodyLen ∧
    ((work Config.cfg d s).state.phase =
        .body → (work Config.cfg d s).state.cursor < (work Config.cfg d s).state.bodyLen) ∧
    (work Config.cfg d s).state.nidNerr.toNat ≤ 64 := by
  rcases phase_cases s.phase with hq | hq | hq
  · rw [work_search hq]
    exact ⟨h.body_wf, h.body_within, h.nidCnt_lt, h.nidCnt_zero, h.bodyLen_le, h.cursor_even, h.cursor_le,
        h.cursor_lt, h.nidNerr_le⟩
  · rw [work_nid hq]
    by_cases h31 : s.nidCnt = 31
    · rw [if_pos h31]
      cases hd : Config.cfg.nidDecode (accumulate d (shiftWindow d (count s))).nidAcc with
      | fail =>
        rw [decodeNid_fail hd]
        refine ⟨h.body_wf, h.body_within, by simp, fun _ => rfl, h.bodyLen_le, h.cursor_even, h.cursor_le,
            fun h => by simp at h, h.nidNerr_le⟩
      | ok nac duid par cw nerr =>
        rw [decodeNid_ok hd]
        refine ⟨h.body_wf, h.body_within, by simp, fun _ => rfl, bodyLenOf_le _, rfl, Nat.zero_le _, fun h => ?_, ?_⟩
        · simp at h ⊢; omega
        · have hn : nerr ≤ 64 := by rw [Config.cfg_wellFormed.nid_nerr _ _ _ _ _ _ hd]; exact Bits.dist_le _ _
          show (BitVec.ofNat 7 nerr).toNat ≤ 64
          simp; omega
    · rw [if_neg h31]
      have h1 := h.nidCnt_lt
      have h2 : s.nidCnt.toNat ≠ 31 := fun h' => h31 (BitVec.eq_of_toNat_eq h')
      refine ⟨h.body_wf, h.body_within, ?_, fun hp => absurd hq hp, h.bodyLen_le, h.cursor_even, h.cursor_le,
          h.cursor_lt, h.nidNerr_le⟩
      show (s.nidCnt + 1).toNat < 32
      rw [BitVec.toNat_add]; simp; omega
  · rw [work_body hq]
    have h1 := h.cursor_lt hq
    have h2 := h.cursor_even
    have h3 := h.bodyLen_le
    have h4 := h.cursor_le
    have h5 := h.nidCnt_zero (by rw [hq]; decide)
    have h6 : s.cursor + 2 ≤ evenUp s.bodyLen := by unfold evenUp; omega
    refine ⟨Memory.memWrite_two_wf _ h.body_wf _ _, Memory.memWrite_two_within _ _ h.body_within _ _ (by omega),
        h.nidCnt_lt, fun _ => h5, h3, ?_, h6, fun hp => ?_, h.nidNerr_le⟩
    · show (s.cursor + 2) % 2 = 0; omega
    · show s.cursor + 2 < s.bodyLen
      by_contra hl
      simp [show s.bodyLen ≤ s.cursor + 2 by omega] at hp

/-- OBSERVE keeps the invariant. -/
theorem observe_inv {s : State} (h : s.Inv) (he : s.events = []) (d : Sym) : (observe Config.cfg d s).Inv := by
  obtain ⟨h1, h2, h3, h4, h5, h6, h7, h8, h9⟩ := work_inv h d
  refine ⟨by rw [observe_body]; exact h1, by rw [observe_body]; exact h2, ?_, ?_, by rw [observe_bodyLen]; exact h5,
      by rw [observe_cursor]; exact h6, by rw [observe_cursor, observe_bodyLen]; exact h7, ?_, ?_,
      by rw [observe_nidNerr]; exact h9, ?_⟩
  · rw [observe_nidCnt]; split
    · decide
    · exact h3
  · rw [observe_nidCnt, observe_phase]; split
    · intro _; rfl
    · exact h4
  · rw [observe_cursor, observe_bodyLen, observe_phase]; split
    · intro h; cases h
    · exact h8
  · rw [observe_statDiv]
    have := h.statDiv_lt
    split
    · decide
    · next hd =>
      have hd' : (s.statDiv + 1).toNat ≠ 480 := fun h' => hd (BitVec.eq_of_toNat_eq h')
      rw [BitVec.toNat_add] at hd' ⊢
      simp [STATS_PERIOD] at *; omega
  · rw [observe_events, he]
    have hr : (if (observe Config.cfg d s).frameDone then dispatchResult Config.cfg (observe Config.cfg d s).nac (observe Config.cfg d s).duid (observe Config.cfg d s).body s.ess else ⟨[], s.ess⟩).events.length ≤ Config.cfg.tsbkMaxBlocks := by
      split
      · exact dispatchResult_events_le _ Config.cfg_wellFormed.tsbkMaxBlocks_pos ..
      · exact Nat.zero_le _
    rw [List.nil_append, List.length_append]
    have h2 : (if s.StatDue then [statsEventOf (observe Config.cfg d s)] else []).length ≤ 1 := by split <;> simp
    exact Nat.add_le_add hr h2

/-- A run of symbols, its last symbol apart. -/
theorem observeAll_concat (c : Cfg) (s : State) (l : List Sym) (d : Sym) :
    observeAll c s (l ++ [d]) = observe c d (observeAll c s l).beginStep := by simp [observeAll]

/-- One more symbol of a run. -/
theorem observeAll_take_succ (c : Cfg) (s : State) (l : List Sym) (n : Nat) (h : n < l.length) :
    observeAll c s (l.take (n + 1)) = observe c l[n] (observeAll c s (l.take n)).beginStep := by
  rw [List.take_succ_eq_append_getElem h, observeAll_concat]

/-- The window after a run of symbols (R102). -/
theorem observeAll_win (c : Cfg) (s : State) (l : List Sym) : (observeAll c s l).win = l.foldl slide s.win := by
  induction l using List.reverseRecOn with
  | nil => rfl
  | append_singleton l d ih => rw [observeAll_concat, observe_win, beginStep_win, ih, List.foldl_append]; rfl

/-- The dispatch emits no statistics event (R194). -/
theorem filter_stats_dispatch (c : Cfg) (b : Bool) (nac : BitVec 12) (duid : BitVec 4) (m : Memory) (ess : Ess) :
   ((if b then dispatchResult c nac duid m ess else ⟨[], ess⟩).events).filter (fun e => e.kind == .stats) = [] := by
  rw [List.filter_eq_nil_iff]
  intro e he
  split at he
  · obtain ⟨f, rfl⟩ := dispatchResult_event_form _ _ _ _ _ e he
    simp [ev]
  · simp at he

/-- No sync match counts in an undisturbed run (R113). -/
theorem undisturbed_not {c : Cfg} {win : BitVec 48} {syms : List Sym} (h : Undisturbed c win syms) (p : Phase)
    (hp : p ≠ .search)
   (n : Nat) (hn : n < syms.length) : ¬ SyncAt c p ((syms.take (n + 1)).foldl slide win) := by
  rintro ⟨h1, h2⟩
  rcases h with h | h
  · rcases h1 with h1 | h1
    · exact hp h1
    · rw [h] at h1; cases h1
  · exact absurd h2 (Nat.not_le.mpr (h n hn))

/-- A 64-bit word is 32 symbols. -/
theorem symbolsOf_length (w : BitVec 64) : (symbolsOf w).length = 32 := by simp [symbolsOf]

/-- The accumulator after n of the 32 symbols of a word (R105). -/
theorem slideNid_symbolsOf (a w : BitVec 64) (n : Nat) (hn : n ≤ 32) :
    ((symbolsOf w).take n).foldl slideNid a = (a <<< (2 * n)) ||| (w >>> (64 - 2 * n)) := by
  induction n with
  | zero =>
    apply BitVec.eq_of_getLsbD_eq
    intro i hi
    simp [BitVec.getLsbD_of_ge w (64 + i) (by omega)]
  | succ n ih =>
    have hl : n < (symbolsOf w).length := by rw [symbolsOf_length]; omega
    rw [List.take_succ_eq_append_getElem hl, List.foldl_append, ih (by omega)]
    simp only [List.foldl_cons, List.foldl_nil]
    have he : (symbolsOf w)[n] = w.extractLsb' (62 - 2 * n) 2 := by simp [symbolsOf]
    rw [he]
    apply BitVec.eq_of_getLsbD_eq
    intro i hi
    simp only [slideNid, BitVec.getLsbD_or, BitVec.getLsbD_shiftLeft, BitVec.getLsbD_ushiftRight,
        BitVec.getLsbD_setWidth, BitVec.getLsbD_extractLsb']
    by_cases h2 : i < 2
    · have e1 : 64 - 2 * (n + 1) + i = 62 - 2 * n + i := by omega
      simp [h2, hi, e1, show i < 2 * (n + 1) by omega]
    · have e1 : 64 - 2 * n + (i - 2) = 64 - 2 * (n + 1) + i := by omega
      have e2 : i - 2 - 2 * n = i - 2 * (n + 1) := by omega
      have e3 : (i - 2 < 2 * n) ↔ (i < 2 * (n + 1)) := by omega
      simp [h2, hi, e1, e2, e3, show i - 2 < 64 by omega]

end Sys2Proof.Machine
end

