-- ==== Sys2Proof/Tests/Slice0.lean ====
section
/-! SUPPORT. Tests: the decoder on words written out from spec/30_encoding.md, the well-formedness checks, one or two
small vectors of spec/95_test_vectors.md for each family, and for each statement with hypotheses a witness that meets
them. -/

namespace Sys2Proof.Tests

open Sys2Proof Sys2Proof.Machine

-- One test after the other: each waits for the kernel, and the waiting ones would hold a thread each.
set_option Elab.async false

/-! ### Words (R70, R75, R76, R90, R260) -/

/-- Format IN (R70): `in[3]` stats_clear, `in[2]` sym_valid, `in[1:0]` the symbol. -/
theorem test_decode_in :
    decode (.pins 0 0b0010) = .ok (.idle 0b10) ∧ decode (.pins 0 0b0111) = .ok (.observe 0b11) ∧
    decode (.pins 0 0b1001) = .ok (.statsClear 0b01) ∧ decode (.pins 0 0b1110) = .ok (.clearObserve 0b10) := by decide

/-- Format PIN (R260): `rst` = 1, whatever the input word. -/
theorem test_decode_pin : decode (.pins 1 0b0000) = .ok (.reset 0) ∧ decode (.pins 1 0b1111) = .ok (.reset 0b1111) := by
  decide

/-- Format NID as the table writes it (R75, R76): NAC 0x293 in bits 15:4, the type code in bits 3:0. -/
theorem test_decode_info_types :
    decode (.row 0b0010100100110000) = .ok (.hdu 0x293) ∧ decode (.row 0b0010100100110011) = .ok (.tdu 0x293) ∧
    decode (.row 0b0010100100110101) = .ok (.ldu1 0x293) ∧ decode (.row 0b0010100100110111) = .ok (.tsbk 0x293) ∧
    decode (.row 0b0010100100111010) = .ok (.ldu2 0x293) ∧ decode (.row 0b0010100100111100) = .ok (.pdu 0x293) ∧
    decode (.row 0b0010100100111111) = .ok (.tdulc 0x293) := by decide

/-- NAC 0 is tested before the type code; the nine unrecognized codes of NAC 0x293 (R76). -/
theorem test_decode_info_rest :
    decode (.row 0b0000000000000000) = .ok (.discard 0x0) ∧ decode (.row 0b0000000000001111) = .ok (.discard 0xF) ∧
    ∀ d ∈ [0x1#4, 0x2#4, 0x4#4, 0x6#4, 0x8#4, 0x9#4, 0xB#4, 0xD#4, 0xE#4],
      decode (.row (0b001010010011#12 ++ d)) = .ok (.unrec 0x293 d) := by decide

/-- The type codes but for HDU and LDU1, which have 0x1 and 0x0: another choice of `DUID_*` that R6 allows. -/
def otherCodes : FrameType → BitVec 4
  | .hdu => 0x1
  | .ldu1 => 0x0
  | .tdu => 0x3
  | .tsbk => 0x7
  | .ldu2 => 0xA
  | .pdu => 0xC
  | .tdulc => 0xF

/-- An information word is read under the configuration's type codes (R76): under other codes 0x2930 is a voice frame
and 0x2935 is unrecognized. -/
theorem test_decode_info_other_codes :
    decodeInfo otherCodes 0x2930 = .ldu1 0x293 ∧ decodeInfo otherCodes 0x2931 = .hdu 0x293 ∧
    decodeInfo otherCodes 0x2935 = .unrec 0x293 5 ∧ encodeWith otherCodes (.hdu 0x293) = .info 0x2931 := by decide

/-- A bit string from its characters. -/
def bitsOf (t : List Nat) : List Bool := t.map (· == 1)

/-- Format FU, the select codes 0x0 to 0x6 and 0xC (R90). -/
theorem test_decode_unit_codes :
    decode (.unit 0b0000 (bitsOf [1,0,1,0,1,0,1,1,1,1,0,0,0,0,1,0,0,0,1,1,1,1,0,0])) = .ok (.g24Dec 0xABC23C) ∧
    decode (.unit 0b0001 (bitsOf [1,0,1,0,1,0,1,1,1,1,0,0])) = .ok (.g24Enc 0xABC) ∧
    decode (.unit 0b0101 (bitsOf [0,0,0,0,0,1,1,1,0,0])) = .ok (.hamDec 0x01C) ∧
    decode (.unit 0b0110 (bitsOf [1,0,0,0,0,1])) = .ok (.hamEnc 0x21) ∧
    decode (.unit 0b1100 (List.replicate 63 false ++ [true])) = .ok (.nidDec 1) := by decide +kernel

/-- The three Reed-Solomon codes: 63 hexbits, the first on top. -/
theorem test_decode_unit_rs :
    decode (.unit 0b0010 (bitsOf [0,0,0,1,0,1] ++ List.replicate 372 false)) =
      .ok (.rs6355 (Vector.ofFn fun j => if j.val = 0 then 5 else 0)) ∧
    (decode (.unit 0b0011 (List.replicate 378 false))).map Instr.mnemonic = .ok "RS_63_51" ∧
    (decode (.unit 0b0100 (List.replicate 378 false))).map Instr.mnemonic = .ok "RS_63_47" := by decide +kernel

/-- Trellis, CRC, voice and the reserved codes. -/
theorem test_decode_unit_rest :
    decode (.unit 0b0111 (bitsOf [1,1,0,0,0,1,0,0])) = .ok (.trellisDec 196) ∧
    decode (.unit 0b1000 (bitsOf [1,0,0,0,0,0,0,0,0,0,0,0,0,0,0,1])) = .ok (.crc16 [0x80, 0x01]) ∧
    decode (.unit 0b1001 [true, false]) = .ok (.crc32 [true, false]) ∧
    decode (.unit 0b1010 (bitsOf [1,0,0,0])) = .ok (.voiceDeint 8) ∧
    decode (.unit 0b1011 (true :: List.replicate 84 false ++ [true])) = .ok (.voicePack ⟨0x800, 0, 0, 0, 0, 0, 0, 1⟩) ∧
    decode (.unit 0b1101 []) = .ok (.fuReserved 13) ∧ decode (.unit 0b1111 [true]) = .ok (.fuReserved 15) := by
  decide +kernel

/-- The host's words: one of each format, numbered as the table numbers them. -/
theorem test_decodeTableWord :
    decodeTableWord 8 0x4 = some (.observe 0) ∧ decodeTableWord 8 0x1 = some (.reset 0) ∧
    decodeTableWord 16 0x2937 = some (.tsbk 0x293) ∧ decodeTableWord 8 0x6 = some (.hamEnc 0) ∧
    decodeTableWord 8 0xA = some (.voiceDeint 0) ∧ decodeTableWord 8 0xE = some (.fuReserved 0xE) := by decide +kernel

/-- The table's 38 rows; the rows of format NID in the table's order, by their match values (spec/opcode_table.json). -/
theorem test_opcodeTable : opcodeTable.length = 38 ∧ (rowsOf FrameType.code .nid).map Row.pattern =
    [0x0, 0x0, 0x3, 0x5, 0x7, 0xA, 0xC, 0xF, 0x1, 0x2, 0x4, 0x6, 0x8, 0x9, 0xB, 0xD, 0xE] := by decide +kernel

/-- The opcode table's rows of one format never claim one word for two operations, but for DISCARD, which is tested
before the type codes (note of the table's DISCARD row). -/
theorem test_table_rows_disjoint : opcodeTable.Pairwise fun a b => a.format = b.format → a.mnemonic ≠ "DISCARD" →
    a.pattern ≠ b.pattern := by decide +kernel

/-! ### Well-formedness: each check refuses an ill-formed term -/

theorem test_wellFormed_nac_zero : ∀ i ∈ [Instr.hdu 0, .tdu 0, .ldu1 0, .tsbk 0, .ldu2 0, .pdu 0, .tdulc 0, .unrec 0 1],
    i.wellFormed FrameType.code = false := by decide

theorem test_wellFormed_unrec_recognized : Instr.wellFormed FrameType.code (.unrec 0x293 3) = false := by decide

theorem test_wellFormed_reserved : Instr.wellFormed FrameType.code (.fuReserved 12) = false := by decide

/-- The decoder refuses an operand of the wrong length and a segment number above 8, by name. -/
theorem test_decode_refuses :
    decode (.unit 0 (List.replicate 23 false)) = .error (.operandLength 0) ∧
    decode (.unit 2 []) = .error (.operandLength 2) ∧ decode (.unit 8 [true]) = .error (.operandLength 8) ∧
    decode (.unit 10 (bitsOf [1,0,0,1])) = .error (.noSuchSegment 9) := by decide +kernel

/-! ### The test configuration TC1 (spec/95_test_vectors.md section 1)

Its identifier decoder is written for three codewords of V9, its Reed-Solomon decoder for vectors without errors (the
syndromes alone): the vectors below use no more. -/

/-- The remainder of a polynomial of `n` more bits than the divisor `g` of degree `deg`. -/
def polyMod (deg g : Nat) : Nat → Nat → Nat
  | 0, v => v
  | n + 1, v => polyMod deg g n (if v.testBit (deg + n) then v ^^^ (g <<< n) else v)

def withParity (w c : Nat) : BitVec (w + 1) := BitVec.ofNat (w + 1) (2 * c + (List.range w).countP c.testBit % 2)

def enc24 (v : BitVec 12) : BitVec 24 :=
  withParity 23 ((v.toNat <<< 11) ||| polyMod 11 0xC75 12 (v.toNat <<< 11))

def nidWord (v : Nat) : BitVec 64 := withParity 63 ((v <<< 47) ||| polyMod 47 0o6331141367235453 16 (v <<< 47))

def nidDecode (w : BitVec 64) : NidResult :=
  match [0x1AB3, 0x2930, 0x0003].find? fun v =>
      Bits.dist (w >>> 1) (nidWord v >>> 1) ≤ 11 with
  | some v => .ok (BitVec.ofNat 12 (v / 16)) (BitVec.ofNat 4 v) ((nidWord v).setWidth 1) (nidWord v)
      (Bits.dist w (nidWord v))
  | none => .fail

def hamColumns : List Nat := [0b1100, 0b0011, 0b0111, 0b1011, 0b1101, 0b1110]

def hamCheck (v : Nat) : Nat :=
  (List.range 6).foldl (fun a i => if v.testBit i then a ^^^ hamColumns.getD i 0 else a) 0

def hamEnc (v : BitVec 6) : BitVec 10 := BitVec.ofNat 10 (16 * v.toNat + hamCheck v.toNat)

def hamDec (w : BitVec 10) : BitVec 6 :=
  let v := w.toNat / 16
  let s := (w.toNat % 16) ^^^ hamCheck v
  match (List.range 6).find? fun i => s != 0 && hamColumns.getD i 0 == s with
  | some i => BitVec.ofNat 6 (v ^^^ (1 <<< i))
  | none => BitVec.ofNat 6 v

/-- Times the primitive element of GF(64). -/
def timesAlpha (a : Nat) : Nat := if 2 * a ≥ 64 then (2 * a) ^^^ 0b1000011 else 2 * a

def gfMul (a b : Nat) : Nat :=
  ((List.range 6).foldl (fun p i => (if b.testBit i then p.1 ^^^ p.2 else p.1, timesAlpha p.2)) (0, a)).1

/-- The syndrome at one root. -/
def syndrome (hb : List Nat) (root : Nat) : Nat := hb.foldl (fun acc h => gfMul acc root ^^^ h) 0

/-- The powers `α^1 .. α^n`. -/
def powers : Nat → Nat → List Nat
  | 0, _ => []
  | n + 1, a => a :: powers n (timesAlpha a)

def rsDec (i : RsInst) (hb : HexVec) : HexVec × Int :=
  if (powers (63 - i.k) 2).all fun r => syndrome (hb.toList.map BitVec.toNat) r == 0 then (hb, 0) else (hb, -1)

def trellisRows : List (List Nat) := [[0x2, 0xC, 0x1, 0xF], [0xE, 0x0, 0xD, 0x3], [0x9, 0x7, 0xA, 0x4], [0x5, 0xB, 0x6, 0x8]]

def tc1 : Cfg where
  fsPattern := 0x5575F5FF77FF
  syncMaxErr := 0
  inFrameSync := .abandon
  nidDecode := nidDecode
  duid := FrameType.code
  bodyLen := fun
    | .hdu => 648
    | .tdu => 28
    | .ldu1 => 1032
    | .tsbk => 588
    | .ldu2 => 1032
    | .pdu => 784
    | .tdulc => 288
  bodyLenUnrec := 28
  bodyMax := 1032
  enc24 := enc24
  t24 := 3
  dec24Fallback := fun w => w.extractLsb' 12 12
  hamEnc := hamEnc
  hamDec := hamDec
  rsEnc := fun _ _ => Vector.replicate 63 0
  rsDec := rsDec
  trellisPerm := fun i => ⟨37 * i.val % 196, Nat.mod_lt _ (by decide)⟩
  trellisTab := fun s x => BitVec.ofNat 4 ((trellisRows.getD s.toNat []).getD x.toNat 0)
  crc16Poly := 0x11021
  crc32Poly := 0x104C11DB7
  hduCwPos := fun i b => 18 * i.val + b.val
  ldu1HbPos := fun i b => 10 * i.val + b.val
  ldu2HbPos := fun i b => 10 * i.val + b.val
  tdulcCwPos := fun i b => 24 * i.val + b.val
  voicePos := fun s j => 240 + 88 * s.val + j.val
  voiceSpare := fun s j => 240 + 88 * s.val + 86 + j.val
  tsbkMaxBlocks := 3
  tsbkBlockOff := fun i => 196 * i
  pduMaxBlocks := 4
  pduBlockOff := fun i => 196 * i
  pduFmt := fun b => b[0] &&& 0x1F
  pduSap := fun b => b[1] &&& 0x3F
  pduBlks := fun b => b[6] &&& 0x7F
  pduMbtFmts := [0x15, 0x17]
  lcwTgid := fun l => if l[0] = 0 then some (l[4] ++ l[5]) else none
  hduMismMax := 6
  lcMismLim := 6
  voiceMismLim := 16

/-- The body that holds the `n` bits of `v`, the first on top. -/
def bodyOf (n v : Nat) : Memory := (List.range n).filterMap fun i => if v.testBit (n - 1 - i) then some (i, true) else none

/-! ### Format IN and PIN -/

/-- V2 and V3: the 24th symbol of the pattern. -/
theorem test_observe_sync :
    let t := observe tc1 3 { State.reset with win := 0x155D7D7FDDFF, symbols := 23, statDiv := 23 }
    t.win = 0x5575F5FF77FF ∧ t.syncs = 1 ∧ t.phase = .nid ∧ t.symbols = 24 ∧ t.events = [] := by decide +kernel

/-- P1, step 70: the last symbol of a terminator's body. -/
theorem test_observe_terminator :
    let t := observe tc1 0 { State.reset with
      phase := .body, bodyLen := 28, cursor := 26, nac := 0x1AB, duid := 3, symbols := 69, statDiv := 69 }
    t.frameDone = true ∧ t.cursor = 28 ∧ t.phase = .search ∧
      t.events = [⟨.p25Du, [(.nac, .hex 3 0x1AB), (.duid, .hex 1 3), (.ok, .bool true)]⟩] := by decide +kernel

/-- P1, step 56: the last symbol of an identifier. -/
theorem test_observe_identifier :
    let t := observe tc1 2 { State.reset with phase := .nid, nidCnt := 31, nidAcc := 0x1AB3886442E04562 >>> 2 }
    t.nac = 0x1AB ∧ t.duid = 3 ∧ t.goodNids = 1 ∧ t.bodyLen = 28 ∧ t.phase = .body ∧ t.nidCnt = 0 := by decide +kernel

/-- P2, step 56: an identifier that does not decode (V17). -/
theorem test_observe_bad_identifier :
    let t := observe tc1 3 { State.reset with phase := .nid, nidCnt := 31, nidAcc := 0x0123456789ABCDEF >>> 2, nac := 5 }
    t.nac = 0 ∧ t.badNids = 1 ∧ t.goodNids = 0 ∧ t.phase = .search ∧ t.frameDone = false := by decide +kernel

/-- V90, step 480. -/
theorem test_observe_statistics :
    let t := observe tc1 0 { State.reset with symbols := 479, statDiv := 479 }
    t.statDiv = 0 ∧ t.events = [⟨.stats, [(.symbols, .dec 480), (.syncs, .dec 0), (.goodNids, .dec 0),
      (.badNids, .dec 0)]⟩] := by decide +kernel

/-- V6. -/
theorem test_idle : exec (.idle 3) { State.reset with symbols := 5, frameDone := true } =
    .next { State.reset with symbols := 5 } := rfl

/-- V91: the clear leaves `stat_div`. -/
theorem test_statsClear : exec (.statsClear 0) { State.reset with symbols := 100, badNids := 2, statDiv := 100 } =
    .next { State.reset with statDiv := 100 } := rfl

/-- V92: clear and observe in one step. -/
theorem test_clearObserve :
    let t := observe tc1 2 ({ State.reset with symbols := 5, statDiv := 5, win := 0x155 } : State).clearStats
    t.symbols = 1 ∧ t.statDiv = 6 ∧ t.win = 0x556 := by decide +kernel

/-- V95: reset in mid-frame. -/
theorem test_reset : exec (.reset 0b0111) { State.reset with win := 0x5575F5FF77FF, syncs := 1, phase := .nid } =
    .next State.reset := rfl

/-! ### Format NID -/

/-- A Reed-Solomon decoder that finds no error: for the hand-made frames below. -/
def noErrors : Cfg := { tc1 with rsDec := fun _ hb => (hb, 0) }

/-- R172, R173 by hand on V29's words: word 0 carries hexbit 0x2A (the top of `mi`), word 19 hexbit 0x01 (the low end of
`tgid`), every other word 0. -/
theorem test_hdu : procHdu noErrors ⟨0x293, 0⟩ (bodyOf 648 (0x2A235 <<< 630 ||| 0x018EB <<< 288)) Ess.reset =
    ⟨[⟨.p25Du, [(.nac, .hex 3 0x293), (.duid, .hex 1 0), (.mfid, .hex 2 0), (.tgid, .hex 4 1), (.algid, .hex 2 0),
      (.keyid, .hex 4 0), (.mi, .buffer [0xA8, 0, 0, 0, 0, 0, 0, 0, 0]), (.ok, .bool true)]⟩],
      ⟨0, 0, 0xA8 <<< 64, 1⟩⟩ := by decide +kernel

/-- V63: seven words with one bit in error. -/
theorem test_hdu_threshold : procHdu noErrors ⟨0x293, 0⟩
    ((List.range 7).map fun i => (18 * i + 17, true)) ⟨1, 2, 3, 4⟩ =
    ⟨[⟨.p25Du, [(.nac, .hex 3 0x293), (.duid, .hex 1 0), (.ok, .bool false)]⟩], ⟨1, 2, 3, 4⟩⟩ := by decide +kernel

/-- E5. -/
theorem test_tdu : (dispatchFrame tc1 { State.reset with nac := 0x1AB, duid := 3 }).events =
    [⟨.p25Du, [(.nac, .hex 3 0x1AB), (.duid, .hex 1 3), (.ok, .bool true)]⟩] := by decide +kernel

/-- V18 and V20: NAC 0 and an unrecognized type code. -/
theorem test_discard_unrec :
    dispatchFrame tc1 { State.reset with nac := 0, duid := 3 } = { State.reset with nac := 0, duid := 3 } ∧
    dispatchFrame tc1 { State.reset with nac := 0x293, duid := 1 } = { State.reset with nac := 0x293, duid := 1 } := by
  decide +kernel

/-- P4, step 952: voice frame 1, one word in error; the fields beside the voice. -/
theorem test_ldu1 :
    let r := procLdu1 noErrors ⟨0x293, 5⟩
      (bodyOf 240 0x000000004600000b87940001c22f4408c3f5d60efc0785a423838a8b7911) Ess.reset
    r.ess = ⟨0, 0, 0, 0x0BB9⟩ ∧ r.events.map (fun e => e.fields.filter fun f => f.1 != .imbe) =
      [[(.nac, .hex 3 0x293), (.duid, .hex 1 5),
      (.lcw, .buffer [0x00, 0x00, 0x04, 0x00, 0x0B, 0xB9, 0x00, 0x12, 0x34]), (.ok, .bool true)]] := by decide +kernel

/-- V69: sixteen words with two bits in error: no Reed-Solomon, no voice. -/
theorem test_ldu1_threshold : procLdu1 tc1 ⟨0x293, 5⟩
    ((List.range 16).flatMap fun i => [(10 * i + 8, true), (10 * i + 9, true)]) Ess.reset =
    ⟨[⟨.p25Du, [(.nac, .hex 3 0x293), (.duid, .hex 1 5), (.ok, .bool false)]⟩], Ess.reset⟩ := by decide +kernel

/-- P4, step 1524: voice frame 2 refreshes three ESS fields. -/
theorem test_ldu2 :
    (procLdu2 noErrors ⟨0x293, 0xA⟩ (bodyOf 240 0xa15b92d03fd60ef5d7670731f83a998394a33212528d052babae8d0a6655)
      ⟨0x80, 0x1234, 0x0123456789ABCDEF01, 0x0BB9⟩).ess = ⟨0x81, 0x4321, 0xA1B2C3D4E5F6071829, 0x0BB9⟩ := by
  decide +kernel

/-- The blocks of V50 and V51. -/
def block50 : List Byte := [0x80, 0x11, 0x22, 0x33, 0x44, 0x55, 0x66, 0x77, 0x88, 0x99, 0x2F, 0x71]

/-- P3, step 350: a bad CRC16, then the last block. -/
theorem test_tsbk : (procTsbk tc1 ⟨0x293, 7⟩ (bodyOf 392
      0x119820aa2227b7a6ac2a2806a552689fc4338175641326399768c895003bd92d3cf1e2d3d97f96a3784b61cf0e81f6c151)
      Ess.reset).events =
    [⟨.p25Du, [(.nac, .hex 3 0x293), (.duid, .hex 1 7),
      (.tsbk, .buffer [0, 1, 2, 3, 4, 5, 6, 7, 8, 9, 0xDC, 0x86]), (.ok, .bool false)]⟩,
    ⟨.p25Du, [(.nac, .hex 3 0x293), (.duid, .hex 1 7), (.tsbk, .buffer block50), (.ok, .bool true)]⟩] := by
  decide +kernel

/-- V52 and V75: a tie in a block leaves one failure event. -/
theorem test_tsbk_tie : (procTsbk tc1 ⟨0x293, 7⟩ (bodyOf 196 0x568c895003bd92d3cf1e2d3d97f96a3784b61cf0e81f6c151)
      Ess.reset).events = [⟨.p25Du, [(.nac, .hex 3 0x293), (.duid, .hex 1 7), (.ok, .bool false)]⟩] := by
  decide +kernel

/-- P5, step 648: a single-block packet. -/
theorem test_pdu : (procPdu tc1 ⟨0x293, 0xC⟩ (bodyOf 196 0x2bb2200c62a62bb22024266ea0b21000063ea8a33220627ea)
      Ess.reset).events =
    [⟨.p25Du, [(.nac, .hex 3 0x293), (.duid, .hex 1 0xC), (.fmt, .dec 22), (.sap, .dec 17), (.blks, .dec 2),
      (.ok, .bool true)]⟩] := by decide +kernel

/-- P5, last frame, its blocks decoded: both checks valid (the check value of V59). -/
theorem test_pdu_multi :
    let h : Block := #v[0x17, 0x3D, 0x00, 0x00, 0x00, 0x00, 0x02, 0x00, 0x00, 0x00, 0x30, 0xCA]
    let d : List Block := [#v[0xDE, 0xAD, 0xBE, 0xEF, 0x00, 0x11, 0x22, 0x33, 0x44, 0x55, 0x66, 0x77],
      #v[0x88, 0x99, 0xAA, 0xBB, 0xCC, 0xDD, 0xEE, 0xFF, 0x1D, 0xC5, 0x66, 0x82]]
    isMultiBlock tc1 h = true ∧ pduMultiEvent tc1 ⟨0x293, 0xC⟩ h d =
      ⟨.p25Du, [(.nac, .hex 3 0x293), (.duid, .hex 1 0xC),
        (.pdu, .buffer (h.toList ++ d.flatMap Vector.toList)), (.ok, .bool true)]⟩ := by decide +kernel

/-- R191 by hand on V31's word: word 0 carries the value 0x040, that is hexbits 0x01 and 0x00. -/
theorem test_tdulc : procTdulc noErrors ⟨0x293, 0xF⟩ (bodyOf 288 (0x040D99 <<< 264)) ⟨1, 2, 3, 4⟩ =
    ⟨[⟨.p25Du, [(.nac, .hex 3 0x293), (.duid, .hex 1 0xF), (.lcw, .buffer [0x04, 0, 0, 0, 0, 0, 0, 0, 0]),
      (.ok, .bool true)]⟩], ⟨1, 2, 3, 4⟩⟩ := by decide +kernel

/-! ### Format FU -/

/-- V24, and V25's two-bit error. -/
theorem test_g24 : enc24 1 = 0x0018EB ∧ enc24 0xABC = 0xABC23C ∧
    g24Decode tc1 (0x0018EB ^^^ 0x000101) = ⟨1, 2, true⟩ := by decide +kernel

/-- V30 and V31: header words. -/
theorem test_headerWord : headerWord tc1 0x2A230 = (0x2A, true) ∧ headerWord tc1 0x00D99 = (0, true) := by
  decide +kernel

/-- V32, V33 and V34. -/
theorem test_ham : hamEnc 0x21 = 0x212 ∧ hamDecode tc1 0x01C = ⟨1, false⟩ ∧ hamDecode tc1 0x21C = ⟨1, true⟩ ∧
    hamDecode tc1 0x01F = ⟨3, true⟩ := by decide +kernel

/-- V40: the zero vector. -/
theorem test_rs : rsAnswer tc1 .k55 (Vector.replicate 63 0) = .rs (Vector.replicate 63 0) 0 := by decide +kernel

/-- V48: the segment of twelve zero bytes. -/
theorem test_trellis : (trellisDecode tc1 (bodyOf 196 0x2222222222222222222222222222222222222222222222222) 0).map
    Vector.toList = some (List.replicate 12 0) := by decide +kernel

/-- V53 and V54. -/
theorem test_crc16 : crc16 tc1 (0x80 :: List.replicate 11 0) = 0x1BCB ∧
    crc16 tc1 [0, 1, 2, 3, 4, 5, 6, 7, 8, 9, 0xDC, 0x87] = 0 ∧ crc16 tc1 [0, 1, 2, 3, 4, 5, 6, 7, 8, 9, 0, 0] = 0xDC87 := by
  decide +kernel

/-- V57, V58 and V60. -/
theorem test_crc32 : crc32 tc1 [true] = 0xFB3EE248 ∧
    crc32 tc1 (Bits.bytesBits [0x31, 0x32, 0x33, 0x34, 0x35, 0x36, 0x37, 0x38, 0x39]) = 0x765E7680 ∧
    crc32Valid tc1 (List.replicate 64 false ++ List.replicate 32 true) = true := by decide +kernel

/-- V41: program P4's first voice segment. -/
theorem test_voiceDeint : voiceDeint tc1 (bodyOf 328 0x123234345456acf9e3126b) 0 =
    ⟨0x123, 0x234, 0x345, 0x456, 0x567, 0x678, 0x189, 0x01A⟩ ∧
    voiceSpareBits tc1 (bodyOf 328 0x123234345456acf9e3126b) 0 = 0b11 := by decide +kernel

/-- V43 and V45. -/
theorem test_voicePack :
    (voicePack ⟨0xABC, 0x123, 0xFFF, 0x000, 0x555, 0x2AA, 0x1FF, 0x40⟩).toList =
      [0xAB, 0xC1, 0x23, 0xFF, 0xF0, 0x00, 0xAA, 0xAA, 0xAB, 0xFF, 0x00] ∧
    (voicePack ⟨0x123, 0x234, 0x345, 0x456, 0x567, 0x678, 0x189, 0x01A⟩).toList =
      [0x12, 0x32, 0x34, 0x34, 0x54, 0x56, 0xAC, 0xF9, 0xE3, 0x12, 0x68] := by decide +kernel

/-- V11: three bits corrected. -/
theorem test_nidDec : tc1.nidDecode 0x0AB3886642E04542 = .ok 0x1AB 3 0 0x1AB3886442E04562 3 := by decide +kernel

/-- R90: a reserved code. -/
theorem test_fuReserved (s : State) : exec (.fuReserved 0xE) s = .refused (.reservedUnit 0xE) := rfl

/-! ### Text of events (V86, V88, V89) -/

/-- A text with round brackets in the place of the braces, which no string here may hold. -/
def rounded (t : List Char) : String :=
  String.ofList (t.map fun ch => if ch = openBrace then '(' else if ch = closeBrace then ')' else ch)

theorem test_render_decode_event : rounded (evFail ⟨0x00A, 0xF⟩).render =
    "(\"p25_du\": (\"nac\": \"0x00a\", \"duid\": \"0xf\", \"ok\": false))" := by decide +kernel

theorem test_render_stats : rounded (evStats { State.reset with symbols := 480 }).render =
    "(\"stats\": (\"symbols\": 480, \"syncs\": 0, \"good_nids\": 0, \"bad_nids\": 0))" := by decide +kernel

theorem test_render_pdu : rounded (ev ⟨0x293, 0xC⟩ [(.fmt, .dec 22), (.sap, .dec 17), (.blks, .dec 2), (.ok, .bool true)]).render =
    "(\"p25_du\": (\"nac\": \"0x293\", \"duid\": \"0xc\", \"fmt\": 22, \"sap\": 17, \"blks\": 2, \"ok\": true))" := by
  decide +kernel

/-! ### Stimulus and steps -/

/-- P1's input words (R91). -/
theorem test_stimulus : (stimulus tc1 [.reset, .sync, .clear, .idle 1, .sym 3, .symhex [0x9]]).take 26 =
    .pins 1 0 :: [5, 5, 5, 5, 5, 7, 5, 5, 7, 7, 5, 5, 7, 7, 7, 7, 5, 7, 5, 7, 7, 7, 7, 7].map (Presented.pins 0) ++
      [.pins 0 8] := by decide +kernel

/-- The word put in for the host is the one the next step runs. -/
theorem test_withFetchWord : (State.reset.withFetchWord 8 0x8).presented = .pins 0 8 ∧
    (State.reset.withFetchWord 16 0x2935).presented = .row 0x2935 ∧
    step (State.reset.withFetchWord 8 0x8) = .next State.reset := ⟨rfl, rfl, rfl⟩

/-- A bad operand at a unit's inputs is refused by the step. -/
theorem test_step_undecodable : step { State.reset with input := [.unit 2 []] } = .refused (.undecodable (.operandLength 2)) :=
  rfl

/-! ### Witnesses: for each statement with hypotheses, states and operands that meet them all together -/

/-- Seven codes leave some code unrecognized. -/
theorem exists_unrecognized (code : FrameType → BitVec 4) : ∃ d, isRecognized code d = false := by
  let l := [code .hdu, code .tdu, code .ldu1, code .tsbk, code .ldu2, code .pdu, code .tdulc]
  have h : l.toFinset.card < (Finset.univ : Finset (BitVec 4)).card :=
    lt_of_le_of_lt (List.toFinset_card_le l) (show 7 < (Finset.univ : Finset (BitVec 4)).card by decide)
  obtain ⟨d, -, hd⟩ := Finset.exists_mem_notMem_of_card_lt_card h
  refine ⟨d, ?_⟩
  rw [List.mem_toFinset] at hd
  simp only [l, List.mem_cons, List.not_mem_nil, or_false, not_or] at hd
  simp [isRecognized, hd]

theorem witness_DecodeEncodeRoundTrip : Instr.wellFormed Config.cfg.duid (.hdu 0x293) = true ∧
    (∃ d, Instr.wellFormed Config.cfg.duid (.unrec 1 d) = true) ∧
    Instr.wellFormed Config.cfg.duid (.fuReserved 13) = true ∧
    Instr.wellFormed Config.cfg.duid (.fuReserved 15) = true := by
  obtain ⟨d, hd⟩ := exists_unrecognized Config.cfg.duid
  exact ⟨rfl, ⟨d, by simp [Instr.wellFormed, hd]⟩, rfl, rfl⟩

theorem witness_DecodeFollowsTheOpcodeTable : decode (.info 0x0003) = .ok (.discard 3) ∧
    decode (.row 0x2930) = .ok (.hdu 0x293) ∧ decode (.pins 1 4) = .ok (.reset 4) ∧
    decode (.info (0x293#12 ++ Config.cfg.duid .hdu)) = .ok (.hdu 0x293) := by
  refine ⟨rfl, rfl, rfl, ?_⟩
  rw [decode, decodeInfo_row, typeOfCode_code Config.cfg_wellFormed.duid_distinct] <;> rfl

theorem witness_StepRunsTheDecodedOperation :
    (∃ (s : State) (p : Presented) (rest : List Presented) (i : Instr), s.input = p :: rest ∧ decode p = .ok i) ∧
    (∃ s : State, s.input = []) ∧ ∃ s t : State, step s = .next t :=
  ⟨⟨{ State.reset with input := [.pins 0 4] }, .pins 0 4, [], .observe 0, rfl, by decide⟩, ⟨State.reset, rfl⟩,
    State.reset, State.reset, rfl⟩

theorem witness_BlockNeverStops :
    (∃ s : State, s.input ≠ [] ∧ s.input.all Presented.isPins = true) ∧
    ∃ (c : Cfg) (_ : Decidable c.WellFormed), ¬ c.WellFormed := by
  refine ⟨⟨{ State.reset with input := [.pins 0 4, .pins 1 0] }, by simp, rfl⟩, ?_⟩
  have h : ¬ ({ ConfigExists.witness with syncMaxErr := 24 } : Cfg).WellFormed :=
    fun h => absurd h.syncMaxErr_lt (by decide)
  exact ⟨_, .isFalse h, h⟩

/-- A state with a body in progress that meets the invariant. -/
theorem witness_EveryStepKeepsTheInvariant : ∃ s t : State, s.phase = .nid ∧ s.Inv ∧ step s = .next t := by
  refine ⟨{ State.reset with phase := .nid, nidCnt := 31, input := [.pins 0 4] }, _, rfl, ?_, rfl⟩
  exact { body_wf := rfl, body_within := rfl, nidCnt_lt := by decide, nidCnt_zero := fun h => absurd rfl h,
          bodyLen_le := Nat.zero_le _, cursor_even := rfl, cursor_le := Nat.zero_le _, cursor_lt := nofun,
          statDiv_lt := by decide, nidNerr_le := by decide, events_le := Nat.zero_le _ }

/-- A state whose next symbol completes a body of one bit. -/
def lastSymbol : State := { State.reset with phase := .body, bodyLen := 1, nac := 0x1AB, duid := 3 }

theorem lastSymbol_done (sym : Sym) :
    (observe Config.cfg sym lastSymbol.beginStep).frameDone = true := by
  rw [observe_frameDone, work_body rfl]; rfl

theorem witness_FrameDoneOnlyFromSymbols : ∃ (i : Instr) (s t : State), exec i s = .next t ∧ t.frameDone = true :=
  ⟨.observe 3, lastSymbol, _, rfl, lastSymbol_done 3⟩

/-- Both cases: a symbol, and an operation without one. -/
theorem witness_CountersOnlyGrow :
    (∃ (i : Instr) (s t : State), i.clears = false ∧ exec i s = .next t ∧ ∃ sym, i = .observe sym) ∧
    ∃ (i : Instr) (s t : State), i.clears = false ∧ exec i s = .next t ∧ ∀ sym, i ≠ .observe sym :=
  ⟨⟨.observe 0, State.reset, _, rfl, rfl, 0, rfl⟩, .idle 0, State.reset, _, rfl, rfl, nofun⟩

/-- At the boundary: the next symbol is the last that does not wrap. -/
theorem witness_CountersStayOrdered : ∃ (s t : State) (i : Instr), s.CounterRel ∧ s.symbols.toNat + 1 < 2 ^ 64 ∧
    i.clears = false ∧ exec i s = .next t :=
  ⟨{ State.reset with symbols := 0xFFFFFFFFFFFFFFFE, syncs := 1, phase := .nid }, _, .observe 0,
    ⟨by decide, by decide⟩, by decide, rfl, rfl⟩

theorem witness_DividerIsSymbolsModPeriod : ∃ (s t : State) (i : Instr),
    s.statDiv.toNat = s.symbols.toNat % STATS_PERIOD ∧ s.symbols.toNat + 1 < 2 ^ 64 ∧ i.clears = false ∧
    exec i s = .next t :=
  ⟨{ State.reset with symbols := 479, statDiv := 479 }, _, .observe 0, by decide, by decide, rfl, rfl⟩

theorem witness_NothingDependsOnEss : ∃ (i : Instr) (s t : State) (e : Ess), e ≠ s.ess ∧ exec i s = .next t :=
  ⟨.observe 0, lastSymbol, _, ⟨1, 2, 3, 4⟩, by decide, rfl⟩

theorem witness_SyncMatchStartsAnIdentifier : State.reset.phase ≠ .nid ∨ State.reset.nidCnt ≠ 31 := by decide

theorem witness_SearchStep : State.reset.phase = .search := rfl

theorem witness_IdentifierSymbolAccumulates : ∃ s : State, s.phase = .nid ∧ s.nidCnt.toNat < 31 ∧ s.nidCnt = 30 :=
  ⟨{ State.reset with phase := .nid, nidCnt := 30 }, rfl, by decide, rfl⟩

/-- The last symbol of a codeword that the machine's decoder accepts. -/
theorem witness_IdentifierDecoded : ∃ (sym : Sym) (s : State) (par : BitVec 1) (cw : BitVec 64),
    s.phase = .nid ∧ s.nidCnt = 31 ∧ Config.cfg.nidDecode (slideNid s.nidAcc sym) = .ok 0x1AB 3 par cw 0 := by
  obtain ⟨par, cw, h⟩ := Config.cfg_wellFormed.nid_every 0x1AB 3
  refine ⟨cw.setWidth 2, { State.reset with phase := .nid, nidCnt := 31, nidAcc := cw >>> 2 }, par, cw, rfl, rfl, ?_⟩
  have : slideNid (cw >>> 2) (cw.setWidth 2) = cw := by
    apply BitVec.eq_of_getLsbD_eq
    intro i hi
    by_cases h2 : i < 2
    · simp [slideNid, h2, hi]
    · simp [slideNid, h2, hi, show 2 + (i - 2) = i by omega]
  rw [this]; exact h

theorem witness_BodyLengthFromTypeCode : ∃ c : Cfg, c.WellFormed ∧ ∀ t, (1 : BitVec 4) ≠ c.duid t :=
  ⟨ConfigExists.witness, ConfigExists.witness_wellFormed, by intro t; cases t <;> decide⟩

/-- One symbol before the end, at it, and one bit before it: a body of an odd length is completed by half a symbol. -/
theorem witness_BodySymbolStored : ∀ n ∈ [1, 2, 3], ∃ s : State, s.phase = .body ∧ s.body.wf = true ∧ s.cursor = 0 ∧
    s.bodyLen = n := by
  intro n _
  exact ⟨{ State.reset with phase := .body, bodyLen := n, body := [(0, true), (5, true)] }, rfl, rfl, rfl, rfl⟩

theorem witness_ObserveFrame : ∃ (sym : Sym) (s t : State), exec (.observe sym) s = .next t ∧
    (s.phase ≠ .nid ∨ s.nidCnt ≠ 31) ∧ s.phase ≠ .body ∧ t.frameDone = false := by
  refine ⟨0, State.reset, _, rfl, by decide, by decide, ?_⟩
  rw [observe_frameDone, work_search rfl]

/-- A body symbol after which the window is the complement of the pattern: no sync match. -/
theorem witness_ObserveFrame_body : ∃ (sym : Sym) (s t : State), exec (.observe sym) s = .next t ∧ s.phase = .body ∧
    ¬ SyncAt Config.cfg s.phase (slide s.win sym) := by
  let v := ~~~Config.cfg.fsPattern
  refine ⟨v.setWidth 2, { State.reset with phase := .body, win := v >>> 2 }, _, rfl, rfl, fun h => ?_⟩
  have hs : slide (v >>> 2) (v.setWidth 2) = v := by
    apply BitVec.eq_of_getLsbD_eq
    intro i hi
    by_cases h2 : i < 2
    · simp [slide, h2, hi]
    · simp [slide, h2, hi, show 2 + (i - 2) = i by omega]
  have hd : Bits.dist v Config.cfg.fsPattern = 48 := by
    have hx : v ^^^ Config.cfg.fsPattern = BitVec.allOnes 48 := by
      apply BitVec.eq_of_getLsbD_eq
      intro i hi
      simp only [v, BitVec.getLsbD_xor, BitVec.getLsbD_not, BitVec.getLsbD_allOnes, hi, decide_true]
      cases Config.cfg.fsPattern.getLsbD i <;> rfl
    rw [Bits.dist, hx]
    decide +kernel
  have hm := h.2
  rw [show ({ State.reset with phase := .body, win := v >>> 2 } : State).win = v >>> 2 from rfl, hs, hd] at hm
  have := Config.cfg_wellFormed.syncMaxErr_lt
  omega

theorem witness_StatisticsEventWhenDue : State.StatDue { State.reset with statDiv := 479 } ∧
    ¬ State.StatDue State.reset := by decide

theorem witness_RunOfSymbolsObservesEach : ∃ (s : State) (syms : List Sym) (rest : List Presented),
    syms ≠ [] ∧ rest ≠ [] ∧ s.input = syms.map (fun d => .pins 0 (0b01#2 ++ d)) ++ rest :=
  ⟨{ State.reset with input := [.pins 0 5, .pins 0 7, .pins 1 0] }, [1, 3], [.pins 1 0], by simp, by simp, rfl⟩

/-- Both ends of the range: one symbol, and a whole period. -/
theorem witness_StatisticsEventOncePerPeriod : ∀ n ∈ [1, 480], State.reset.statDiv = 0 ∧
    0 < (List.replicate n (0 : Sym)).length ∧ (List.replicate n (0 : Sym)).length ≤ STATS_PERIOD := by
  intro n h
  simp only [List.mem_cons, List.not_mem_nil, or_false] at h
  rcases h with rfl | rfl <;> exact ⟨rfl, by rw [List.length_replicate]; decide, by rw [List.length_replicate] <;> decide⟩

/-- Both ways a run is undisturbed: the mode, and a pattern that no window of the run matches. -/
theorem witness_IdentifierTakesThirtyTwoSymbols : ∃ s : State, s.phase = .nid ∧ s.nidCnt = 0 ∧
    Undisturbed (ConfigExists.witnessWith .ignore) s.win (symbolsOf 0x1AB3886442E04562) ∧
    Undisturbed tc1 s.win (symbolsOf 0x1AB3886442E04562) := by
  refine ⟨{ State.reset with phase := .nid, win := 0x5575F5FF77FF }, rfl, rfl, .inl rfl, .inr ?_⟩
  decide +kernel

theorem witness_BodyHoldsTheSymbolsInOrder : ∀ n ∈ [3, 4], ∃ (s : State) (syms : List Sym), s.phase = .body ∧
    s.cursor = 0 ∧ 0 < s.bodyLen ∧ s.body.wf = true ∧ 2 * syms.length = evenUp s.bodyLen ∧
    Undisturbed tc1 s.win syms ∧ s.bodyLen = n := by
  intro n h
  simp only [List.mem_cons, List.not_mem_nil, or_false] at h
  rcases h with rfl | rfl
  · exact ⟨{ State.reset with phase := .body, bodyLen := 3 }, [1, 2], rfl, rfl, by decide, rfl, rfl,
      .inr (by decide +kernel), rfl⟩
  · exact ⟨{ State.reset with phase := .body, bodyLen := 4 }, [1, 2], rfl, rfl, by decide, rfl, rfl,
      .inr (by decide +kernel), rfl⟩

theorem gather_nil {n : Nat} (row : Fin n → Nat) : Memory.gather [] row = 0 := by
  apply BitVec.eq_of_getLsbD_eq
  intro i hi
  have h := Memory.gather_getLsbD [] row ⟨n - 1 - i, by omega⟩
  rw [show n - 1 - (n - 1 - i) = i by omega] at h
  rw [h]; simp

/-- The all-zero header arrives without errors. -/
theorem witness_HeaderSurvivesBitErrors : ∃ (s : State) (p : Vector Hexbit RsInst.k47.k) (D : BitVec 120)
    (e : Fin 36 → BitVec 18),
    (∀ q : Fin 27, p[q.val]'(Nat.lt_trans q.isLt (by decide)) = 0) ∧
    (∀ j : Fin 20, D.extractLsb' (6 * (19 - j.val)) 6 = p[27 + j.val]'(Nat.add_lt_add_left j.isLt 27)) ∧
    (∀ i : Fin 36, s.body.gather (Config.cfg.hduCwPos i) =
      (Config.cfg.enc24 ((Config.cfg.rsEnc .k47 p)[27 + i.val].setWidth 12)).setWidth 18 ^^^ e i) ∧
    (∀ i, Bits.popcount (e i) ≤ Config.cfg.t24) ∧
    ((List.finRange 36).countP fun i => e i != 0) ≤ Config.cfg.hduMismMax := by
  refine ⟨State.reset, Vector.replicate 47 0, 0, fun _ => 0, fun q => Vector.getElem_replicate _,
    fun j => Eq.trans (by simp) (Vector.getElem_replicate (n := 47) (a := (0 : Hexbit)) (Nat.add_lt_add_left j.isLt 27)).symm,
    fun i => ?_,
    fun _ => by rw [Bits.popcount_zero]; exact Nat.zero_le _, by simp⟩
  have h1 : Config.cfg.rsEnc .k47 (Vector.replicate 47 0) = Vector.replicate 63 0 := Config.cfg_wellFormed.rs_zero .k47
  have h2 := enc24_zero Config.cfg_wellFormed
  show Memory.gather [] _ = _
  rw [gather_nil, h1]
  simp [show Config.cfg.enc24 0#12 = 0 from h2]

theorem witness_ProcessorsWriteOnlyEventsAndEss :
    decodeInfo Config.cfg.duid (0x293#12 ++ Config.cfg.duid .ldu1) = .ldu1 0x293 ∧
    decodeInfo Config.cfg.duid (0x293#12 ++ Config.cfg.duid .ldu2) = .ldu2 0x293 := by
  constructor <;> rw [decodeInfo_row, typeOfCode_code Config.cfg_wellFormed.duid_distinct] <;> rfl

theorem t24_pos : 1 ≤ Config.cfg.t24 := by
  obtain ⟨d, h3, -, -, ht⟩ := Config.cfg_wellFormed.t24_radius
  omega

/-- No error, and one bit, which every code of R6 corrects. -/
theorem witness_BlockCodeCorrects : Bits.popcount (0 : BitVec 24) ≤ Config.cfg.t24 ∧
    Bits.popcount (1 : BitVec 24) ≤ Config.cfg.t24 :=
  ⟨by rw [Bits.popcount_zero]; exact Nat.zero_le _, le_trans (by decide) t24_pos⟩

/-- A codeword, and a codeword with one hexbit in error, of each instance. -/
theorem witness_ReedSolomonUnits : ∀ i : RsInst, ∃ (p : Vector Hexbit i.k) (hb hb' : HexVec),
    symDist hb (Config.cfg.rsEnc i p) ≤ (63 - i.k) / 2 ∧ hb' ≠ Config.cfg.rsEnc i p ∧
    symDist hb' (Config.cfg.rsEnc i p) ≤ (63 - i.k) / 2 := by
  intro i
  refine ⟨Vector.replicate i.k 0, Vector.replicate 63 0, Vector.ofFn fun j => if j.val = 5 then 1 else 0, ?_, ?_, ?_⟩ <;>
    rw [Config.cfg_wellFormed.rs_zero i]
  · rw [symDist_self]; exact Nat.zero_le _
  · intro h
    have := congrArg (fun v : HexVec => v[5]) h
    simp at this
  · have : symDist (Vector.ofFn fun j => if j.val = 5 then 1 else 0) (Vector.replicate 63 0) = 1 := by decide +kernel
    rw [this]; cases i <;> decide

/-- The first offset with a cell missing. -/
theorem witness_UnitCallsThatStop : ∃ off, Config.cfg.bodyMax < off + 196 ∧ off + 195 ≤ Config.cfg.bodyMax :=
  ⟨Config.cfg.bodyMax - 195, by omega, by
    have h1 := Config.cfg_wellFormed.tsbkBlockOff_le 0 Config.cfg_wellFormed.tsbkMaxBlocks_pos
    have h2 := Config.cfg_wellFormed.bodyLen_le .tsbk
    unfold evenUp at h2
    omega⟩

/-- Offset 0, and the last offset whose cells all exist. -/
theorem witness_TrellisDecodesTheNearestPath : 0 + 196 ≤ Config.cfg.bodyMax ∧
    Config.cfg.bodyMax - 196 + 196 ≤ Config.cfg.bodyMax := by
  have h1 := Config.cfg_wellFormed.tsbkBlockOff_le 0 Config.cfg_wellFormed.tsbkMaxBlocks_pos
  have h2 := Config.cfg_wellFormed.bodyLen_le .tsbk
  unfold evenUp at h2
  omega

/-- The segment of twelve zero bytes under a well-formed configuration. -/
theorem witness_TrellisWithoutErrors : ∃ (c : Cfg) (m : Memory) (off : Nat) (ys : Fin 49 → BitVec 2) (b : Block),
    c.WellFormed ∧ (∀ j, receivedWord c m off j = c.trellisTab (stateBefore ys j) (ys j)) ∧ IsPacked ys b := by
  refine ⟨ConfigExists.witness, [], 0, fun _ => 0, Vector.replicate 12 0, ConfigExists.witness_wellFormed, fun j => ?_,
    fun q k => ?_⟩
  · exact gather_nil _
  · simp

theorem witness_SingleBitChangeIsDetected : tc1.crc16Poly.getLsbD 16 = true ∧ tc1.crc16Poly.getLsbD 0 = true := by decide

theorem witness_IdentifierDecoderContract : ∃ w nac duid par cw nerr,
    Config.cfg.nidDecode w = .ok nac duid par cw nerr := by
  obtain ⟨par, cw, h⟩ := Config.cfg_wellFormed.nid_every 0 0
  exact ⟨cw, 0, 0, par, cw, 0, h⟩

theorem witness_UnitsArePure : ∃ (i : Instr) (s s' t : State), i.isUnit = true ∧ s'.body = s.body ∧ s' ≠ s ∧
    exec i s = .next t :=
  ⟨.voiceDeint 8, { State.reset with body := [(3, true)] }, { State.reset with body := [(3, true)], nac := 1 }, _, rfl,
    rfl, by decide, rfl⟩

theorem witness_VoicePackRoundTrip : ∃ b : Bytes11, b[10] ≠ 0 ∧ b[10].extractLsb' 0 2 = 0 :=
  ⟨#v[0, 0, 0, 0, 0, 0, 0, 0, 0, 0, 0xFC], by decide, by decide⟩

/-- Two bodies that differ in a bit that no voice table names. -/
theorem witness_VoiceDependsOnVoiceBitsOnly : ∃ m m' : Memory, m ≠ m' ∧
    ∀ g j, Memory.read m' (tc1.voicePos g j) = Memory.read m (tc1.voicePos g j) := by
  refine ⟨[], [(0, true)], by decide, fun g j => ?_⟩
  have : tc1.voicePos g j ≠ 0 := by show 240 + 88 * g.val + j.val ≠ 0; omega
  rw [Memory.read_cons, if_neg this]

theorem witness_BlockDecodeAnswersAlways : ∃ (w : BitVec 24) (u : BitVec 12),
    Bits.dist w (Config.cfg.enc24 u) ≤ Config.cfg.t24 := ⟨Config.cfg.enc24 0, 0, by rw [Bits.dist_self]; exact Nat.zero_le _⟩

end Sys2Proof.Tests
end

/-! What an operation can do, said once for all of them, and the proofs of the statements about the state
(spec/10_state.md): the invariant, `frame_done`, the counters, the divider, ESS and the frame of OBSERVE. -/

namespace Sys2Proof.Machine

open Sys2Proof

/-! ### The inversion of `exec` -/

/-- What an operation leaves of the state: OBSERVE on the state as it is or on cleared counters, the bare clear, the
reset, and every other operation, which writes its outputs and ESS only (R130, R196, R224). -/
inductive ExecStep (s : State) : Instr → State → Prop where
  | symbol (d : Sym) : ExecStep s (.observe d) (observe Config.cfg d s.beginStep)
  | clearedSymbol (d : Sym) : ExecStep s (.clearObserve d) (observe Config.cfg d s.beginStep.clearStats)
  | cleared (x : BitVec 2) : ExecStep s (.statsClear x) s.beginStep.clearStats
  | reset (word : BitVec 4) : ExecStep s (.reset word) { State.reset with input := s.input }
  | outputsOnly {i : Instr} (noClear : i.clears = false) (noSymbol : ∀ d, i ≠ .observe d)
      (es : List Event) (u : Option UnitResult) (e : Ess) (es_le : es.length ≤ Config.cfg.tsbkMaxBlocks) :
      ExecStep s i { s with frameDone := false, events := es, unitOut := u, ess := e }

/-- An operation without a result: IDLE, DISCARD and UNREC. -/
theorem ExecStep.ofQuiet (s : State) {i : Instr} (noClear : i.clears = false) (noSymbol : ∀ d, i ≠ .observe d) :
    ExecStep s i s.beginStep :=
  .outputsOnly noClear noSymbol [] none s.ess (Nat.zero_le _)

/-- A frame-type processor run by itself (log entry 3). -/
theorem ExecStep.ofRow (s : State) {i : Instr} (noClear : i.clears = false) (noSymbol : ∀ d, i ≠ .observe d)
    (t : FrameType) (nac : BitVec 12) : ExecStep s i (runRow t nac s) :=
  .outputsOnly noClear noSymbol _ none _ (processor_events_le _ Config.cfg_wellFormed.tsbkMaxBlocks_pos t _ _ _)

/-- A toolkit unit called by itself. -/
theorem ExecStep.ofUnit (s : State) {i : Instr} (hi : i.isUnit = true) (r : UnitResult) :
    ExecStep s i (s.beginStep.answer r) := by
  have noClear : i.clears = false := by cases i <;> cases hi <;> rfl
  have noSymbol : ∀ d, i ≠ .observe d := by rintro d rfl; cases hi
  exact .outputsOnly noClear noSymbol [] (some r) s.ess (Nat.zero_le _)

/-- Every operation that answers a next state answers one of the five kinds. -/
theorem exec_cases {i : Instr} {s t : State} (h : exec i s = .next t) : ExecStep s i t := by
  cases i with
  | observe d => cases h; exact .symbol d
  | clearObserve d => cases h; exact .clearedSymbol d
  | statsClear x => cases h; exact .cleared x
  | reset word => cases h; exact .reset word
  | idle _ | discard _ | unrec _ _ => cases h; exact .ofQuiet s rfl nofun
  | hdu nac | tdu nac | ldu1 nac | tsbk nac | ldu2 nac | pdu nac | tdulc nac =>
    cases h; exact .ofRow s rfl (by nofun) _ nac
  | trellisDec off =>
    simp only [exec, execTrellisDec] at h
    split at h <;> cases h
    exact .ofUnit s rfl _
  | fuReserved sel => cases h
  | g24Dec _ | g24Enc _ | rs6355 _ | rs6351 _ | rs6347 _ | hamDec _ | hamEnc _ | crc16 _ | crc32 _ | voiceDeint _
  | voicePack _ | nidDec _ => cases h; exact .ofUnit s rfl _

/-! ### The invariant -/

theorem State.Inv.clearStats {s : State} (h : s.Inv) : s.clearStats.Inv :=
  { h with events_le := h.events_le }

theorem State.Inv.beginStep {s : State} (h : s.Inv) : s.beginStep.Inv :=
  inv_setOutputs h false [] none s.input s.ess (Nat.zero_le _)

theorem State.Inv.takeInput {s : State} (h : s.Inv) : s.takeInput.Inv :=
  inv_setOutputs h s.frameDone s.events s.unitOut s.input.tail s.ess h.events_le

/-- Settles O7: the reset values of R41 lie in their ranges, whatever the configuration. -/
theorem resetMeetsTheInvariant : Obligations.ResetMeetsTheInvariant where
  body_wf := Memory.reset_wf
  body_within := rfl
  nidCnt_lt := by decide
  nidCnt_zero _ := rfl
  bodyLen_le := Nat.zero_le _
  cursor_even := rfl
  cursor_le := Nat.zero_le _
  cursor_lt := nofun
  statDiv_lt := by decide
  nidNerr_le := by decide
  events_le := Nat.zero_le _

/-- Every operation keeps the invariant. -/
theorem exec_inv {i : Instr} {s t : State} (h : s.Inv) (ht : exec i s = .next t) : t.Inv := by
  cases exec_cases ht with
  | symbol d => exact observe_inv h.beginStep rfl d
  | clearedSymbol d => exact observe_inv h.beginStep.clearStats rfl d
  | cleared x => exact h.beginStep.clearStats
  | reset word => exact inv_setOutputs resetMeetsTheInvariant false [] none s.input Ess.reset (Nat.zero_le _)
  | outputsOnly _ _ es u e es_le => exact inv_setOutputs h false es u s.input e (Nat.le_succ_of_le es_le)

/-- Settles O8: taking in an input keeps the invariant, and so does the operation that stands there. -/
theorem everyStepKeepsTheInvariant : Obligations.EveryStepKeepsTheInvariant := by
  intro s t h ht
  unfold step at ht
  split at ht
  · exact exec_inv h.takeInput ht
  · cases ht

/-! ### `frame_done`, the counters and the divider -/

/-- Settles O9: every operation but the two that take a symbol leaves `frame_done` at 0. -/
theorem frameDoneOnlyFromSymbols : Obligations.FrameDoneOnlyFromSymbols := by
  intro i s t ht hdone
  cases exec_cases ht with
  | symbol d => exact ⟨d, .inl rfl⟩
  | clearedSymbol d => exact ⟨d, .inr rfl⟩
  | cleared x => cases hdone
  | reset word => cases hdone
  | outputsOnly => cases hdone

/-- Settles O10: of the operations that are no clear, only OBSERVE writes the counters. -/
theorem countersOnlyGrow : Obligations.CountersOnlyGrow := by
  intro i s t hi ht
  cases exec_cases ht with
  | symbol d =>
    obtain ⟨good, bad⟩ := work_goodbad Config.cfg d s.beginStep
    refine ⟨fun _ _ => observe_symbols .., fun h => absurd rfl (h d), ?_, ?_, ?_⟩
    · rw [observe_syncs]
      split
      · exact .inr rfl
      · exact .inl rfl
    · rw [observe_goodNids]; exact good
    · rw [observe_badNids]; exact bad
  | clearedSymbol d => cases hi
  | cleared x => cases hi
  | reset word => cases hi
  | outputsOnly _ noSymbol => exact ⟨fun d h => absurd h (noSymbol d), fun _ => rfl, .inl rfl, .inl rfl, .inl rfl⟩

/-- The divider counts symbols modulo 480 (R32, R218). -/
theorem observe_statDiv_toNat (c : Cfg) (d : Sym) (s : State) (h : s.statDiv.toNat < STATS_PERIOD) :
    (observe c d s).statDiv.toNat = (s.statDiv.toNat + 1) % STATS_PERIOD := by
  have hadd : (s.statDiv + 1).toNat = s.statDiv.toNat + 1 :=
    BitVec.toNat_add_of_lt (lt_of_lt_of_le (Nat.succ_lt_succ h) (by decide))
  rw [observe_statDiv]
  split
  · next due => rw [← hadd, due]; rfl
  · next due =>
    have hne : s.statDiv.toNat + 1 ≠ STATS_PERIOD := fun h480 => due (BitVec.eq_of_toNat_eq (hadd.trans h480))
    rw [hadd, Nat.mod_eq_of_lt (by omega)]

/-- Settles O12: OBSERVE adds 1 to both sides modulo 480, and no other operation that is no clear touches either. -/
theorem dividerIsSymbolsModPeriod : Obligations.DividerIsSymbolsModPeriod := by
  refine ⟨rfl, fun s t i hdiv hwrap hi ht => ?_⟩
  cases exec_cases ht with
  | symbol d =>
    have hlt : s.statDiv.toNat < STATS_PERIOD := hdiv ▸ Nat.mod_lt _ (by decide)
    have hsym : (s.symbols + 1).toNat = s.symbols.toNat + 1 := BitVec.toNat_add_of_lt hwrap
    calc (observe Config.cfg d s.beginStep).statDiv.toNat
        = (s.statDiv.toNat + 1) % STATS_PERIOD := observe_statDiv_toNat _ d s.beginStep hlt
      _ = (s.symbols.toNat + 1) % STATS_PERIOD := by rw [hdiv, Nat.mod_add_mod]
      _ = (observe Config.cfg d s.beginStep).symbols.toNat % STATS_PERIOD := by
        rw [observe_symbols, beginStep_symbols, hsym]
  | clearedSymbol d => cases hi
  | cleared x => cases hi
  | reset word => cases hi
  | outputsOnly => exact hdiv

/-! ### ESS -/

/-- A processor run by itself looks at ESS only to write ESS (R34). -/
theorem runRow_withEss (t : FrameType) (nac : BitVec 12) (s : State) (e : Ess) :
    { runRow t nac { s with ess := e } with ess := (runRow t nac s).ess } = runRow t nac s :=
  congrArg (fun es => { runRow t nac s with events := es })
    (processor_events_ess Config.cfg t ⟨nac, Config.cfg.duid t⟩ s.body e s.ess)

/-- Settles O13: OBSERVE and the processors look at ESS only to write it, and nothing else looks at it. -/
theorem nothingDependsOnEss : Obligations.NothingDependsOnEss := by
  intro i s t e ht
  cases i with
  | observe d => cases ht; exact ⟨_, rfl, observe_withEss Config.cfg d s.beginStep e⟩
  | clearObserve d => cases ht; exact ⟨_, rfl, observe_withEss Config.cfg d s.beginStep.clearStats e⟩
  | hdu nac | tdu nac | ldu1 nac | tsbk nac | ldu2 nac | pdu nac | tdulc nac =>
    cases ht; exact ⟨_, rfl, runRow_withEss _ nac s e⟩
  | trellisDec off =>
    simp only [exec, execTrellisDec] at ht ⊢
    split at ht <;> cases ht
    next fits => rw [if_pos fits]; exact ⟨_, rfl, rfl⟩
  | fuReserved sel => cases ht
  | idle _ | statsClear _ | reset _ | discard _ | unrec _ _ | g24Dec _ | g24Enc _ | rs6355 _ | rs6351 _ | rs6347 _
  | hamDec _ | hamEnc _ | crc16 _ | crc32 _ | voiceDeint _ | voicePack _ | nidDec _ => cases ht; exact ⟨_, rfl, rfl⟩

/-! ### The frame of OBSERVE -/

/-- The phase work of a symbol that is not an identifier's last leaves the Frame registers and the body's length alone
(R26, R27). -/
theorem work_keeps_frame (c : Cfg) (d : Sym) {s : State} (h : s.phase ≠ .nid ∨ s.nidCnt ≠ 31) :
    (work c d s).state.nac = s.nac ∧ (work c d s).state.duid = s.duid ∧ (work c d s).state.par = s.par ∧
    (work c d s).state.nidCw = s.nidCw ∧ (work c d s).state.nidNerr = s.nidNerr ∧
    (work c d s).state.bodyLen = s.bodyLen := by
  rcases phase_cases s.phase with hq | hq | hq
  · rw [work_search hq]; exact ⟨rfl, rfl, rfl, rfl, rfl, rfl⟩
  · rw [work_nid hq, if_neg (h.resolve_left (not_not_intro hq))]; exact ⟨rfl, rfl, rfl, rfl, rfl, rfl⟩
  · rw [work_body hq]; exact ⟨rfl, rfl, rfl, rfl, rfl, rfl⟩

/-- The cursor moves in phase BODY and with an identifier's last symbol only (R25). -/
theorem work_keeps_cursor (c : Cfg) (d : Sym) {s : State} (h : s.phase ≠ .nid ∨ s.nidCnt ≠ 31)
    (hb : s.phase ≠ .body) : (work c d s).state.cursor = s.cursor := by
  rcases phase_cases s.phase with hq | hq | hq
  · rw [work_search hq]; rfl
  · rw [work_nid hq, if_neg (h.resolve_left (not_not_intro hq))]; rfl
  · exact absurd hq hb

/-- Outside phase NID no phase work touches the identifier accumulator or its count (R24). -/
theorem work_keeps_nid (c : Cfg) (d : Sym) {s : State} (h : s.phase ≠ .nid) :
    (work c d s).state.nidAcc = s.nidAcc ∧ (work c d s).state.nidCnt = s.nidCnt := by
  rcases phase_cases s.phase with hq | hq | hq
  · rw [work_search hq]; exact ⟨rfl, rfl⟩
  · exact absurd hq h
  · rw [work_body hq]; exact ⟨rfl, rfl⟩

/-- Outside phase BODY no phase work touches the body buffer (R50). -/
theorem work_keeps_body (c : Cfg) (d : Sym) {s : State} (h : s.phase ≠ .body) : (work c d s).state.body = s.body := by
  rcases phase_cases s.phase with hq | hq | hq
  · rw [work_search hq]; rfl
  · rw [work_nid hq]
    split
    · cases hd : c.nidDecode (accumulate d (shiftWindow d (count s))).nidAcc with
      | fail => rw [decodeNid_fail hd]; rfl
      | ok => rw [decodeNid_ok hd]; rfl
    · rfl
  · exact absurd hq h

/-- The phase work changes no cell but the two at the cursor, and those in phase BODY only (R50, R112). -/
theorem work_keeps_cell (c : Cfg) (d : Sym) {s : State} {a : Nat}
    (h : ¬ (s.phase = .body ∧ (a = s.cursor ∨ a = s.cursor + 1))) :
    (work c d s).state.body.read a = s.body.read a := by
  by_cases hb : s.phase = .body
  · obtain ⟨h0, h1⟩ := not_or.mp fun ha => h ⟨hb, ha⟩
    rw [work_body hb]
    exact Memory.read_memWrite_two_ne _ _ _ _ h0 h1
  · rw [work_keeps_body c d hb]

/-- Settles O25: each clause is the frame of the phase work, since neither the sync test nor the dispatch writes these
fields, but for the sync match's reset of the identifier. -/
theorem observeFrame : Obligations.ObserveFrame := by
  intro sym s t ht
  cases ht
  refine ⟨fun h => ?_, fun hp hsync => ?_, fun a ha => ?_, fun hdone => ?_, observe_unitOut .., observe_input ..⟩
  · rw [observe_nac, observe_duid, observe_par, observe_nidCw, observe_nidNerr, observe_bodyLen, observe_cursor]
    obtain ⟨nac, duid, par, nidCw, nidNerr, bodyLen⟩ := work_keeps_frame Config.cfg sym (s := s.beginStep) h
    exact ⟨nac, duid, par, nidCw, nidNerr, bodyLen, work_keeps_cursor Config.cfg sym (s := s.beginStep) h⟩
  · rw [observe_nidAcc, observe_nidCnt, beginStep_phase, beginStep_win, if_neg hsync, if_neg hsync]
    exact work_keeps_nid Config.cfg sym (s := s.beginStep) hp
  · rw [observe_body]
    exact work_keeps_cell Config.cfg sym (s := s.beginStep) ha
  · rw [observe_ess, hdone]; rfl

end Sys2Proof.Machine

/-! The step and its input, runs of symbols, and the body they fill (spec/20_memory.md): one input a step, a run of
symbols as OBSERVE of each, and the order of the bits of an undisturbed body. -/

namespace Sys2Proof.Machine

open Sys2Proof

/-! ### The step and its input -/

/-- The operation that stands at the inputs runs on the state with that input taken in (R56). -/
theorem step_of_decode {s : State} {i : Instr} (h : decode s.presented = .ok i) : step s = exec i s.takeInput := by
  rw [step, h]

theorem presented_cons {s : State} {p : Presented} {rest : List Presented} (h : s.input = p :: rest) :
    s.presented = p := by
  rw [State.presented, h]; rfl

theorem takeInput_cons {s : State} {p : Presented} {rest : List Presented} (h : s.input = p :: rest) :
    s.takeInput = { s with input := rest } := by
  rw [State.takeInput, h]; rfl

theorem step_cons {s : State} {p : Presented} {rest : List Presented} {i : Instr} (hs : s.input = p :: rest)
    (hp : decode p = .ok i) : step s = exec i { s with input := rest } := by
  rw [step_of_decode ((presented_cons hs).symm ▸ hp), takeInput_cons hs]

theorem presented_of_noInput {s : State} (h : s.input = []) : s.presented = .pins 0 0 := by
  rw [State.presented, h]; rfl

theorem takeInput_of_noInput {s : State} (h : s.input = []) : s.takeInput = s :=
  congrArg (fun x => { s with input := x }) (by rw [h]; rfl : s.input.tail = s.input)

/-- With no input left the ports carry the word 0000, which is IDLE (R63). -/
theorem step_noInput {s : State} (h : s.input = []) : step s = exec (.idle 0) s := by
  have hidle : decode (.pins 0 0) = .ok (.idle 0) := by decide
  rw [step_of_decode ((presented_of_noInput h).symm ▸ hidle), takeInput_of_noInput h]

/-- A step that answers a next state has decoded its input and run the operation. -/
theorem exec_of_step_next {s t : State} (h : step s = .next t) :
    ∃ i, decode s.presented = .ok i ∧ exec i s.takeInput = .next t := by
  unfold step at h
  split at h
  · next i hi => exact ⟨i, hi, h⟩
  · cases h

/-- Settles O5: the step is `exec` of the decoded operation after the input is taken in, and no operation touches the
inputs to come. -/
theorem stepRunsTheDecodedOperation : Obligations.StepRunsTheDecodedOperation := by
  refine ⟨fun _ _ _ _ => step_cons, fun _ => step_noInput, fun s t ht => ?_⟩
  obtain ⟨i, -, hi⟩ := exec_of_step_next ht
  rw [exec_input i _ t hi, takeInput_input]

/-! ### A run on symbols -/

/-- The input word of a valid symbol without a clear is OBSERVE of it (R70). -/
theorem decode_symbol : ∀ d : Sym, decode (.pins 0 (0b01#2 ++ d)) = .ok (.observe d) := by decide

theorem step_symbol {s : State} {d : Sym} {rest : List Presented} (h : s.input = .pins 0 (0b01#2 ++ d) :: rest) :
    step s = .next (observe Config.cfg d { s with input := rest }.beginStep) :=
  step_cons h (decode_symbol d)

theorem run_succ_of_next {M : Host.Core} {s t : M.State} (h : M.step s = .next t) (n : Nat) :
    M.run (n + 1) s = M.run n t := by
  rw [Host.Core.run, h]

/-- Settles O27, by induction on the symbols: the first step is OBSERVE of the first symbol, and that OBSERVE only
passes the inputs to come through. -/
theorem runOfSymbolsObservesEach : Obligations.RunOfSymbolsObservesEach := by
  intro s syms rest hs
  induction syms generalizing s with
  | nil => cases s; cases hs; rfl
  | cons d ds ih =>
    calc Sys2Proof.core.run (ds.length + 1) s
        = Sys2Proof.core.run ds.length _ := run_succ_of_next (M := Sys2Proof.core) (step_symbol hs) ds.length
      _ = .next (observeAll Config.cfg { observe Config.cfg d _ with input := rest } ds) := ih _ (observe_input ..)
      _ = .next (observeAll Config.cfg { s with input := rest } (d :: ds)) := by rw [← observe_withInput]; rfl

/-! ### The body as its symbols arrive -/

/-- OBSERVE in phase BODY: every field that the phase's work and the sync test decide (R112, R113). -/
theorem observe_inBody {s : State} (h : s.phase = .body) (c : Cfg) (d : Sym) :
    (observe c d s).body = s.body.memWrite s.cursor d ∧ (observe c d s).cursor = s.cursor + 2 ∧
    (observe c d s).bodyLen = s.bodyLen ∧ (observe c d s).frameDone = decide (s.bodyLen ≤ s.cursor + 2) ∧
    (observe c d s).phase = if SyncAt c .body (slide s.win d) then .nid
      else if s.bodyLen ≤ s.cursor + 2 then .search else .body := by
  rw [observe_body, observe_cursor, observe_bodyLen, observe_frameDone, observe_phase, work_body h, h]
  exact ⟨rfl, rfl, rfl, rfl, rfl⟩

/-- `t` is the state after the first `n` symbols of an undisturbed body that began in `s`: their bits stand in order
from cell 0 on, everything from cell `2 * n` on is as it was, and the body is complete when its length is reached. -/
structure BodyAfter (s : State) (syms : List Sym) (n : Nat) (t : State) : Prop where
  bodyLen_eq : t.bodyLen = s.bodyLen
  cursor_eq : t.cursor = 2 * n
  body_wf : t.body.wf = true
  phase_eq : t.phase = if s.bodyLen ≤ 2 * n then .search else .body
  frameDone_eq : 0 < n → t.frameDone = decide (s.bodyLen ≤ 2 * n)
  received : ∀ (k : Nat) (h : k < syms.length), k < n →
    t.body.read (2 * k) = syms[k].getLsbD 1 ∧ t.body.read (2 * k + 1) = syms[k].getLsbD 0
  beyond : ∀ a, 2 * n ≤ a → t.body.read a = s.body.read a

theorem BodyAfter.zero {s : State} (syms : List Sym) (hp : s.phase = .body) (hcur : s.cursor = 0) (hlen : 0 < s.bodyLen)
    (hwf : s.body.wf = true) : BodyAfter s syms 0 s where
  bodyLen_eq := rfl
  cursor_eq := hcur
  body_wf := hwf
  phase_eq := by rw [if_neg (by omega), hp]
  frameDone_eq := nofun
  received := nofun
  beyond _ _ := rfl

/-- One more symbol without a sync match: its two bits go to the cells `2 * n` and `2 * n + 1` (R112). -/
theorem BodyAfter.succ {c : Cfg} {s t : State} {syms : List Sym} {n : Nat} (h : BodyAfter s syms n t)
    (hn : n < syms.length) (hlen : 2 * n < s.bodyLen) (hsync : ¬ SyncAt c .body (slide t.win syms[n])) :
    BodyAfter s syms (n + 1) (observe c syms[n] t.beginStep) := by
  have hp : t.beginStep.phase = .body := by rw [beginStep_phase, h.phase_eq, if_neg (by omega)]
  obtain ⟨hbody, hcursor, hbodyLen, hdone, hphase⟩ := observe_inBody hp c syms[n]
  rw [beginStep_win, if_neg hsync] at hphase
  simp only [beginStep_body, beginStep_cursor, beginStep_bodyLen, h.bodyLen_eq,
    h.cursor_eq] at hbody hcursor hbodyLen hdone hphase
  have hread (a : Nat) : (observe c syms[n] t.beginStep).body.read a =
      if a = 2 * n then syms[n].getLsbD 1 else if a = 2 * n + 1 then syms[n].getLsbD 0 else t.body.read a := by
    rw [hbody, Memory.read_memWrite_two _ h.body_wf]
  exact {
    bodyLen_eq := hbodyLen
    cursor_eq := hcursor
    body_wf := hbody ▸ Memory.memWrite_two_wf _ h.body_wf _ _
    phase_eq := hphase
    frameDone_eq := fun _ => hdone
    received := fun k hk hkn => by
      rw [hread, hread]
      rcases Nat.lt_succ_iff_lt_or_eq.mp hkn with hlt | rfl
      · rw [if_neg (by omega), if_neg (by omega), if_neg (by omega), if_neg (by omega)]
        exact h.received k hk hlt
      · rw [if_pos rfl, if_neg (by omega), if_pos rfl]
        exact ⟨rfl, rfl⟩
    beyond := fun a ha => by
      rw [hread, if_neg (by omega), if_neg (by omega)]
      exact h.beyond a (by omega) }

/-- A body whose symbols carry its length, rounded up to even, is complete with the last of them and not before. -/
theorem bodyLen_le_iff_last {len count n : Nat} (hcount : 2 * count = evenUp len) (hn : n ≤ count) :
    len ≤ 2 * n ↔ n = count := by
  unfold evenUp at hcount
  omega

/-- An undisturbed body after any number of its symbols, by induction on that number. -/
theorem observeAll_bodyAfter {c : Cfg} {s : State} {syms : List Sym} (hp : s.phase = .body) (hcur : s.cursor = 0)
    (hlen : 0 < s.bodyLen) (hwf : s.body.wf = true) (hsyms : 2 * syms.length = evenUp s.bodyLen)
    (hun : Undisturbed c s.win syms) {n : Nat} (hn : n ≤ syms.length) :
    BodyAfter s syms n (observeAll c s (syms.take n)) := by
  induction n with
  | zero => exact .zero syms hp hcur hlen hwf
  | succ n ih =>
    have hmore : 2 * n < s.bodyLen := by
      have := bodyLen_le_iff_last hsyms (Nat.le_of_lt hn)
      omega
    have hsync := undisturbed_not hun .body nofun n hn
    rw [List.take_succ_eq_append_getElem hn, List.foldl_append, ← observeAll_win] at hsync
    rw [observeAll_take_succ c s syms n hn]
    exact (ih (Nat.le_of_lt hn)).succ hn hmore hsync

/-- Settles O30: each clause is read off `BodyAfter`, of the whole run or, for the frame not being done early, of a part
of it. -/
theorem bodyHoldsTheSymbolsInOrder : Obligations.BodyHoldsTheSymbolsInOrder := by
  intro c s syms hp hcur hlen hwf hsyms hun
  have after {n : Nat} (hn : n ≤ syms.length) := observeAll_bodyAfter hp hcur hlen hwf hsyms hun hn
  have last := after (le_refl _)
  rw [List.take_length] at last
  have hfull : s.bodyLen ≤ 2 * syms.length := (bodyLen_le_iff_last hsyms (le_refl _)).mpr rfl
  refine ⟨?_, ?_, fun n hpos hn => ?_, fun k hk => last.received k hk hk, last.beyond⟩
  · rw [last.frameDone_eq (by omega), decide_eq_true hfull]
  · rw [last.phase_eq, if_pos hfull]
  · have hpart : ¬ s.bodyLen ≤ 2 * n := fun h => hn.ne ((bodyLen_le_iff_last hsyms hn.le).mp h)
    rw [(after hn.le).frameDone_eq hpos, decide_eq_false hpart]

end Sys2Proof.Machine

/-! What the decoder answers, word by word, and the proofs of the statements about the encoding (spec/30_encoding.md).
Each format has one lemma for what its words decode to; the encoder reads the words back from there, and the laws
`EncodeRow` then give the row of the table. -/

namespace Sys2Proof.Machine

open Sys2Proof

/-! ### Formats IN and PIN: the ports -/

/-- Format IN by its two halves: the select bits and the symbol, which no row loses (R70). -/
theorem decodeIn_append : ∀ x : BitVec 2,
    decodeIn (0b00#2 ++ x) = .idle x ∧ decodeIn (0b01#2 ++ x) = .observe x ∧
    decodeIn (0b10#2 ++ x) = .statsClear x ∧ decodeIn (0b11#2 ++ x) = .clearObserve x := by
  decide

/-- The encoder gives the ports back from what stands at them (R70, R260). -/
theorem encode_decodePins : ∀ (rst : BitVec 1) (word : BitVec 4),
    encode (if rst = 1 then .reset word else decodeIn word) = .pins rst word := by
  decide

/-- Every operation of formats IN and PIN is well formed, whatever the type codes. -/
theorem decodePins_wellFormed (code : FrameType → BitVec 4) (rst : BitVec 1) (word : BitVec 4) :
    (if rst = 1 then .reset word else decodeIn word : Instr).wellFormed code = true := by
  unfold decodeIn
  split
  · rfl
  · split <;> rfl

/-! ### Format NID: the information word -/

/-- The operation of a recognized type, with its NAC (R76). -/
def typeInstr : FrameType → BitVec 12 → Instr
  | .hdu, nac => .hdu nac
  | .tdu, nac => .tdu nac
  | .ldu1, nac => .ldu1 nac
  | .tsbk, nac => .tsbk nac
  | .ldu2, nac => .ldu2 nac
  | .pdu, nac => .pdu nac
  | .tdulc, nac => .tdulc nac

@[simp] theorem encodeWith_typeInstr (code : FrameType → BitVec 4) (t : FrameType) (nac : BitVec 12) :
    encodeWith code (typeInstr t nac) = .info (nac ++ code t) := by
  cases t <;> rfl

@[simp] theorem typeInstr_wellFormed (code : FrameType → BitVec 4) (t : FrameType) (nac : BitVec 12) :
    (typeInstr t nac).wellFormed code = (nac != 0) := by
  cases t <;> rfl

/-- What an information word names under the type codes `code`: DISCARD by its NAC, a recognized type by its code, and
UNREC by a code that is none of the seven (R76). -/
inductive InfoRow (code : FrameType → BitVec 4) : BitVec 16 → Instr → Prop where
  | discard (d : BitVec 4) : InfoRow code (0#12 ++ d) (.discard d)
  | recognized {nac : BitVec 12} {d : BitVec 4} {t : FrameType} (hnac : nac ≠ 0) (ht : typeOfCode code d = some t) :
      InfoRow code (nac ++ d) (typeInstr t nac)
  | unrec {nac : BitVec 12} {d : BitVec 4} (hnac : nac ≠ 0) (hd : typeOfCode code d = none) :
      InfoRow code (nac ++ d) (.unrec nac d)

theorem decodeInfo_discard (code : FrameType → BitVec 4) (d : BitVec 4) :
    decodeInfo code (0#12 ++ d) = .discard d := by
  rw [decodeInfo_row]
  rfl

theorem decodeInfo_recognized {code : FrameType → BitVec 4} {nac : BitVec 12} {d : BitVec 4} {t : FrameType}
    (hnac : nac ≠ 0) (ht : typeOfCode code d = some t) : decodeInfo code (nac ++ d) = typeInstr t nac := by
  rw [decodeInfo_row, if_neg hnac, ht]
  cases t <;> rfl

theorem decodeInfo_unrec {code : FrameType → BitVec 4} {nac : BitVec 12} {d : BitVec 4} (hnac : nac ≠ 0)
    (hd : typeOfCode code d = none) : decodeInfo code (nac ++ d) = .unrec nac d := by
  rw [decodeInfo_row, if_neg hnac, hd]

/-- Every information word names one of the three kinds of row, and the decoder answers it. -/
theorem infoRow_decodeInfo (code : FrameType → BitVec 4) (word : BitVec 16) :
    InfoRow code word (decodeInfo code word) := by
  obtain ⟨nac, d, rfl⟩ : ∃ (nac : BitVec 12) (d : BitVec 4), word = nac ++ d := ⟨_, _, info_split word⟩
  by_cases hnac : nac = 0
  · subst hnac
    exact decodeInfo_discard code d ▸ .discard d
  · cases ht : typeOfCode code d with
    | some t => exact decodeInfo_recognized hnac ht ▸ .recognized hnac ht
    | none => exact decodeInfo_unrec hnac ht ▸ .unrec hnac ht

namespace InfoRow

variable {code : FrameType → BitVec 4} {word : BitVec 16} {i : Instr}

/-- An information word reads back from its operation under the codes it was read under (R75). -/
theorem encodeWith_eq (h : InfoRow code word i) : encodeWith code i = .info word := by
  cases h with
  | discard d => rfl
  | recognized _ ht => rw [encodeWith_typeInstr, code_of_typeOfCode code _ _ ht]
  | unrec => rfl

theorem wellFormed (h : InfoRow code word i) : i.wellFormed code = true := by
  cases h with
  | discard d => rfl
  | recognized hnac => rw [typeInstr_wellFormed, bne_iff_ne]; exact hnac
  | unrec hnac hd =>
    rw [Instr.wellFormed, (typeOfCode_none code _).mp hd, Bool.not_false, Bool.and_true, bne_iff_ne]
    exact hnac

/-- The operation of a word of format NID is the row the table names for it (note of the DISCARD row, R76). -/
theorem tableMnemonic_eq {p : Presented} (h : InfoRow (codesOf p) word i) (hp : tableWord p = (.nid, word.toNat)) :
    tableMnemonic p = some i.mnemonic := by
  cases h with
  | discard d => exact tableMnemonic_nid p 0 d hp
  | @recognized nac d t hnac ht =>
    rw [tableMnemonic_nid p nac d hp, beq_false_of_ne hnac, ht]
    cases t <;> rfl
  | @unrec nac d hnac hd =>
    rw [tableMnemonic_nid p nac d hp, beq_false_of_ne hnac, hd]
    rfl

end InfoRow

/-! ### Format FU: the unit calls -/

/-- A mapped answer is the image of an operand that was read. -/
theorem exists_of_map_eq_ok {ε α β : Type} {f : α → β} {x : Except ε α} {b : β} (h : x.map f = .ok b) :
    ∃ a, b = f a := by
  cases x with
  | ok a => exact ⟨a, (Except.ok.inj h).symm⟩
  | error e => cases h

/-- The select codes: the three units that take an operand of any length, VOICE_DEINT, whose operand has a bound, the
reserved codes, and the nine units whose operand only has to have its width (R90). -/
theorem selectCode_cases : ∀ sel : BitVec 4, sel = 0x7 ∨ sel = 0x8 ∨ sel = 0x9 ∨ sel = 0xA ∨ 13 ≤ sel.toNat ∨
    sel = 0x0 ∨ sel = 0x1 ∨ sel = 0x2 ∨ sel = 0x3 ∨ sel = 0x4 ∨ sel = 0x5 ∨ sel = 0x6 ∨ sel = 0xB ∨ sel = 0xC := by
  decide

/-- CRC16 takes whole bytes (log entry 4). -/
theorem decodeUnit_crc16 (bits : List Bool) : decodeUnit 0x8 bits =
    if bits.length % 8 = 0 then .ok (.crc16 (bytesOfBits bits)) else .error (.operandLength 0x8) := rfl

/-- VOICE_DEINT takes four bits that name one of the nine segments (R201). -/
theorem decodeUnit_voiceDeint (bits : List Bool) : decodeUnit 0xA bits =
    (operand 0xA 4 bits).bind fun s => (segment s).map .voiceDeint := rfl

/-- VOICE_PACK takes the 86 bits of the voice fields (R87). -/
theorem decodeUnit_voicePack (bits : List Bool) : decodeUnit 0xB bits =
    (operand 0xB 86 bits).map fun v => .voicePack (fieldsOf v) := rfl

/-- The reserved select codes are decoded, whatever the operand; running them is what is refused (R90). -/
theorem decodeUnit_reserved {sel : BitVec 4} (h : 13 ≤ sel.toNat) (bits : List Bool) :
    decodeUnit sel bits = .ok (.fuReserved sel) := by
  have hsel : ∀ s : BitVec 4, 13 ≤ s.toNat → s = 0xD ∨ s = 0xE ∨ s = 0xF := by decide
  rcases hsel sel h with rfl | rfl | rfl <;> rfl

/-- What a unit call decodes to is well formed, and the encoder gives it its select code back (R90). The operand bits of
TRELLIS_DEC and of a reserved code need not be those of the encoder (log entry 4). -/
theorem decodeUnit_ok {sel : BitVec 4} {bits : List Bool} {i : Instr} (h : decodeUnit sel bits = .ok i) :
    i.wellFormed Config.cfg.duid = true ∧ ∃ bits', encode i = .unit sel bits' := by
  rcases selectCode_cases sel with rfl | rfl | rfl | rfl | hres | rfl | rfl | rfl | rfl | rfl | rfl | rfl | rfl | rfl
  · cases h
    exact ⟨rfl, _, rfl⟩
  · rw [decodeUnit_crc16] at h
    split at h <;> cases h
    exact ⟨rfl, _, rfl⟩
  · cases h
    exact ⟨rfl, _, rfl⟩
  · rw [decodeUnit_voiceDeint] at h
    cases hs : operand 0xA 4 bits with
    | error e => rw [hs] at h; cases h
    | ok s =>
      rw [hs] at h
      obtain ⟨g, rfl⟩ := exists_of_map_eq_ok h
      exact ⟨rfl, _, rfl⟩
  · rw [decodeUnit_reserved hres] at h
    cases h
    exact ⟨decide_eq_true hres, _, rfl⟩
  all_goals
    obtain ⟨w, rfl⟩ := exists_of_map_eq_ok h
    exact ⟨rfl, _, rfl⟩

/-- A segment number read back from its bits (R201). -/
theorem decodeUnit_segment : ∀ g : Fin 9, decodeUnit 0xA (Bits.natBits 4 g.val) = .ok (.voiceDeint g) := by
  decide

/-- The voice fields read back from their 86 operand bits (R87). -/
theorem decodeUnit_fieldBits (u : VoiceFields) : decodeUnit 0xB (fieldBits u) = .ok (.voicePack u) := by
  rw [decodeUnit_voicePack, fieldBits_eq, operand_toBits, Except.map, fieldsOf_append]

/-- A byte buffer of any length read back from its bits (R155). -/
theorem decodeUnit_bytesBits (bytes : List Byte) : decodeUnit 0x8 (Bits.bytesBits bytes) = .ok (.crc16 bytes) := by
  rw [decodeUnit_crc16, Bits.bytesBits_length, Nat.mul_mod_right, if_pos rfl, bytesOfBits_bytesBits]

/-! ### The statements -/

/-- Decoding the encoding of a recognized type's operation under the configuration's codes, which are pairwise distinct
(R6, R76). -/
theorem decode_encode_typeInstr (t : FrameType) {nac : BitVec 12} (hnac : (nac != 0) = true) :
    decode (encode (typeInstr t nac)) = .ok (typeInstr t nac) := by
  rw [encode, encodeWith_typeInstr, decode,
    decodeInfo_recognized (bne_iff_ne.mp hnac) (typeOfCode_code Config.cfg_wellFormed.duid_distinct t)]

/-- Settles O1: one read-back lemma for each layout of operands. -/
theorem decodeEncodeRoundTrip : Obligations.DecodeEncodeRoundTrip := by
  intro i hwf
  cases i with
  | idle x => exact congrArg Except.ok (decodeIn_append x).1
  | observe x => exact congrArg Except.ok (decodeIn_append x).2.1
  | statsClear x => exact congrArg Except.ok (decodeIn_append x).2.2.1
  | clearObserve x => exact congrArg Except.ok (decodeIn_append x).2.2.2
  | reset word => rfl
  | discard d => exact congrArg Except.ok (decodeInfo_discard _ d)
  | hdu nac => exact decode_encode_typeInstr .hdu hwf
  | tdu nac => exact decode_encode_typeInstr .tdu hwf
  | ldu1 nac => exact decode_encode_typeInstr .ldu1 hwf
  | tsbk nac => exact decode_encode_typeInstr .tsbk hwf
  | ldu2 nac => exact decode_encode_typeInstr .ldu2 hwf
  | pdu nac => exact decode_encode_typeInstr .pdu hwf
  | tdulc nac => exact decode_encode_typeInstr .tdulc hwf
  | unrec nac d =>
    obtain ⟨hnac, hd⟩ := Bool.and_eq_true_iff.mp hwf
    have hnone := (typeOfCode_none Config.cfg.duid d).mpr (Bool.not_eq_true' _ ▸ hd)
    exact congrArg Except.ok (decodeInfo_unrec (bne_iff_ne.mp hnac) hnone)
  | g24Dec w => exact congrArg (Except.map Instr.g24Dec) (operand_toBits 0x0 w)
  | g24Enc v => exact congrArg (Except.map Instr.g24Enc) (operand_toBits 0x1 v)
  | rs6355 hb => exact congrArg (Except.map Instr.rs6355) (hexVecOperand_encode 0x2 hb)
  | rs6351 hb => exact congrArg (Except.map Instr.rs6351) (hexVecOperand_encode 0x3 hb)
  | rs6347 hb => exact congrArg (Except.map Instr.rs6347) (hexVecOperand_encode 0x4 hb)
  | hamDec w => exact congrArg (Except.map Instr.hamDec) (operand_toBits 0x5 w)
  | hamEnc v => exact congrArg (Except.map Instr.hamEnc) (operand_toBits 0x6 v)
  | trellisDec off => exact congrArg (fun n => Except.ok (Instr.trellisDec n)) (toNatBE_indexBits off)
  | crc16 bytes => exact decodeUnit_bytesBits bytes
  | crc32 bits => rfl
  | voiceDeint g => exact decodeUnit_segment g
  | voicePack u => exact decodeUnit_fieldBits u
  | nidDec w => exact congrArg (Except.map Instr.nidDec) (operand_toBits 0xC w)
  | fuReserved sel => exact decodeUnit_reserved (of_decide_eq_true hwf) []

/-- The laws `EncodeRow` as one: the table names every well-formed operation by the row its encoding selects. -/
theorem encodeRow (i : Instr) : Laws.EncodeRow.Statement i := by
  cases i with
  | idle x => exact Laws.EncodeRow.idle x
  | observe x => exact Laws.EncodeRow.observe x
  | statsClear x => exact Laws.EncodeRow.statsClear x
  | clearObserve x => exact Laws.EncodeRow.clearObserve x
  | reset word => exact Laws.EncodeRow.reset word
  | discard d => exact Laws.EncodeRow.discard d
  | hdu nac => exact Laws.EncodeRow.hdu nac
  | tdu nac => exact Laws.EncodeRow.tdu nac
  | ldu1 nac => exact Laws.EncodeRow.ldu1 nac
  | tsbk nac => exact Laws.EncodeRow.tsbk nac
  | ldu2 nac => exact Laws.EncodeRow.ldu2 nac
  | pdu nac => exact Laws.EncodeRow.pdu nac
  | tdulc nac => exact Laws.EncodeRow.tdulc nac
  | unrec nac d => exact Laws.EncodeRow.unrec nac d
  | g24Dec w => exact Laws.EncodeRow.g24Dec w
  | g24Enc v => exact Laws.EncodeRow.g24Enc v
  | rs6355 hb => exact Laws.EncodeRow.rs6355 hb
  | rs6351 hb => exact Laws.EncodeRow.rs6351 hb
  | rs6347 hb => exact Laws.EncodeRow.rs6347 hb
  | hamDec w => exact Laws.EncodeRow.hamDec w
  | hamEnc v => exact Laws.EncodeRow.hamEnc v
  | trellisDec off => exact Laws.EncodeRow.trellisDec off
  | crc16 bytes => exact Laws.EncodeRow.crc16 bytes
  | crc32 bits => exact Laws.EncodeRow.crc32 bits
  | voiceDeint g => exact Laws.EncodeRow.voiceDeint g
  | voicePack u => exact Laws.EncodeRow.voicePack u
  | nidDec w => exact Laws.EncodeRow.nidDec w
  | fuReserved sel => exact Laws.EncodeRow.fuReserved sel

/-- Settles O2: a word of format NID by the kind of its row, every other input by the law `EncodeRow` of what it decodes
to, whose encoding selects the same row. -/
theorem decodeFollowsTheOpcodeTable : Obligations.DecodeFollowsTheOpcodeTable := by
  intro p i h
  cases p with
  | pins rst word =>
    cases h
    have hwf := decodePins_wellFormed Config.cfg.duid rst word
    exact ⟨hwf, encode_decodePins rst word ▸ encodeRow _ hwf⟩
  | info word =>
    cases h
    have hrow := infoRow_decodeInfo Config.cfg.duid word
    exact ⟨hrow.wellFormed, InfoRow.tableMnemonic_eq (p := .info word) hrow rfl⟩
  | row word =>
    cases h
    have hrow := infoRow_decodeInfo FrameType.code word
    exact ⟨hrow.wellFormed, InfoRow.tableMnemonic_eq (p := .row word) hrow rfl⟩
  | unit sel bits =>
    obtain ⟨hwf, bits', henc⟩ := decodeUnit_ok h
    refine ⟨hwf, ?_⟩
    calc tableMnemonic (.unit sel bits) = tableMnemonic (.unit sel bits') := rfl
      _ = tableMnemonic (encode i) := by rw [henc]
      _ = some i.mnemonic := encodeRow i hwf

/-- Settles O3: the encoder gives every word back, an information word under the codes it was read under. -/
theorem inputWordsReadBack : Obligations.InputWordsReadBack :=
  ⟨fun rst word => ⟨_, rfl, encode_decodePins rst word⟩,
    fun word => ⟨_, rfl, (infoRow_decodeInfo Config.cfg.duid word).encodeWith_eq⟩,
    fun word => ⟨_, rfl, (infoRow_decodeInfo FrameType.code word).encodeWith_eq⟩⟩

/-- Settles O4: the information word of TDU is the encoding of its operation, as the code of TDU is 3 in every
configuration; the ten other words are evaluated. -/
theorem sampleWordsDecode : Obligations.SampleWordsDecode := by
  have htdu : encode (.tdu 0x1AB) = .info 0x1AB3 := by
    change Presented.info (0x1AB#12 ++ Config.cfg.duid .tdu) = _
    rw [Config.cfg_wellFormed.duid_tdu]
    rfl
  exact ⟨rfl, rfl, rfl, rfl, rfl, rfl, htdu ▸ decodeEncodeRoundTrip (.tdu 0x1AB) rfl, rfl, rfl, rfl, rfl⟩

/-- Settles O55: a reserved code is refused in every state, and TRELLIS_DEC faults when the last of its 196 cells lies
past the buffer. -/
theorem unitCallsThatStop : Obligations.UnitCallsThatStop :=
  ⟨fun _ _ => rfl, fun _ _ hpast => if_neg (Nat.not_le_of_lt hpast)⟩

end Sys2Proof.Machine

/-! What a symbol does to the counters, the identifier and the body in progress, and the proofs of the statements about
OBSERVE (spec/40_framesync.md): the order of the counters, the symbol of each phase, the dispatch, and an undisturbed
identifier. -/

namespace Sys2Proof.Machine

open Sys2Proof

/-! ### The phase work of an identifier symbol -/

/-- One of the first 31 symbols of an identifier (R105). -/
theorem work_accumulates {s : State} (hp : s.phase = .nid) (hcnt : s.nidCnt ≠ 31) (c : Cfg) (d : Sym) :
    work c d s = ⟨accumulate d (shiftWindow d (count s)), false⟩ := by
  rw [work_nid hp, if_neg hcnt]

/-- The last symbol of an identifier that does not decode (R106, R109). -/
theorem work_rejected {c : Cfg} {d : Sym} {s : State} (hp : s.phase = .nid) (hcnt : s.nidCnt = 31)
    (hd : c.nidDecode (slideNid s.nidAcc d) = .fail) :
    work c d s = ⟨rejectNid (accumulate d (shiftWindow d (count s))), false⟩ := by
  rw [work_nid hp, if_pos hcnt, decodeNid_fail hd]

/-- The last symbol of an accepted identifier (R106, R110). -/
theorem work_accepted {c : Cfg} {d : Sym} {s : State} {nac duid par cw nerr} (hp : s.phase = .nid)
    (hcnt : s.nidCnt = 31) (hd : c.nidDecode (slideNid s.nidAcc d) = .ok nac duid par cw nerr) :
    work c d s = ⟨{ loadFrame c nac duid par cw nerr (accumulate d (shiftWindow d (count s))) with
      phase := if bodyLenOf c duid = 0 then .search else .body }, decide (bodyLenOf c duid = 0)⟩ := by
  rw [work_nid hp, if_pos hcnt, decodeNid_ok hd]

/-- The phase after a body symbol, or after an accepted identifier, is not NID. -/
theorem search_or_body_ne_nid (p : Prop) [Decidable p] : (if p then Phase.search else .body) ≠ .nid := by
  split <;> decide

/-- The phase work never starts an identifier; only the sync test does (R113). -/
theorem phase_of_work_phase_nid {c : Cfg} {d : Sym} {s : State} (h : (work c d s).state.phase = .nid) :
    s.phase = .nid := by
  rcases phase_cases s.phase with hp | hp | hp
  · rw [work_search hp] at h
    exact h
  · exact hp
  · rw [work_body hp] at h
    exact absurd h (search_or_body_ne_nid _)

/-- Only an identifier's last symbol counts an identifier (R109, R110). -/
theorem work_keeps_goodbad (c : Cfg) (d : Sym) {s : State} (h : s.phase ≠ .nid ∨ s.nidCnt ≠ 31) :
    (work c d s).state.goodNids = s.goodNids ∧ (work c d s).state.badNids = s.badNids := by
  rcases phase_cases s.phase with hp | hp | hp
  · rw [work_search hp]; exact ⟨rfl, rfl⟩
  · rw [work_accumulates hp (h.resolve_left (not_not_intro hp))]; exact ⟨rfl, rfl⟩
  · rw [work_body hp]; exact ⟨rfl, rfl⟩

/-- Decoding an identifier leaves the accumulator holding the word that was decoded (R106). -/
theorem work_nidAcc_of_last {s : State} (hp : s.phase = .nid) (hcnt : s.nidCnt = 31) (c : Cfg) (d : Sym) :
    (work c d s).state.nidAcc = slideNid s.nidAcc d := by
  cases hd : c.nidDecode (slideNid s.nidAcc d) with
  | fail => rw [work_rejected hp hcnt hd]; rfl
  | ok => rw [work_accepted hp hcnt hd]; rfl

/-- Decoding an identifier resets its symbol count, whatever the outcome (R109, R110). -/
theorem work_nidCnt_of_last {s : State} (hp : s.phase = .nid) (hcnt : s.nidCnt = 31) (c : Cfg) (d : Sym) :
    (work c d s).state.nidCnt = 0 := by
  cases hd : c.nidDecode (slideNid s.nidAcc d) with
  | fail => rw [work_rejected hp hcnt hd]; rfl
  | ok => rw [work_accepted hp hcnt hd]; rfl

/-! ### The order of the counters -/

/-- The sync matches used up: one by every identifier decoded, and one by an identifier in progress (R119). -/
def State.usedSyncs (s : State) : Nat :=
  s.goodNids.toNat + s.badNids.toNat + if s.phase = .nid then 1 else 0

theorem counterRel_iff (s : State) :
    s.CounterRel ↔ s.usedSyncs ≤ s.syncs.toNat ∧ s.syncs.toNat ≤ s.symbols.toNat := Iff.rfl

theorem usedSyncs_of_nid {s : State} (h : s.phase = .nid) :
    s.usedSyncs = s.goodNids.toNat + s.badNids.toNat + 1 := by
  rw [State.usedSyncs, if_pos h]

theorem usedSyncs_of_ne_nid {s : State} (h : s.phase ≠ .nid) : s.usedSyncs = s.goodNids.toNat + s.badNids.toNat := by
  rw [State.usedSyncs, if_neg h, Nat.add_zero]

/-- Counting raises a counter's value by at most 1, the wrap included. -/
theorem toNat_count_le (n : BitVec 64) : (n + 1).toNat ≤ n.toNat + 1 := by
  rw [BitVec.toNat_add]
  exact Nat.mod_le _ _

/-- An identifier that is decoded is counted once and is no longer in progress; no other phase work writes the
identifier counters or starts an identifier. -/
theorem work_usedSyncs_le (c : Cfg) (d : Sym) (s : State) : (work c d s).state.usedSyncs ≤ s.usedSyncs := by
  rcases phase_cases s.phase with hp | hp | hp
  · rw [work_search hp]
    exact le_refl _
  · by_cases hcnt : s.nidCnt = 31
    · rw [usedSyncs_of_nid hp]
      cases hd : c.nidDecode (slideNid s.nidAcc d) with
      | fail =>
        rw [work_rejected hp hcnt hd, usedSyncs_of_ne_nid (by rw [rejectNid_phase]; decide)]
        exact Nat.add_le_add_left (toNat_count_le s.badNids) _
      | ok =>
        rw [work_accepted hp hcnt hd, usedSyncs_of_ne_nid (search_or_body_ne_nid _), Nat.add_right_comm]
        exact Nat.add_le_add_right (toNat_count_le s.goodNids) _
    · rw [work_accumulates hp hcnt]
      exact le_refl _
  · have hnot : s.phase ≠ .nid := by rw [hp]; decide
    rw [usedSyncs_of_ne_nid hnot, work_body hp, usedSyncs_of_ne_nid (search_or_body_ne_nid _)]
    exact le_refl _

/-- A symbol uses up at most the sync match it completes itself. -/
theorem observe_usedSyncs_le (c : Cfg) (d : Sym) (s : State) :
    (observe c d s).usedSyncs ≤ s.usedSyncs + if SyncAt c s.phase (slide s.win d) then 1 else 0 := by
  have hwork := work_usedSyncs_le c d s
  rw [State.usedSyncs] at hwork ⊢
  rw [observe_goodNids, observe_badNids, observe_phase]
  split
  · rw [if_pos rfl]
    omega
  · exact hwork

/-- OBSERVE keeps the counter relation, as long as `symbols` does not wrap: the symbol that completes a sync match is
counted in `syncs` and in `symbols` (R119). -/
theorem observe_counterRel (c : Cfg) (d : Sym) {s : State} (h : s.CounterRel) (hwrap : s.symbols.toNat + 1 < 2 ^ 64) :
    (observe c d s).CounterRel := by
  rw [counterRel_iff] at h ⊢
  obtain ⟨hused, hsyncs⟩ := h
  have hone := observe_usedSyncs_le c d s
  have hsymbols : (s.symbols + 1).toNat = s.symbols.toNat + 1 := BitVec.toNat_add_of_lt hwrap
  have hcount : (s.syncs + 1).toNat = s.syncs.toNat + 1 :=
    BitVec.toNat_add_of_lt (lt_of_le_of_lt (Nat.succ_le_succ hsyncs) hwrap)
  rw [observe_syncs, observe_symbols, hsymbols]
  split at hone
  · next hit => rw [if_pos hit, hcount]; omega
  · next hit => rw [if_neg hit]; omega

/-- Settles O11: of the operations that are no clear, only OBSERVE writes the counters or the phase. -/
theorem countersStayOrdered : Obligations.CountersStayOrdered := by
  refine ⟨⟨Nat.zero_le _, Nat.zero_le _⟩, fun s t i hrel hwrap hi ht => ?_⟩
  cases exec_cases ht with
  | symbol d => exact observe_counterRel Config.cfg d (s := s.beginStep) hrel hwrap
  | clearedSymbol d => cases hi
  | cleared x => cases hi
  | reset word => cases hi
  | outputsOnly => exact hrel

/-! ### One symbol -/

/-- Settles O17: neither the phase work nor what follows it writes `symbols` or the window, and the statistics tick is
the last to write the divider. -/
theorem observeCountsEverySymbol : Obligations.ObserveCountsEverySymbol :=
  fun _ _ => ⟨_, rfl, observe_symbols .., observe_win .., observe_statDiv ..⟩

/-- In phase SEARCH the test is always armed (R113). -/
theorem syncAt_search (c : Cfg) (win : BitVec 48) :
    SyncAt c .search win ↔ Bits.dist win c.fsPattern ≤ c.syncMaxErr :=
  and_iff_right (.inl rfl)

/-- A symbol that completes no frame: its phase work, then the sync test and the statistics tick, with nothing to
dispatch. -/
theorem observe_of_work {c : Cfg} {d : Sym} {s w : State} (h : work c d s = ⟨w, false⟩) :
    observe c d s =
      let u : State := { w with
        syncs := if SyncAt c s.phase w.win then w.syncs + 1 else w.syncs
        nidAcc := if SyncAt c s.phase w.win then 0 else w.nidAcc
        nidCnt := if SyncAt c s.phase w.win then 0 else w.nidCnt
        phase := if SyncAt c s.phase w.win then .nid else w.phase
        frameDone := false }
      { u with
        statDiv := if w.statDiv = 480#9 then 0 else w.statDiv
        events := w.events ++ if w.statDiv = 480#9 then [statsEventOf u] else [] } := by
  rw [observe_eq, ← work, h, afterWork]
  simp only [Bool.false_eq_true, if_false, List.append_nil]
  rfl

/-- Settles O18: in phase SEARCH there is no phase work. -/
theorem searchStep : Obligations.SearchStep := by
  intro sym s hp
  have hwork := work_search (s := s.beginStep) hp Config.cfg sym
  refine congrArg Host.Outcome.next ((observe_of_work hwork).trans ?_)
  simp only [shiftWindow_phase, count_phase, beginStep_phase, hp, syncAt_search]
  rfl

/-- Settles O20: the phase work is the accumulation alone, and a sync match then overrides it. -/
theorem identifierSymbolAccumulates : Obligations.IdentifierSymbolAccumulates := by
  intro sym s hp hlt
  have hcnt : s.nidCnt ≠ 31 := fun h => absurd (h ▸ hlt) (by decide)
  have hwork := work_accumulates (s := s.beginStep) hp hcnt Config.cfg sym
  refine congrArg Host.Outcome.next ((observe_of_work hwork).trans ?_)
  simp only [accumulate_phase, shiftWindow_phase, count_phase, beginStep_phase, quiet_phase, hp, ite_self]
  rfl

/-- Settles O19: the sync test has the last word on the four fields it writes, and only the last symbol of an identifier
counts one. -/
theorem syncMatchStartsAnIdentifier : Obligations.SyncMatchStartsAnIdentifier := by
  intro sym s
  refine ⟨_, rfl, ?_, fun h => ?_⟩
  · rw [observe_syncs, observe_nidAcc, observe_nidCnt, observe_phase, beginStep_syncs, beginStep_phase,
      beginStep_win]
    by_cases hit : SyncAt Config.cfg s.phase (slide s.win sym)
    · simp only [if_pos hit, and_self]
    · simp only [if_neg hit, true_and]
      exact phase_of_work_phase_nid (s := s.beginStep)
  · rw [observe_goodNids, observe_badNids]
    exact work_keeps_goodbad Config.cfg sym (s := s.beginStep) h

/-- The bit count of an accepted identifier fits its register (R27, R108). -/
theorem toNat_nidNerr {c : Cfg} (hc : c.WellFormed) {w : BitVec 64} {nac duid par cw nerr}
    (hd : c.nidDecode w = .ok nac duid par cw nerr) : (BitVec.ofNat 7 nerr).toNat = nerr := by
  have hle : nerr ≤ 64 := hc.nid_nerr _ _ _ _ _ _ hd ▸ Bits.dist_le w cw
  exact Nat.mod_eq_of_lt (by omega)

/-- Settles O21: each outcome is the phase work of that outcome; the sync test overrides the phase and the symbol count
only. -/
theorem identifierDecoded : Obligations.IdentifierDecoded := by
  intro sym s hp hcnt
  have hbody : s.beginStep.phase ≠ .body := by rw [beginStep_phase, hp]; decide
  refine ⟨_, rfl, ?_, ?_, ?_⟩
  · rw [observe_nidCnt, work_nidCnt_of_last (s := s.beginStep) hp hcnt, ite_self]
  · rw [observe_body, work_keeps_body _ _ hbody, beginStep_body]
  · rw [observe_nac, observe_duid, observe_par, observe_nidCw, observe_nidNerr, observe_bodyLen, observe_cursor,
      observe_goodNids, observe_badNids, observe_frameDone, observe_phase, beginStep_phase, beginStep_win, hp]
    cases hd : Config.cfg.nidDecode (slideNid s.nidAcc sym) with
    | fail =>
      have hwork := work_rejected (s := s.beginStep) hp hcnt hd
      have hdone : (observe Config.cfg sym s.beginStep).frameDone = false := by rw [observe_frameDone, hwork]
      rw [hwork]
      refine ⟨rfl, rfl, rfl, rfl, rfl, rfl, rfl, rfl, rfl, ?_, rfl, fun e he => ?_, rfl⟩
      · rw [observe_ess, hdone]; rfl
      · rw [observe_events, hdone] at he
        exact stat_kind he
    | ok =>
      rw [work_accepted (s := s.beginStep) hp hcnt hd]
      exact ⟨rfl, rfl, rfl, rfl, toNat_nidNerr Config.cfg_wellFormed hd, rfl, rfl, rfl, rfl, rfl, rfl⟩

/-- Settles O22: a recognized type is found by its own code, and no other code is found. -/
theorem bodyLengthFromTypeCode : Obligations.BodyLengthFromTypeCode := by
  refine fun c hc => ⟨fun t => ?_, fun d hd => ?_⟩
  · rw [bodyLenOf, typeOfCode_code hc.duid_distinct t]
  · cases ht : typeOfCode c.duid d with
    | some t => exact absurd (code_of_typeOfCode c.duid t d ht).symm (hd t)
    | none => rw [bodyLenOf, ht]

/-- Settles O23: the phase work of BODY, and the two cells it writes read back. -/
theorem bodySymbolStored : Obligations.BodySymbolStored := by
  intro sym s hp hwf
  obtain ⟨hbody, hcursor, hbodyLen, hdone, hphase⟩ := observe_inBody (s := s.beginStep) hp Config.cfg sym
  have hread := Memory.read_memWrite_two s.body hwf s.cursor sym
  exact ⟨_, rfl, fun a => hbody ▸ hread a, hcursor, hbodyLen, hdone, hphase⟩

/-- Settles O24: the events and ESS of OBSERVE, whose dispatch sees the state the phase work leaves. -/
theorem completedFrameIsDispatched : Obligations.CompletedFrameIsDispatched := by
  intro sym s
  refine ⟨_, rfl, ?_, ?_⟩
  · rw [observe_events, dispatchResult_cfg]; rfl
  · rw [observe_ess, dispatchResult_cfg]; rfl

/-! ### An undisturbed identifier -/

/-- No sync match counts at symbol `n` of an undisturbed run (R113, R116). -/
theorem not_syncAt_of_undisturbed {c : Cfg} {s : State} {syms : List Sym} (hun : Undisturbed c s.win syms) {p : Phase}
    (hp : p ≠ .search) {n : Nat} (hn : n < syms.length) :
    ¬ SyncAt c p (slide (observeAll c s (syms.take n)).win syms[n]) := by
  have hsync := undisturbed_not hun p hp n hn
  rwa [List.take_succ_eq_append_getElem hn, List.foldl_append, ← observeAll_win] at hsync

/-- `t` is the state after the first `n` symbols of an undisturbed identifier that began in `s`: they stand in the
accumulator, and no identifier has been counted. -/
structure IdentifierAfter (s : State) (syms : List Sym) (n : Nat) (t : State) : Prop where
  phase_eq : t.phase = .nid
  nidCnt_eq : t.nidCnt.toNat = n
  nidAcc_eq : t.nidAcc = (syms.take n).foldl slideNid s.nidAcc
  goodNids_eq : t.goodNids = s.goodNids
  badNids_eq : t.badNids = s.badNids

/-- One more symbol, not the last, without a sync match (R105). -/
theorem IdentifierAfter.succ {c : Cfg} {s t : State} {syms : List Sym} {n : Nat} (h : IdentifierAfter s syms n t)
    (hn : n < syms.length) (h31 : n < 31) (hsync : ¬ SyncAt c .nid (slide t.win syms[n])) :
    IdentifierAfter s syms (n + 1) (observe c syms[n] t.beginStep) := by
  have hcnt : t.nidCnt ≠ 31 := fun heq => h31.ne (h.nidCnt_eq.symm.trans (congrArg BitVec.toNat heq))
  have hadd : (t.nidCnt + 1).toNat = t.nidCnt.toNat + 1 :=
    BitVec.toNat_add_of_lt (h.nidCnt_eq ▸ lt_of_lt_of_le (Nat.succ_lt_succ h31) (by decide))
  have hwork := work_accumulates (s := t.beginStep) h.phase_eq hcnt c syms[n]
  rw [← beginStep_win, ← h.phase_eq, ← beginStep_phase] at hsync
  exact {
    phase_eq := by rw [observe_phase, if_neg hsync, hwork]; exact h.phase_eq
    nidCnt_eq := by
      rw [observe_nidCnt, if_neg hsync, hwork]
      exact hadd.trans (congrArg Nat.succ h.nidCnt_eq)
    nidAcc_eq := by
      rw [observe_nidAcc, if_neg hsync, hwork, List.take_succ_eq_append_getElem hn, List.foldl_append, ← h.nidAcc_eq]
      rfl
    goodNids_eq := by rw [observe_goodNids, hwork]; exact h.goodNids_eq
    badNids_eq := by rw [observe_badNids, hwork]; exact h.badNids_eq }

/-- An undisturbed identifier before its last symbol, by induction on the symbols taken in. -/
theorem observeAll_identifierAfter {c : Cfg} {s : State} {syms : List Sym} (hp : s.phase = .nid) (hcnt : s.nidCnt = 0)
    (hun : Undisturbed c s.win syms) (hlen : 31 ≤ syms.length) {n : Nat} (hn : n ≤ 31) :
    IdentifierAfter s syms n (observeAll c s (syms.take n)) := by
  induction n with
  | zero => exact ⟨hp, congrArg BitVec.toNat hcnt, rfl, rfl, rfl⟩
  | succ n ih =>
    have hmore : n < syms.length := lt_of_lt_of_le hn hlen
    rw [observeAll_take_succ c s syms n hmore]
    exact (ih (Nat.le_of_lt hn)).succ hmore hn (not_syncAt_of_undisturbed hun (by decide) hmore)

/-- The 32 symbols of a word fill the accumulator with it, whatever it held before (R74, R105). -/
theorem foldl_slideNid_symbolsOf (a w : BitVec 64) : (symbolsOf w).foldl slideNid a = w := by
  have h := slideNid_symbolsOf a w 32 (le_refl _)
  rw [List.take_of_length_le (symbolsOf_length w).le] at h
  rw [h, BitVec.shiftLeft_eq_zero (le_refl _), BitVec.zero_or]
  rfl

/-- An undisturbed identifier at its last symbol: 31 symbols are in, and the last one completes the word without a sync
match (R106, R116). -/
theorem observeAll_symbolsOf {c : Cfg} {s : State} {w : BitVec 64} (hp : s.phase = .nid) (hcnt : s.nidCnt = 0)
    (hun : Undisturbed c s.win (symbolsOf w)) :
    ∃ u d, observeAll c s (symbolsOf w) = observe c d u.beginStep ∧ IdentifierAfter s (symbolsOf w) 31 u ∧
      slideNid u.nidAcc d = w ∧ ¬ SyncAt c .nid (slide u.win d) := by
  have hlast : 31 < (symbolsOf w).length := by rw [symbolsOf_length]; decide
  have hall : (symbolsOf w).take (31 + 1) = symbolsOf w := List.take_of_length_le (symbolsOf_length w).le
  have before := observeAll_identifierAfter hp hcnt hun hlast.le (le_refl 31)
  refine ⟨_, (symbolsOf w)[31], ?_, before, ?_, not_syncAt_of_undisturbed hun (by decide) hlast⟩
  · rw [← observeAll_take_succ c s (symbolsOf w) 31 hlast, hall]
  · have hword := foldl_slideNid_symbolsOf s.nidAcc w
    rwa [← hall, List.take_succ_eq_append_getElem hlast, List.foldl_append, ← before.nidAcc_eq] at hword

/-- Settles O29: the last symbol's phase work decodes the word, and no sync match overrides what it leaves. -/
theorem identifierTakesThirtyTwoSymbols : Obligations.IdentifierTakesThirtyTwoSymbols := by
  intro c s w hp hcnt hun
  have hlen : 31 ≤ (symbolsOf w).length := by rw [symbolsOf_length]; decide
  refine ⟨fun n hn => (observeAll_identifierAfter hp hcnt hun hlen (Nat.le_of_lt_succ hn)).phase_eq, ?_⟩
  obtain ⟨u, d, hrun, before, hword, hsync⟩ := observeAll_symbolsOf hp hcnt hun
  have hu : u.beginStep.phase = .nid := before.phase_eq
  have hu31 : u.beginStep.nidCnt = 31 := BitVec.eq_of_toNat_eq before.nidCnt_eq
  rw [hrun, observe_nidAcc, observe_phase, hu, beginStep_win, if_neg hsync, if_neg hsync,
    work_nidAcc_of_last hu hu31, observe_nac, observe_duid, observe_par, observe_nidCw, observe_goodNids,
    observe_badNids, observe_bodyLen, observe_cursor, observe_frameDone, ← before.goodNids_eq, ← before.badNids_eq]
  refine ⟨hword, ?_⟩
  cases hd : c.nidDecode w with
  | fail =>
    rw [work_rejected hu hu31 (hword.symm ▸ hd)]
    exact ⟨rfl, rfl, rfl, rfl, rfl⟩
  | ok nac duid par cw nerr =>
    rw [work_accepted hu hu31 (hword.symm ▸ hd)]
    refine ⟨rfl, rfl, rfl, rfl, rfl, rfl, rfl, rfl, ?_⟩
    by_cases hempty : bodyLenOf c duid = 0
    · simp [hempty]
    · simp [hempty]

/-- Settles O53: the unit answers with the configured decoder's result, whose contract every configuration keeps. -/
theorem identifierDecoderContract : Obligations.IdentifierDecoderContract :=
  ⟨fun w _ => ⟨rfl, fun nac duid par cw nerr hd =>
      ⟨Config.cfg_wellFormed.nid_nerr w nac duid par cw nerr hd,
        Config.cfg_wellFormed.nid_valid w nac duid par cw nerr hd⟩⟩,
    Config.cfg_wellFormed.nid_every⟩

end Sys2Proof.Machine

/-! What the units of the FEC toolkit answer, and the proofs of the statements about them (spec/41_fec_toolkit.md): a
unit's step, the (24,12), (10,6) and Reed-Solomon codes, the trellis and the two CRCs. -/

namespace Sys2Proof.Machine

open Sys2Proof

/-! ### The step of a unit -/

/-- A unit that answers in one state answers the same in every state with the same body (R130). -/
theorem exec_unit {i : Instr} {s s' t : State} (hi : i.isUnit = true) (hbody : s'.body = s.body)
    (ht : exec i s = .next t) :
    ∃ r, t = s.beginStep.answer r ∧ exec i s' = .next (s'.beginStep.answer r) := by
  cases i with
  | trellisDec off =>
    simp only [exec, execTrellisDec] at ht ⊢
    split at ht <;> cases ht
    next fits => rw [if_pos fits, hbody]; exact ⟨_, rfl, rfl⟩
  | voiceDeint g =>
    cases ht
    simp only [exec, execVoiceDeint, hbody]
    exact ⟨_, rfl, rfl⟩
  | g24Dec _ | g24Enc _ | rs6355 _ | rs6351 _ | rs6347 _ | hamDec _ | hamEnc _ | crc16 _ | crc32 _ | voicePack _
  | nidDec _ => cases ht; exact ⟨_, rfl, rfl⟩
  | idle _ | observe _ | statsClear _ | clearObserve _ | reset _ | discard _ | hdu _ | tdu _ | ldu1 _ | tsbk _ | ldu2 _
  | pdu _ | tdulc _ | unrec _ _ | fuReserved _ => cases hi

/-- Settles O54: of the state a unit's answer sees the body alone, and the step writes the answer alone. -/
theorem unitsArePure : Obligations.UnitsArePure := by
  intro i s s' t hi hbody ht
  obtain ⟨r, rfl, ht'⟩ := exec_unit hi hbody ht
  exact ⟨rfl, ht'⟩

/-! ### The (24,12) code -/

/-- The step of G24_DEC (R132). -/
theorem exec_g24Dec {w : BitVec 24} {r : G24Result} (h : g24Decode Config.cfg w = r) (s : State) :
    exec (.g24Dec w) s = .next { s.quiet with unitOut := some (.g24Dec r.value r.nerr r.ok) } := by
  subst h; rfl

/-- A word lies inside the radius of a codeword, or outside every radius (R132). -/
theorem g24Decode_cases {c : Cfg} (hc : c.WellFormed) (w : BitVec 24) :
    (∃ v, Bits.dist w (c.enc24 v) ≤ c.t24 ∧ g24Decode c w = ⟨v, Bits.dist w (c.enc24 v), true⟩) ∨
    ((∀ v, c.t24 < Bits.dist w (c.enc24 v)) ∧
      g24Decode c w = ⟨c.dec24Fallback w, Bits.dist w (c.enc24 (c.dec24Fallback w)), false⟩) := by
  by_cases h : ∃ v, Bits.dist w (c.enc24 v) ≤ c.t24
  · obtain ⟨v, hv⟩ := h
    exact .inl ⟨v, hv, g24Decode_inside hc w v hv⟩
  · have hfar : ∀ v, c.t24 < Bits.dist w (c.enc24 v) := fun v => Nat.lt_of_not_le fun hv => h ⟨v, hv⟩
    exact .inr ⟨hfar, g24Decode_outside w hfar⟩

/-- Settles O43: the flipped word lies inside the radius of its codeword, and of no other. -/
theorem blockCodeCorrects : Obligations.BlockCodeCorrects :=
  fun v e s h => exec_g24Dec (g24Decode_correct Config.cfg_wellFormed v e h) s

/-- Settles O44: inside a radius the word may be a codeword; outside every radius it lies away from each one. -/
theorem blockDecodeAnswersAlways : Obligations.BlockDecodeAnswersAlways := by
  intro w s
  have mism : ∀ v, w ≠ Config.cfg.enc24 v ↔ Bits.dist w (Config.cfg.enc24 v) ≠ 0 :=
    fun _ => Bits.dist_eq_zero_iff.not.symm
  obtain ⟨v, hin, hdec⟩ | ⟨hfar, hdec⟩ := g24Decode_cases Config.cfg_wellFormed w
  · exact ⟨v, true, exec_g24Dec hdec s, ⟨fun _ => ⟨v, hin⟩, fun _ => rfl⟩, fun _ => hin, nofun, mism v, nofun⟩
  · exact ⟨_, false, exec_g24Dec hdec s, ⟨nofun, fun ⟨u, hu⟩ => absurd hu (Nat.not_le_of_lt (hfar u))⟩, nofun,
      fun _ => rfl, mism _, fun _ => (mism _).mpr (Nat.ne_zero_of_lt (hfar _))⟩

/-! ### The encoders and the (10,6) code -/

/-- Settles O45: the constraints on the two encoders; the injectivity of HAM_ENC follows from its left inverse. -/
theorem encodersAnswer : Obligations.EncodersAnswer := by
  have hc := Config.cfg_wellFormed
  have hinj : Function.Injective Config.cfg.hamEnc := Function.LeftInverse.injective hc.ham_inverse
  exact ⟨fun v _ => ⟨rfl, hc.enc24_systematic v, fun _ hne => enc24_far hc hne⟩, hc.enc24_linear, enc24_zero hc,
    fun _ _ => ⟨rfl, fun _ heq => hinj heq⟩⟩

/-- A codeword gives its value back, without the mismatch flag (R146). -/
theorem hamDecode_hamEnc {c : Cfg} (hc : c.WellFormed) (v : BitVec 6) : hamDecode c (c.hamEnc v) = ⟨v, false⟩ := by
  simp [hamDecode, hc.ham_inverse]

/-- The step of HAM_DEC (R146). -/
theorem exec_hamDec {w : BitVec 10} {r : HamResult} (h : hamDecode Config.cfg w = r) (s : State) :
    exec (.hamDec w) s = .next { s.quiet with unitOut := some (.hamDec r.value r.mism) } := by
  subst h; rfl

/-- Settles O46: the flag compares the word with the one codeword its value has. -/
theorem tenSixCode : Obligations.TenSixCode :=
  ⟨fun w s => ⟨(hamDecode Config.cfg w).mism, exec_hamDec rfl s, hamDecode_mism Config.cfg_wellFormed w⟩,
    fun v s => exec_hamDec (hamDecode_hamEnc Config.cfg_wellFormed v) s⟩

/-! ### The Reed-Solomon codes -/

/-- The step of a Reed-Solomon operation whose decoder answers `(hb', n)` (R141). -/
theorem exec_rsInstr_of_rsDec {i : RsInst} {hb hb' : HexVec} {n : Int} (h : Config.cfg.rsDec i hb = (hb', n))
    (s : State) : exec (rsInstr i hb) s = .next { s.quiet with unitOut := some (.rs hb' n) } := by
  rw [exec_rsInstr, h]

/-- The number of correctable symbol errors, as an integer (R140). -/
theorem rsInst_t_cast (i : RsInst) : (i.t : Int) = (63 - i.k) / 2 := by cases i <;> rfl

/-- The zero vector is a codeword without errors (R141). -/
theorem rsDec_zero {c : Cfg} (hc : c.WellFormed) (i : RsInst) :
    c.rsDec i (Vector.replicate 63 0) = (Vector.replicate 63 0, 0) := by
  have hzero := hc.rs_zero i
  have hself : symDist (Vector.replicate 63 0) (c.rsEnc i (Vector.replicate i.k 0)) = 0 := by rw [hzero, symDist_self]
  rw [hc.rs_success i _ _ (hself ▸ Nat.zero_le _), hself, hzero]
  rfl

/-- The count of a Reed-Solomon decoder is -1 exactly beyond every codeword, and at most `t_k` otherwise (R142,
R143). -/
theorem rsDec_count {c : Cfg} (hc : c.WellFormed) (i : RsInst) (hb : HexVec) :
    ((c.rsDec i hb).2 = -1 ↔ ∀ p, i.t < symDist hb (c.rsEnc i p)) ∧
    ((c.rsDec i hb).2 = -1 ∨ 0 ≤ (c.rsDec i hb).2 ∧ (c.rsDec i hb).2 ≤ i.t) := by
  by_cases h : ∃ p, symDist hb (c.rsEnc i p) ≤ i.t
  · obtain ⟨p, hp⟩ := h
    rw [hc.rs_success i hb p hp]
    exact ⟨⟨fun hneg => absurd hneg (by omega), fun hfar => absurd hp (Nat.not_le_of_lt (hfar p))⟩,
      .inr ⟨Int.natCast_nonneg _, Int.ofNat_le.mpr hp⟩⟩
  · have hfar : ∀ p, i.t < symDist hb (c.rsEnc i p) := fun p => Nat.lt_of_not_le fun hp => h ⟨p, hp⟩
    have hneg := hc.rs_failure i hb hfar
    exact ⟨⟨fun _ => hfar, fun _ => hneg⟩, .inl hneg⟩

/-- Settles O47: the decoder's contract, and the zero vector as a codeword. -/
theorem reedSolomonUnits : Obligations.ReedSolomonUnits := by
  have hc := Config.cfg_wellFormed
  refine ⟨fun i p hb s hp => exec_rsInstr_of_rsDec (hc.rs_success i hb p hp) s, fun i hb s => ?_⟩
  obtain ⟨hfailure, hrange⟩ := rsDec_count hc i hb
  rw [rsInst_t_cast] at hrange
  refine ⟨_, _, exec_rsInstr i hb s, hfailure, hrange, ?_⟩
  rintro rfl
  rw [rsDec_zero hc i]
  exact ⟨rfl, rfl⟩

/-! ### The trellis -/

/-- Each symbol is the one nearest to its received codeword among the four transitions out of the state before it
(R152, R153). -/
def IsNearestPath (c : Cfg) (m : Memory) (off : Nat) (ys : Fin 49 → BitVec 2) : Prop :=
  ∀ j x, x ≠ ys j →
    Bits.dist (receivedWord c m off j) (c.trellisTab (stateBefore ys j) (ys j)) <
      Bits.dist (receivedWord c m off j) (c.trellisTab (stateBefore ys j) x)

/-- The state before codeword `j` of a path is what stands before symbol `j` when the path starts in state 0 (R152). -/
theorem zero_cons_ofFn_getElem (ys : Fin 49 → BitVec 2) (j : Fin 49)
    (h : j.val < (0 :: List.ofFn ys).length) : (0 :: List.ofFn ys)[j.val] = stateBefore ys j := by
  obtain ⟨j, hj⟩ := j
  cases j with
  | zero => rfl
  | succ j => exact List.getElem_ofFn _

/-- The search over a segment answers a path exactly when it is the nearest one (R150, R152). -/
theorem trellisRun_segment_iff (c : Cfg) (m : Memory) (off : Nat) (ys : Fin 49 → BitVec 2) :
    trellisRun c.trellisTab 0 (Bits.chunk4 (segmentBits c m off)) = some (List.ofFn ys) ↔ IsNearestPath c m off ys := by
  obtain ⟨hlen, hword⟩ := segment_words c m off
  rw [trellisRun_iff]
  constructor
  · rintro ⟨-, hnear⟩ j x hx
    have := hnear j (by omega) (by rw [List.length_ofFn]; exact j.isLt) x (by rwa [List.getElem_ofFn])
    simpa only [zero_cons_ofFn_getElem, List.getElem_ofFn, hword] using this
  · intro hnear
    refine ⟨by rw [hlen, List.length_ofFn], fun n hn _ x hx => ?_⟩
    obtain ⟨j, rfl⟩ : ∃ j : Fin 49, j.val = n := ⟨⟨n, hlen ▸ hn⟩, rfl⟩
    simp only [zero_cons_ofFn_getElem, List.getElem_ofFn, hword] at hx ⊢
    exact hnear j x hx

/-- The search over a segment decides 49 symbols (R150). -/
theorem length_of_trellisRun_segment {c : Cfg} {m : Memory} {off : Nat} {l : List (BitVec 2)}
    (h : trellisRun c.trellisTab 0 (Bits.chunk4 (segmentBits c m off)) = some l) : l.length = 49 := by
  rw [((trellisRun_iff _ _ _ _).mp h).1, (segment_words c m off).1]

/-- TRELLIS_DEC answers a block exactly when a nearest path is packed into it (R150 to R154). -/
theorem trellisDecode_iff (c : Cfg) (m : Memory) (off : Nat) (b : Block) :
    trellisDecode c m off = some b ↔ ∃ ys, IsPacked ys b ∧ IsNearestPath c m off ys := by
  rw [trellisDecode, Option.map_eq_some_iff, List.exists_iff_exists_tuple]
  constructor
  · rintro ⟨n, ys, hrun, hpack⟩
    obtain rfl : n = 49 := (List.length_ofFn (f := ys)).symm.trans (length_of_trellisRun_segment hrun)
    exact ⟨ys, (blockOf_packed ys b).mp hpack, (trellisRun_segment_iff c m off ys).mp hrun⟩
  · rintro ⟨ys, hpack, hnear⟩
    exact ⟨49, ys, (trellisRun_segment_iff c m off ys).mpr hnear, (blockOf_packed ys b).mpr hpack⟩

/-- Settles O48: a segment whose cells exist is decoded, and a block is answered along a nearest path only. -/
theorem trellisDecodesTheNearestPath : Obligations.TrellisDecodesTheNearestPath :=
  fun off s hfits => ⟨trellisDecode Config.cfg s.body off, if_pos hfits, trellisDecode_iff Config.cfg s.body off⟩

/-- Settles O49: a path that is received as it was sent lies at distance 0, and every other transition farther away, as
the codewords out of a state are distinct. -/
theorem trellisWithoutErrors : Obligations.TrellisWithoutErrors := by
  intro c m off ys b hc hsent hpack
  refine (trellisDecode_iff c m off b).mpr ⟨ys, hpack, fun j x hx => ?_⟩
  have hne : c.trellisTab (stateBefore ys j) (ys j) ≠ c.trellisTab (stateBefore ys j) x :=
    fun heq => hx (hc.tab_distinct _ _ _ heq).symm
  rw [hsent j, Bits.dist_self]
  exact Nat.pos_of_ne_zero (mt Bits.eq_of_dist_eq_zero hne)

/-! ### CRC16 -/

/-- The CRC16 of a buffer with two bytes behind it is that with two zero bytes, plus the two bytes (R155). -/
theorem crc16_append_two (c : Cfg) (d : List Byte) (hi lo : Byte) :
    crc16 c (d ++ [hi, lo]) = crc16 c (d ++ [0, 0]) ^^^ (hi ++ lo) := by
  have hbits : Bits.bytesBits [hi, lo] = Bits.toBits (hi ++ lo) := by
    rw [Bits.toBits_append, Bits.bytesBits_cons, Bits.bytesBits_cons, Bits.bytesBits_nil, List.append_nil]
  have hzeros : Bits.bytesBits [0, 0] = List.replicate 16 false := bytesBits_zeros 2
  have hlen : (Bits.toBits (hi ++ lo)).length = 16 := Bits.toBits_length _
  unfold crc16
  rw [Bits.bytesBits_append, Bits.bytesBits_append, List.foldl_append, List.foldl_append, hbits, hzeros,
    crc16_fold_split _ (Bits.toBits (hi ++ lo)), hlen, crc16_fold_short _ _ hlen.le, BitVec.setWidth_xor,
    ofBits_setWidth (by decide), Bits.ofBits_toBits, BitVec.xor_assoc, BitVec.xor_comm (hi ++ lo), ← BitVec.xor_assoc]

/-- The CRC16 of zero bytes (R155). -/
theorem crc16_zero_bytes (c : Cfg) (n : Nat) : crc16 c (List.replicate n 0) = 0xFFFF := by
  rw [crc16, bytesBits_zeros, crc16_zeros]
  rfl

/-- Settles O50: the two bytes behind the buffer enter its CRC16 as they are. -/
theorem crc16CheckValue : Obligations.Crc16CheckValue := by
  refine ⟨fun _ _ => rfl, fun c d hi lo => ?_, crc16_zero_bytes⟩
  rw [crc16_append_two]
  exact BitVec.xor_eq_zero_iff.trans eq_comm

/-- The value of a value's bits at another width. -/
theorem ofBits_toBits_setWidth {v : Nat} (w : Nat) (e : BitVec v) : Bits.ofBits w (Bits.toBits e) = e.setWidth w := by
  apply BitVec.eq_of_toNat_eq
  simp [Bits.ofBits, Bits.toBits, Bits.toNatBE_natBits]

/-- A change of one byte changes the register behind it by just that change (R155). -/
theorem crc16_fold_xor_byte (p r : BitVec 17) (x e : Byte) :
    (Bits.toBits (x ^^^ e)).foldl (crc16Bit p) r = (Bits.toBits x).foldl (crc16Bit p) r ^^^ e.setWidth 17 := by
  have hlen : (Bits.toBits e).length = 8 := Bits.toBits_length e
  calc (Bits.toBits (x ^^^ e)).foldl (crc16Bit p) r
      = (List.zipWith xor (Bits.toBits x) (Bits.toBits e)).foldl (crc16Bit p) (r ^^^ 0#17) := by
        rw [toBits_xor, BitVec.xor_zero]
    _ = (Bits.toBits x).foldl (crc16Bit p) r ^^^ (Bits.toBits e).foldl (crc16Bit p) 0 :=
        crc16_fold_xor p _ _ ((Bits.toBits_length x).trans hlen.symm) r 0
    _ = (Bits.toBits x).foldl (crc16Bit p) r ^^^ e.setWidth 17 := by
        rw [crc16_fold_short p _ (by omega), ofBits_toBits_setWidth]

/-- A run over zero bits takes a sum of registers to the sum of what they become. -/
theorem crc16_fold_zeros_xor (p : BitVec 17) (n : Nat) (r q : BitVec 17) :
    (List.replicate n false).foldl (crc16Bit p) (r ^^^ q) =
      (List.replicate n false).foldl (crc16Bit p) r ^^^ (List.replicate n false).foldl (crc16Bit p) q := by
  rw [← crc16_fold_xor p _ _ rfl, List.zipWith_replicate, Nat.min_self]
  rfl

/-- A change of one byte changes the CRC16 by what the change becomes over the bytes behind it (R155). -/
theorem crc16_xor_byte (c : Cfg) (a b : List Byte) (x e : Byte) :
    crc16 c (a ++ (x ^^^ e) :: b) = crc16 c (a ++ x :: b) ^^^
      ((List.replicate (8 * b.length) false).foldl (crc16Bit c.crc16Poly) (e.setWidth 17)).setWidth 16 := by
  rw [crc16_split_bytes, crc16_split_bytes, crc16_fold_xor_byte, crc16_fold_zeros_xor]
  simp only [BitVec.setWidth_xor]
  ac_rfl

/-- A nonzero CRC16 register with a clear top bit is nonzero without it. -/
theorem setWidth16_ne_zero {r : BitVec 17} (htop : r.getLsbD 16 = false) (hne : r ≠ 0) : r.setWidth 16 ≠ 0#16 := by
  intro hlow
  refine hne (BitVec.eq_of_getLsbD_eq fun i hi => ?_)
  by_cases h16 : i < 16
  · simpa [h16] using congrArg (fun v => v.getLsbD i) hlow
  · obtain rfl : i = 16 := by omega
    rw [htop]
    rfl

/-- The change of one bit, as a change of the CRC16 register. -/
theorem twoPow_setWidth17 : ∀ j : Fin 8,
    ((BitVec.twoPow 8 j.val).setWidth 17).getLsbD 16 = false ∧ (BitVec.twoPow 8 j.val).setWidth 17 ≠ 0 := by
  decide

/-- Settles O51: what the change of one bit becomes in the register is never 0. -/
theorem singleBitChangeIsDetected : Obligations.SingleBitChangeIsDetected := by
  intro c a b x j h16 h0 heq
  obtain ⟨hbit, hbit_ne⟩ := twoPow_setWidth17 j
  obtain ⟨htop, hne⟩ := crc16_zeros_ne h16 h0 (8 * b.length) _ hbit hbit_ne
  rw [crc16_xor_byte] at heq
  exact setWidth16_ne_zero htop hne ((BitVec.xor_right_inj _).mp (heq.trans BitVec.xor_zero.symm))

/-! ### CRC32 -/

/-- The payload check compares the last 32 bits with the CRC32 of the bits before them (R159). -/
theorem crc32Valid_append_iff (c : Cfg) (bits : List Bool) (u : BitVec 32) :
    crc32Valid c (bits ++ Bits.toBits u) = true ↔ u = crc32 c bits := by
  have hlen : (bits ++ Bits.toBits u).length - 32 = bits.length := by simp
  rw [crc32Valid, hlen, List.take_left, List.drop_left, Bits.ofBits_toBits, beq_iff_eq, eq_comm]

/-- Zero bits leave a zero CRC32 register zero (R158). -/
theorem crc32_zeros (poly : BitVec 33) (n : Nat) : (List.replicate n false).foldl (crc32Bit poly) 0 = 0 := by
  induction n with
  | zero => rfl
  | succ n ih =>
    have hbit : crc32Bit poly 0 false = 0 := by simp [crc32Bit]
    rw [List.replicate_succ, List.foldl_cons, hbit, ih]

/-- The CRC32 of zero bits (R158). -/
theorem crc32_zero_bits (c : Cfg) (n : Nat) : crc32 c (List.replicate n false) = 0xFFFFFFFF := by
  rw [crc32, crc32_zeros]
  rfl

/-- Settles O52: the check value appended is read back as the value it is compared with. -/
theorem crc32AppendedCheckPasses : Obligations.Crc32AppendedCheckPasses := by
  refine ⟨fun bits _ => ⟨crc32 Config.cfg bits, rfl, crc32Valid_append_iff Config.cfg bits⟩, fun n s => ?_⟩
  rw [← crc32_zero_bits Config.cfg n]
  rfl

end Sys2Proof.Machine

/-! The dispatch and the frame-type processors run by themselves (log entry 3): what the processors answer, and the
proofs of the statements about them (spec/42_frame_processors.md). -/

namespace Sys2Proof.Machine

open Sys2Proof

/-! ### The dispatch -/

theorem dispatched_discard {nac : BitVec 12} (hnac : nac = 0) (duid : BitVec 4) (m : Memory) (ess : Ess) :
    dispatched nac duid m ess = ⟨[], ess⟩ :=
  if_pos hnac

theorem dispatched_recognized {nac : BitVec 12} {duid : BitVec 4} {t : FrameType} (hnac : nac ≠ 0)
    (ht : typeOfCode Config.cfg.duid duid = some t) (m : Memory) (ess : Ess) :
    dispatched nac duid m ess = processor Config.cfg t ⟨nac, duid⟩ m ess := by
  rw [dispatched, if_neg hnac, ht]

theorem dispatched_unrec {nac : BitVec 12} {duid : BitVec 4} (hnac : nac ≠ 0)
    (hd : typeOfCode Config.cfg.duid duid = none) (m : Memory) (ess : Ess) :
    dispatched nac duid m ess = ⟨[], ess⟩ := by
  rw [dispatched, if_neg hnac, hd]

/-- The step of a recognized row whose processor answers `r`: the events and ESS, and nothing else (R196). -/
theorem exec_typeInstr {t : FrameType} {nac : BitVec 12} {s : State} {r : ProcResult}
    (h : processor Config.cfg t ⟨nac, Config.cfg.duid t⟩ s.body s.ess = r) :
    exec (typeInstr t nac) s = .next { s.quiet with events := r.events, ess := r.ess } := by
  subst h
  cases t <;> rfl

/-- Settles O32: the two rows end the step as it began. -/
theorem discardedFramesLeaveNoTrace : Obligations.DiscardedFramesLeaveNoTrace :=
  ⟨fun _ _ => rfl, fun _ _ _ => rfl⟩

/-- Settles O31: the decoder and the dispatch test the NAC and the type code alike. -/
theorem informationWordRunsTheDispatch : Obligations.InformationWordRunsTheDispatch := by
  intro nac duid s
  by_cases hnac : nac = 0
  · rw [dispatched_discard hnac]
    obtain rfl : nac = 0#12 := hnac
    rw [decodeInfo_discard]
    rfl
  · cases ht : typeOfCode Config.cfg.duid duid with
    | some t =>
      rw [decodeInfo_recognized hnac ht, dispatched_recognized hnac ht]
      exact exec_typeInstr (by rw [code_of_typeOfCode _ _ _ ht])
    | none =>
      rw [decodeInfo_unrec hnac ht, dispatched_unrec hnac ht]
      rfl

/-- Settles O42: the events of the dispatch are those of the one processor it runs. -/
theorem eventsPerFrame : Obligations.EventsPerFrame := by
  intro nac duid m ess
  refine ⟨fun e he => dispatchResult_event_form Config.cfg nac duid m ess e (dispatchResult_cfg .. ▸ he), ?_⟩
  by_cases hnac : nac = 0
  · rw [if_pos (.inl hnac), dispatched_discard hnac]
  · cases ht : typeOfCode Config.cfg.duid duid with
    | none => rw [if_pos (.inr ((typeOfCode_none _ _).mp ht)), dispatched_unrec hnac ht]
    | some t =>
      have hrec : isRecognized Config.cfg.duid duid ≠ false := fun h => by
        rw [(typeOfCode_none _ _).mpr h] at ht
        cases ht
      rw [if_neg (not_or.mpr ⟨hnac, hrec⟩), dispatched_recognized hnac ht, ← code_of_typeOfCode _ _ _ ht]
      split
      · next htsbk =>
        rw [Config.cfg_wellFormed.duid_distinct _ _ htsbk]
        exact processor_tsbk_events _ Config.cfg_wellFormed.tsbkMaxBlocks_pos ..
      · next htsbk => exact processor_one_event _ t (fun h => htsbk (congrArg _ h)) ..

/-- A processor that changes ESS is that of HDU, LDU1 or LDU2 (R34, R195). -/
theorem processor_ess_writers {c : Cfg} {t : FrameType} {h : Header} {m : Memory} {ess : Ess}
    (hne : (processor c t h m ess).ess ≠ ess) : t = .hdu ∨ t = .ldu1 ∨ t = .ldu2 := by
  by_contra hother
  obtain ⟨hhdu, hldu1, hldu2⟩ : t ≠ .hdu ∧ t ≠ .ldu1 ∧ t ≠ .ldu2 := by simpa only [not_or] using hother
  exact hne (processor_keeps_ess c t hhdu hldu1 hldu2 h m ess)

/-- Settles O41: by the row the word names; a word of no recognized type leaves ESS alone. -/
theorem processorsWriteOnlyEventsAndEss : Obligations.ProcessorsWriteOnlyEventsAndEss := by
  intro word s
  have hrow := infoRow_decodeInfo Config.cfg.duid word
  generalize decodeInfo Config.cfg.duid word = i at hrow ⊢
  cases hrow with
  | discard | unrec => exact ⟨_, rfl, rfl, fun h => absurd rfl h, nofun, nofun⟩
  | @recognized nac d t =>
    refine ⟨_, exec_typeInstr rfl, rfl, fun hne => ⟨nac, ?_⟩, fun nac' hi => ?_, fun nac' hi => ?_⟩
    · obtain rfl | rfl | rfl := processor_ess_writers hne
      · exact .inl rfl
      · exact .inr (.inl rfl)
      · exact .inr (.inr rfl)
    · cases t with
      | ldu1 => exact processor_ldu1_ess ..
      | hdu | tdu | tsbk | ldu2 | pdu | tdulc => cases hi
    · cases t with
      | ldu2 => exact processor_ldu2_tgid ..
      | hdu | tdu | ldu1 | tsbk | pdu | tdulc => cases hi

/-! ### TDU -/

/-- Settles O33: the processor answers its one event without a look at the body, and DUID_TDU is always 3. -/
theorem terminatorEmitsOneEvent : Obligations.TerminatorEmitsOneEvent := by
  refine ⟨fun nac s => ?_, by decide⟩
  have h := exec_typeInstr (t := .tdu) (nac := nac) (s := s) rfl
  rw [Config.cfg_wellFormed.duid_tdu] at h
  exact h

/-! ### The received hexbits -/

/-- The vector of `n` received hexbits: zeros, then the hexbits in order (R82). -/
theorem hexVecOf_getElem_of_length {l : List Hexbit} {n : Nat} (hl : l.length = n) (hn : n ≤ 63) {q : Nat}
    (hq : q < 63) : (hexVecOf l)[q] = if h : 63 - n ≤ q then l[q - (63 - n)] else 0 := by
  subst hl
  exact hexVecOf_get l hn q hq

theorem hexVecOf_map_finRange {n : Nat} (hn : n ≤ 63) (f : Fin n → Hexbit) (q : Fin 63) :
    (hexVecOf ((List.finRange n).map f))[q] =
      if h : 63 - n ≤ q.val then f ⟨q.val - (63 - n), by omega⟩ else 0 := by
  rw [Fin.getElem_fin, hexVecOf_getElem_of_length (n := n) (by simp) hn q.isLt]
  simp

/-! ### HDU -/

/-- The hexbits of the header words (R136, R172). -/
theorem hduWords_fst (c : Cfg) (m : Memory) : (hduWords c m).map Prod.fst =
    (List.finRange 36).map fun i =>
      (g24Decode c ((m.gather (c.hduCwPos i)).setWidth 24)).value.extractLsb' 0 6 :=
  List.map_map

/-- The mismatch count of the header words (R135, R172). -/
theorem hduWords_mismCount (c : Cfg) (m : Memory) : mismCount ((hduWords c m).map Prod.snd) =
    (List.finRange 36).countP fun i => mism24 c ((m.gather (c.hduCwPos i)).setWidth 24) := by
  rw [mismCount, hduWords, List.map_map, List.countP_map]
  rfl

/-- HDU by its two bounds: too many mismatches or no Reed-Solomon codeword, or else the fields (R172 to R174). -/
theorem procHdu_eq {c : Cfg} {m : Memory} {r : HexVec × Int}
    (hr : c.rsDec .k47 (hexVecOf ((hduWords c m).map Prod.fst)) = r) (h : Header) (ess : Ess) :
    procHdu c h m ess =
      if c.hduMismMax < mismCount ((hduWords c m).map Prod.snd) ∨ r.2 < 0 then ⟨[evFail h], ess⟩
      else ⟨[headerEvent h (headerFieldsOf (headerData r.1))], headerEss (headerFieldsOf (headerData r.1))⟩ := by
  simp only [procHdu, headerPasses, decide_eq_true_eq, hr]
  by_cases hpass : mismCount ((hduWords c m).map Prod.snd) ≤ c.hduMismMax
  · simp only [if_pos hpass, Nat.not_lt_of_le hpass, false_or]
  · rw [if_neg hpass, if_pos (.inl (Nat.lt_of_not_le hpass))]

/-- Settles O34: the two bounds decide between the failure event and the fields. -/
theorem headerProcessing : Obligations.HeaderProcessing := by
  intro nac s
  refine ⟨hexVecOf ((hduWords Config.cfg s.body).map Prod.fst), headerData (Config.cfg.rsDec .k47 _).1,
    fun q => ?_, fun j => slice_hexRun 20 _ 27 j.val (by decide) j.isLt, ?_⟩
  · rw [hduWords_fst]
    exact hexVecOf_map_finRange (by decide) _ q
  · have hproc := procHdu_eq (c := Config.cfg) (m := s.body) rfl ⟨nac, Config.cfg.duid .hdu⟩ s.ess
    rw [hduWords_mismCount] at hproc
    split
    · next hbad => exact exec_typeInstr (t := .hdu) (hproc.trans (if_pos hbad))
    · next hgood => exact exec_typeInstr (t := .hdu) (hproc.trans (if_neg hgood))

/-- The header words received: a sent hexbit in the shortened code each, with flipped bits inside the radius, give the
hexbits back and flag exactly the words with a flipped bit (R133, R136). -/
theorem hduWords_sent {c : Cfg} (hc : c.WellFormed) {m : Memory} {x : Fin 36 → Hexbit} {e : Fin 36 → BitVec 18}
    (hsent : ∀ i, m.gather (c.hduCwPos i) = (c.enc24 ((x i).setWidth 12)).setWidth 18 ^^^ e i)
    (he : ∀ i, Bits.popcount (e i) ≤ c.t24) :
    hduWords c m = (List.finRange 36).map fun i => (x i, e i != 0) :=
  List.map_congr_left fun i _ => by rw [hsent i, headerWord_correct hc (x i) (e i) (he i)]

/-- A codeword that begins with 27 zeros is the vector of its other 36 hexbits (R82). -/
theorem hexVecOf_tail {cw : HexVec} (hzero : ∀ q : Fin 27, cw[q.val] = 0) :
    hexVecOf ((List.finRange 36).map fun i => cw[27 + i.val]) = cw := by
  refine Vector.ext fun q hq => ?_
  refine (hexVecOf_map_finRange (n := 36) (by decide) _ ⟨q, hq⟩).trans ?_
  by_cases h : 27 ≤ q
  · simp only [dif_pos h, Nat.add_sub_cancel' h]
  · rw [dif_neg h, hzero ⟨q, Nat.lt_of_not_le h⟩]

/-- A codeword is decoded to itself, without errors (R142). -/
theorem rsDec_rsEnc {c : Cfg} (hc : c.WellFormed) (i : RsInst) (p : Vector Hexbit i.k) :
    c.rsDec i (c.rsEnc i p) = (c.rsEnc i p, 0) := by
  have h := hc.rs_success i (c.rsEnc i p) p
  rw [symDist_self] at h
  exact h (Nat.zero_le _)

/-- The 120 bits whose hexbits are hexbits 27 to 46 of a vector are its header data (R172, R81). -/
theorem headerData_eq {hb : HexVec} {D : BitVec 120}
    (hD : ∀ j : Fin 20, D.extractLsb' (6 * (19 - j.val)) 6 = hb[27 + j.val]) : headerData hb = D :=
  Bits.eq_of_slices 20 _ _ fun j hj => (slice_hexRun 20 hb 27 j (by decide) hj).trans (hD ⟨j, hj⟩).symm

/-- Settles O35: the words give the codeword's hexbits back, Reed-Solomon leaves the codeword as it is, and its payload
holds the data. -/
theorem headerSurvivesBitErrors : Obligations.HeaderSurvivesBitErrors := by
  intro nac s p D e c hzero hD hsent he hcount
  have hc : c.WellFormed := Config.cfg_wellFormed
  have hsys : ∀ (q : Nat) (hq : q < 47), (c.rsEnc .k47 p)[q] = p[q]'hq := fun q hq =>
    hc.rs_systematic .k47 p ⟨q, hq⟩ ⟨q, by omega⟩ rfl
  have hwords := hduWords_sent hc hsent he
  have hvec : hexVecOf ((hduWords c s.body).map Prod.fst) = c.rsEnc .k47 p := by
    rw [hwords, List.map_map]
    exact hexVecOf_tail fun q => (hsys q.val (by omega)).trans (hzero q)
  have hmism : mismCount ((hduWords c s.body).map Prod.snd) ≤ c.hduMismMax := by
    rw [hwords, List.map_map, mismCount, List.countP_map]
    exact hcount
  have hdata : headerData (c.rsEnc .k47 p) = D := headerData_eq fun j => (hD j).trans (hsys _ _).symm
  have hrs : c.rsDec .k47 (hexVecOf ((hduWords c s.body).map Prod.fst)) = (c.rsEnc .k47 p, 0) := by
    rw [hvec, rsDec_rsEnc hc]
  have hproc := procHdu_eq hrs ⟨nac, c.duid .hdu⟩ s.ess
  rw [if_neg (not_or.mpr ⟨Nat.not_lt_of_le hmism, Int.lt_irrefl 0⟩), hdata] at hproc
  exact exec_typeInstr (t := .hdu) hproc

/-! ### LDU1 and LDU2 -/

/-- The voice of a frame below the voice limit (R176). -/
theorem imbeField_eq (c : Cfg) (m : Memory) (mism : Nat) :
    imbeField c m mism = if mism < c.voiceMismLim then [(.imbe, .buffer (voiceExtract c m))] else [] := by
  simp only [imbeField, voicePasses, decide_eq_true_eq]

/-- LDU1 by its Reed-Solomon part: tried and good, tried and hard, or not tried (R176, R179). -/
theorem procLdu1_eq {c : Cfg} {m : Memory} {hb : HexVec} {mism : Nat} {r : HexVec × Int}
    (hw : lduHexbits c m c.ldu1HbPos = (hb, mism)) (hr : c.rsDec .k51 hb = r) (h : Header) (ess : Ess) :
    procLdu1 c h m ess =
      ⟨[ev h ((if mism < c.lcMismLim ∧ 0 ≤ r.2 then [(.lcw, .buffer (lcwOf r.1).toList)] else []) ++
            imbeField c m mism ++
            [(.ok, .bool (decide (mism < c.voiceMismLim ∧ ¬ (mism < c.lcMismLim ∧ r.2 < 0))))])],
        if mism < c.lcMismLim ∧ 0 ≤ r.2 then lcwEss c (lcwOf r.1) ess else ess⟩ := by
  simp only [procLdu1, hw, hr, lcPasses, decide_eq_true_eq, voicePasses, voiceOk]
  by_cases htried : mism < c.lcMismLim
  · by_cases hhard : r.2 < 0
    · simp [htried, hhard, Int.not_le.mpr hhard]
    · simp [htried, hhard, Int.not_lt.mp hhard]
  · simp [htried]

/-- LDU2 by its Reed-Solomon part: tried and good, tried and hard, or not tried (R180, R179). -/
theorem procLdu2_eq {c : Cfg} {m : Memory} {hb : HexVec} {mism : Nat} {r : HexVec × Int}
    (hw : lduHexbits c m c.ldu2HbPos = (hb, mism)) (hr : c.rsDec .k55 hb = r) (h : Header) (ess : Ess) :
    procLdu2 c h m ess =
      ⟨[ev h (imbeField c m mism ++
            [(.ok, .bool (decide (mism < c.voiceMismLim ∧ ¬ (mism < c.lcMismLim ∧ r.2 < 0))))])],
        if mism < c.lcMismLim ∧ 0 ≤ r.2 then ldu2Ess (ldu2Data r.1) ess else ess⟩ := by
  simp only [procLdu2, hw, hr, lcPasses, decide_eq_true_eq, voicePasses, voiceOk]
  by_cases htried : mism < c.lcMismLim
  · by_cases hhard : r.2 < 0
    · simp [htried, hhard, Int.not_le.mpr hhard]
    · simp [htried, hhard, Int.not_lt.mp hhard]
  · simp [htried]

/-- Settles O36: the vector and the count of `ldu_hexbits`, and the closed form of the processor. -/
theorem voiceFrameOne : Obligations.VoiceFrameOne := by
  intro nac s
  refine ⟨(lduHexbits Config.cfg s.body Config.cfg.ldu1HbPos).1,
    Bits.ofHexbits 72 (hexRun (Config.cfg.rsDec .k51 _).1 39 12), lduHexbits_fst _ _ _,
    fun j => slice_hexRun 12 _ 39 j.val (by decide) j.isLt, ?_⟩
  have hproc := procLdu1_eq (c := Config.cfg) (m := s.body) rfl rfl ⟨nac, Config.cfg.duid .ldu1⟩ s.ess
  rw [imbeField_eq] at hproc
  rw [← lduHexbits_snd]
  exact exec_typeInstr (t := .ldu1) hproc

/-- Settles O37: the vector and the count of `ldu_hexbits`, and the closed form of the processor. -/
theorem voiceFrameTwo : Obligations.VoiceFrameTwo := by
  intro nac s
  refine ⟨(lduHexbits Config.cfg s.body Config.cfg.ldu2HbPos).1, ldu2Data (Config.cfg.rsDec .k55 _).1,
    lduHexbits_fst _ _ _, fun j => slice_hexRun 16 _ 39 j.val (by decide) j.isLt, ?_⟩
  have hproc := procLdu2_eq (c := Config.cfg) (m := s.body) rfl rfl ⟨nac, Config.cfg.duid .ldu2⟩ s.ess
  rw [imbeField_eq] at hproc
  rw [← lduHexbits_snd]
  exact exec_typeInstr (t := .ldu2) hproc

/-! ### TSBK -/

theorem tsbkOffsets_getElem (c : Cfg) (k : Nat) (h : k < (tsbkOffsets c).length) :
    (tsbkOffsets c)[k] = c.tsbkBlockOff k := by
  simp [tsbkOffsets]

theorem procTsbk_of_blocks {c : Cfg} {m : Memory} {bs : List Block} (hbs : tsbkBlocks c m (tsbkOffsets c) = some bs)
    (h : Header) (ess : Ess) : procTsbk c h m ess = ⟨bs.map (tsbkEvent c h), ess⟩ := by
  rw [procTsbk, hbs]

theorem procTsbk_of_failure {c : Cfg} {m : Memory} (hbs : tsbkBlocks c m (tsbkOffsets c) = none)
    (h : Header) (ess : Ess) : procTsbk c h m ess = ⟨[evFail h], ess⟩ := by
  rw [procTsbk, hbs]

/-- A trunking frame that does not fail has one to TSBK_MAX_BLOCKS blocks, as it has as many events (R197). -/
theorem tsbkBlocks_length {c : Cfg} (hc : c.WellFormed) {m : Memory} {bs : List Block}
    (hbs : tsbkBlocks c m (tsbkOffsets c) = some bs) : 0 < bs.length ∧ bs.length ≤ c.tsbkMaxBlocks := by
  have hevents := processor_tsbk_events c hc.tsbkMaxBlocks_pos ⟨0, 0⟩ m Ess.reset
  rwa [processor, procTsbk_of_blocks hbs, List.length_map] at hevents

/-- Settles O38: the blocks fail at a segment, or end with a last block or with the last segment. -/
theorem trunkingBlocks : Obligations.TrunkingBlocks := by
  intro nac s c block
  cases hbs : tsbkBlocks c s.body (tsbkOffsets c) with
  | none =>
    obtain ⟨n, hn, hbefore, hfail⟩ := tsbkBlocks_none c s.body _ hbs
    simp only [tsbkOffsets_getElem] at hbefore hfail
    exact .inl ⟨n, tsbkOffsets_length c ▸ hn, hbefore, hfail,
      exec_typeInstr (t := .tsbk) (procTsbk_of_failure hbs _ _)⟩
  | some bs =>
    obtain ⟨hpos, hle⟩ := tsbkBlocks_length Config.cfg_wellFormed hbs
    obtain ⟨-, hblocks⟩ := tsbkBlocks_some c s.body _ bs hbs
    simp only [tsbkOffsets_getElem, tsbkOffsets_length] at hblocks
    exact .inr ⟨bs, hpos, hle, fun k hk => hblocks k hk (Nat.lt_of_lt_of_le hk hle),
      exec_typeInstr (t := .tsbk) (procTsbk_of_blocks hbs _ _)⟩

/-! ### PDU -/

/-- The payload check of `n` blocks of 96 bits (R159). -/
theorem crc32Valid_payloadBits (c : Cfg) {d : List Block} {n : Nat} (hlen : d.length = n) :
    crc32Valid c (payloadBits d) = (crc32 c ((payloadBits d).take (96 * n - 32)) ==
      Bits.ofBits 32 ((payloadBits d).drop (96 * n - 32))) := by
  rw [crc32Valid, payloadBits_length, hlen]

theorem pduOffsets_length (c : Cfg) (n : Nat) : (pduOffsets c n).length = n := by
  simp [pduOffsets]

theorem pduOffsets_getElem (c : Cfg) (n k : Nat) (h : k < (pduOffsets c n).length) :
    (pduOffsets c n)[k] = c.pduBlockOff (k + 1) := by
  simp [pduOffsets]

section

/-! PDU by its header block, the multi-block condition and its data blocks (R187). -/

variable {c : Cfg} {m : Memory} {b : Block}

theorem procPdu_of_headerFailure (h0 : trellisDecode c m (c.pduBlockOff 0) = none) (h : Header) (ess : Ess) :
    procPdu c h m ess = ⟨[evFail h], ess⟩ := by
  rw [procPdu, h0]

theorem procPdu_of_header (h0 : trellisDecode c m (c.pduBlockOff 0) = some b) (hmulti : ¬ isMultiBlock c b = true)
    (h : Header) (ess : Ess) : procPdu c h m ess = ⟨[pduHeaderEvent c h b], ess⟩ := by
  rw [procPdu, h0]
  exact if_neg hmulti

theorem procPdu_of_dataFailure (h0 : trellisDecode c m (c.pduBlockOff 0) = some b) (hmulti : isMultiBlock c b = true)
    (hdata : pduBlocks c m (pduOffsets c (c.pduBlks b).toNat) = none) (h : Header) (ess : Ess) :
    procPdu c h m ess = ⟨[evFail h], ess⟩ := by
  rw [procPdu, h0]
  simp only [hmulti, if_true, hdata]

theorem procPdu_of_data {d : List Block} (h0 : trellisDecode c m (c.pduBlockOff 0) = some b)
    (hmulti : isMultiBlock c b = true) (hdata : pduBlocks c m (pduOffsets c (c.pduBlks b).toNat) = some d) (h : Header)
    (ess : Ess) : procPdu c h m ess = ⟨[pduMultiEvent c h b d], ess⟩ := by
  rw [procPdu, h0]
  simp only [hmulti, if_true, hdata]

end

/-- Settles O39: by the header block, the multi-block condition and the data blocks. -/
theorem packetData : Obligations.PacketData := by
  intro nac s c block failed
  cases h0 : block 0 with
  | none => exact exec_typeInstr (t := .pdu) (procPdu_of_headerFailure h0 _ _)
  | some h =>
    dsimp only
    split
    · next hcond =>
      have hmulti := (isMultiBlock_iff c h).mpr hcond
      cases hdata : pduBlocks c s.body (pduOffsets c (c.pduBlks h).toNat) with
      | none =>
        obtain ⟨k, hk, hfail⟩ := pduBlocks_none c s.body _ hdata
        rw [pduOffsets_length] at hk
        rw [pduOffsets_getElem] at hfail
        exact .inl ⟨⟨k + 1, Nat.succ_pos k, hk, hfail⟩,
          exec_typeInstr (t := .pdu) (procPdu_of_dataFailure h0 hmulti hdata _ _)⟩
      | some d =>
        obtain ⟨hlen, hblocks⟩ := pduBlocks_some c s.body _ d hdata
        simp only [pduOffsets_length, pduOffsets_getElem] at hlen hblocks
        have hproc := procPdu_of_data h0 hmulti hdata ⟨nac, c.duid .pdu⟩ s.ess
        rw [pduMultiEvent, crc32Valid_payloadBits c hlen] at hproc
        exact .inr ⟨d, hlen, fun k hk => hblocks k hk (hlen ▸ hk), hlen ▸ payloadBits_length d,
          exec_typeInstr (t := .pdu) hproc⟩
    · next hcond =>
      exact exec_typeInstr (t := .pdu) (procPdu_of_header h0 (mt (isMultiBlock_iff c h).mp hcond) _ _)

/-! ### TDULC -/

theorem tdulcHexbits_length (c : Cfg) (m : Memory) : (tdulcHexbits c m).length = 24 :=
  (Bits.flatMap_length _ 2 _ fun _ => rfl).trans (by simp)

/-- Before the hexbits of a terminator with link control stand 39 zeros (R191, R82). -/
theorem tdulc_hexVec_zero (c : Cfg) (m : Memory) (q : Fin 39) : (hexVecOf (tdulcHexbits c m))[q.val] = 0 :=
  (hexVecOf_getElem_of_length (tdulcHexbits_length c m) (by decide) (by omega)).trans (dif_neg (by omega))

/-- The two hexbits of each word of a terminator with link control follow in order (R191, R82). -/
theorem tdulc_hexVec_get (c : Cfg) (m : Memory) (i : Fin 12) (b : Nat) (hb : b < 2) {q : Nat}
    (hq : q = 39 + (2 * i.val + b)) : (hexVecOf (tdulcHexbits c m))[q]'(by omega) =
      (g24Decode c (m.gather (c.tdulcCwPos i))).value.extractLsb' (6 - 6 * b) 6 := by
  rw [hexVecOf_getElem_of_length (tdulcHexbits_length c m) (by decide) (by omega), dif_pos (by omega),
    List.getElem_eq_iff, show q - (63 - 24) = 2 * i.val + b by omega]
  exact tdulc_get c m i b hb

/-- TDULC by what Reed-Solomon gives (R191). -/
theorem procTdulc_eq {c : Cfg} {m : Memory} {r : HexVec × Int} (hr : c.rsDec .k51 (hexVecOf (tdulcHexbits c m)) = r)
    (h : Header) (ess : Ess) : procTdulc c h m ess =
      ⟨[ev h (if r.2 < 0 then [(.ok, .bool false)]
        else [(.lcw, .buffer (lcwOf r.1).toList), (.ok, .bool true)])], ess⟩ := by
  rw [procTdulc, hr]
  split <;> rfl

/-- Settles O40: the vector of the words' hexbits, and the closed form of the processor. -/
theorem terminatorWithLinkControl : Obligations.TerminatorWithLinkControl := by
  intro nac s
  exact ⟨hexVecOf (tdulcHexbits Config.cfg s.body), Bits.ofHexbits 72 (hexRun (Config.cfg.rsDec .k51 _).1 39 12),
    tdulc_hexVec_zero _ _,
    fun i => ⟨tdulc_hexVec_get _ _ i 0 (by decide) rfl, tdulc_hexVec_get _ _ i 1 (by decide) (by omega)⟩,
    fun j => slice_hexRun 12 _ 39 j.val (by decide) j.isLt, exec_typeInstr (t := .tdulc) (procTdulc_eq rfl _ _)⟩

end Sys2Proof.Machine

/-! The voice codeword extractor: what VOICE_DEINT reads, that VOICE_PACK only cuts the fields into bytes, and the
proofs of the statements about them (spec/43_voice_extractor.md). -/

namespace Sys2Proof.Machine

open Sys2Proof

open Sys2Proof.ConfigExists (extract_append_top extract_append_low)

/-! ### VOICE_DEINT -/

/-- The step of VOICE_DEINT (R201). -/
theorem exec_voiceDeint (g : Fin 9) (s : State) : exec (.voiceDeint g) s =
    .next { s.quiet with unitOut := some (.voiceDeint (voiceDeint Config.cfg s.body g)) } := rfl

/-- The j-th bit from the top of a field stands at entry `p + j` of the row (R201, R87). -/
theorem gather_voiceSlice_getLsbD (m : Memory) (T : Fin 86 → Nat) {p w : Nat} (h : p + w ≤ 86) (j : Fin w) :
    (m.gather (voiceSlice T p w h)).getLsbD (w - 1 - j.val) = m.read (T ⟨p + j.val, by omega⟩) :=
  Memory.gather_getLsbD m (voiceSlice T p w h) j

/-- Settles O56: each field is gathered from its slice of the row. -/
theorem voiceFieldsComeFromTheirRow : Obligations.VoiceFieldsComeFromTheirRow := by
  intro g s
  have hbit {p w : Nat} (h : p + w ≤ 86) := gather_voiceSlice_getLsbD s.body (Config.cfg.voicePos g) h
  refine ⟨voiceDeint Config.cfg s.body g, exec_voiceDeint g s, fun j => ?_, hbit _, hbit _, hbit _, hbit _, hbit _,
    hbit _, hbit _⟩
  exact (hbit (p := 0) (by decide) j).trans (by simp only [Nat.zero_add])

/-! ### VOICE_PACK -/

/-- The step of VOICE_PACK (R202). -/
theorem exec_voicePack (u : VoiceFields) (s : State) :
    exec (.voicePack u) s = .next { s.quiet with unitOut := some (.voicePack (voicePack u)) } := rfl

/-- A value is put together from its upper and its lower slice. -/
theorem append_eq_of_slices {m n : Nat} {x : BitVec (m + n)} {a : BitVec m} {b : BitVec n}
    (ha : a = x.extractLsb' n m) (hb : b = x.extractLsb' 0 n) : a ++ b = x := by
  rw [ha, hb, split_append]

/-- Every field lies in two neighbouring pieces: a whole byte, or the upper or lower part of a byte that two fields
share (R202, R205). -/
theorem voiceUnpack_voicePack (u : VoiceFields) : voiceUnpack (voicePack u) = u := by
  obtain ⟨u0, u1, u2, u3, u4, u5, u6, u7⟩ := u
  rw [voiceUnpack, VoiceFields.mk.injEq]
  exact ⟨append_eq_of_slices rfl (extract_append_top ..),
    append_eq_of_slices (extract_append_low ..) rfl,
    append_eq_of_slices rfl (extract_append_top ..),
    append_eq_of_slices (extract_append_low ..) rfl,
    append_eq_of_slices rfl (extract_append_top ..),
    append_eq_of_slices (extract_append_low ..) (extract_append_top ..),
    append_eq_of_slices (extract_append_low ..) (extract_append_top ..),
    append_eq_of_slices (extract_append_low ..) (extract_append_top ..)⟩

/-- By the byte's place: the top or the end of one field, two fields sharing a byte, or the last byte, whose low bits
hold no field (R205, R206). -/
theorem voicePack_voiceUnpack (b : Bytes11) (h : b[10].extractLsb' 0 2 = 0) : voicePack (voiceUnpack b) = b :=
  Vector.ext fun
    | 0, _ | 3, _ | 6, _ => extract_append_top ..
    | 2, _ | 5, _ => extract_append_low ..
    | 1, _ | 4, _ | 7, _ | 8, _ | 9, _ => append_eq_of_slices (extract_append_low ..) (extract_append_top ..)
    | 10, _ => append_eq_of_slices (extract_append_low ..) h.symm

/-- The two low bits of the last byte are 0 (R206). -/
theorem voicePack_lastByte_low (u : VoiceFields) : (voicePack u)[10].extractLsb' 0 2 = 0 := extract_append_low ..

/-- Settles O57: packing and unpacking invert each other on the buffers whose last two bits are 0. -/
theorem voicePackRoundTrip : Obligations.VoicePackRoundTrip :=
  ⟨fun u s => ⟨voicePack u, exec_voicePack u s, voiceUnpack_voicePack u, voicePack_lastByte_low u⟩,
    voicePack_voiceUnpack⟩

/-! ### VOICE_EXTRACT -/

theorem voiceExtract_length (c : Cfg) (m : Memory) : (voiceExtract c m).length = 99 :=
  (Bits.flatMap_length _ 11 _ fun _ => Vector.length_toList).trans (by rw [List.length_finRange])

/-- Segment g stands in bytes 11g to 11g+10 (R200). -/
theorem voiceExtract_segment (c : Cfg) (m : Memory) (g : Fin 9) :
    ((voiceExtract c m).drop (11 * g.val)).take 11 = (voicePack (voiceDeint c m g)).toList := by
  rw [voiceExtract, Bits.take_drop_flatMap _ 11 _ (fun _ => Vector.length_toList) g.val (by simp),
    List.getElem_finRange]
  rfl

/-- VOICE_EXTRACT depends on the body bits at the nine rows only (R207). -/
theorem voiceExtract_congr {c : Cfg} {m m' : Memory}
    (h : ∀ g j, m'.read (c.voicePos g j) = m.read (c.voicePos g j)) : voiceExtract c m' = voiceExtract c m := by
  simp only [voiceExtract, fun g => voiceDeint_congr c m m' g (h g)]

/-- Settles O58: nine packed segments of eleven bytes, each a function of the bits at its row. -/
theorem voiceDependsOnVoiceBitsOnly : Obligations.VoiceDependsOnVoiceBitsOnly :=
  fun c m => ⟨voiceExtract_length c m, voiceExtract_segment c m, fun _ => voiceExtract_congr⟩

end Sys2Proof.Machine

/-! Events and the host (spec/44_events_host.md): the statistics event and its period, the host's own operations, and
the text of events. -/

namespace Sys2Proof.Machine

open Sys2Proof

/-! ### The statistics event -/

/-- The events of a step with a symbol: decode events, then the statistics event if it is due (R210). -/
theorem observe_events_of_step (c : Cfg) (d : Sym) (s : State) :
    ∃ es, (∀ e ∈ es, e.kind = .p25Du) ∧ (observe c d s.beginStep).events =
      es ++ if s.StatDue then [statsEventOf (observe c d s.beginStep)] else [] := by
  refine ⟨_, fun e he => ?_, observe_events c d s.beginStep⟩
  rw [beginStep_events, List.nil_append] at he
  split at he
  · obtain ⟨fields, rfl⟩ := dispatchResult_event_form _ _ _ _ _ e he
    rfl
  · cases he

/-- Settles O26: the statistics tick comes after the dispatch, whose events are decode events, and it is the last to
write the divider. -/
theorem statisticsEventWhenDue : Obligations.StatisticsEventWhenDue := by
  intro sym s
  obtain ⟨es, hkind, hevents⟩ := observe_events_of_step Config.cfg sym s
  have hdiv := observe_statDiv Config.cfg sym s.beginStep
  refine ⟨_, es, rfl, hkind, ?_⟩
  by_cases hdue : s.StatDue
  · rw [if_pos hdue] at hevents ⊢
    exact ⟨hdiv.trans (if_pos hdue), hevents⟩
  · rw [if_neg hdue] at hevents ⊢
    exact ⟨hdiv.trans (if_neg hdue), hevents.trans (List.append_nil es)⟩

/-! ### Its period -/

/-- The statistics event is due when the divider stands one below the period (R218). -/
theorem statDue_iff (s : State) : s.StatDue ↔ s.statDiv.toNat + 1 = STATS_PERIOD := by
  have hlt := s.statDiv.isLt
  rw [State.StatDue, ← BitVec.toNat_inj, BitVec.toNat_add]
  show (s.statDiv.toNat + 1) % 2 ^ 9 = 480 ↔ s.statDiv.toNat + 1 = 480
  omega

/-- A run of symbols counts its length, modulo 2^64 (R30, R101). -/
theorem observeAll_symbols (c : Cfg) (s : State) (l : List Sym) :
    (observeAll c s l).symbols.toNat = (s.symbols.toNat + l.length) % 2 ^ 64 := by
  induction l using List.reverseRecOn with
  | nil => exact (Nat.mod_eq_of_lt s.symbols.isLt).symm
  | append_singleton l d ih =>
    rw [observeAll_concat, observe_symbols, beginStep_symbols, BitVec.toNat_add, ih, List.length_append,
      ← Nat.add_assoc]
    exact Nat.mod_add_mod ..

/-- From a fresh period on, the divider is the length of the run modulo the period (R32, R218). -/
theorem observeAll_statDiv (c : Cfg) {s : State} (h : s.statDiv = 0) (l : List Sym) :
    (observeAll c s l).statDiv.toNat = l.length % STATS_PERIOD := by
  induction l using List.reverseRecOn with
  | nil => rw [observeAll, List.foldl_nil, h]; rfl
  | append_singleton l d ih =>
    have hlt : (observeAll c s l).statDiv.toNat < STATS_PERIOD := ih ▸ Nat.mod_lt _ (by decide)
    rw [observeAll_concat, observe_statDiv_toNat c d (observeAll c s l).beginStep hlt, beginStep_statDiv, ih,
      Nat.mod_add_mod, List.length_append, List.length_singleton]

/-- The statistics events of a step with a symbol are the one that is due, or none. -/
theorem observe_statsEvents (c : Cfg) (d : Sym) (s : State) :
    (observe c d s.beginStep).events.filter (fun e => e.kind == .stats) =
      if s.StatDue then [statsEventOf (observe c d s.beginStep)] else [] := by
  obtain ⟨es, hkind, hevents⟩ := observe_events_of_step c d s
  have hdecode : es.filter (fun e => e.kind == .stats) = [] :=
    List.filter_eq_nil_iff.mpr fun e he => by rw [hkind e he]; decide
  rw [hevents, List.filter_append, hdecode, List.nil_append]
  split <;> rfl

/-- Settles O28: the divider is the number of symbols of the run, so the event falls due with the 480th and with none
before. -/
theorem statisticsEventOncePerPeriod : Obligations.StatisticsEventOncePerPeriod := by
  intro c s syms hdiv hpos hle
  refine ⟨observeAll_symbols c s syms, observeAll_statDiv c hdiv syms, ?_⟩
  obtain ⟨init, d, rfl⟩ : ∃ init d, syms = init ++ [d] :=
    ⟨_, _, (List.dropLast_concat_getLast (List.ne_nil_of_length_pos hpos)).symm⟩
  rw [List.length_append, List.length_singleton] at hle
  have hbefore : (observeAll c s init).statDiv.toNat = init.length :=
    (observeAll_statDiv c hdiv init).trans (Nat.mod_eq_of_lt hle)
  rw [observeAll_concat, observe_statsEvents, List.length_append, List.length_singleton]
  simp only [statDue_iff, hbefore]

/-! ### The host's operations -/

/-- Settles O14: both are one record update each. -/
theorem idleAndStatsClear : Obligations.IdleAndStatsClear :=
  fun _ _ => ⟨rfl, rfl, rfl, rfl⟩

/-- Settles O15: the outputs are cleared before or after the counters with the same result, and a symbol counted on a
cleared counter makes 1. -/
theorem clearThenObserve : Obligations.ClearThenObserve := by
  intro sym s
  refine ⟨congrArg Except.ok (decodeIn_append sym).2.2.2, observe Config.cfg sym s.beginStep.clearStats, rfl, rfl, ?_⟩
  rw [observe_symbols, clearStats_symbols]
  rfl

/-! ### The text of values -/

/-- The two digits of byte `k` of a buffer stand at places `2 * k` and `2 * k + 1` of its text (R13). -/
theorem bufferText_getD (bytes : List Byte) (k : Nat) (hk : k < bytes.length) :
    (bufferText bytes).getD (2 * k) '0' = hexDigit (bytes[k].toNat / 16) ∧
    (bufferText bytes).getD (2 * k + 1) '0' = hexDigit bytes[k].toNat := by
  induction bytes generalizing k with
  | nil => cases hk
  | cons b bytes ih =>
    rw [bufferText_cons]
    cases k with
    | zero => exact ⟨rfl, rfl⟩
    | succ k => exact ih k (Nat.lt_of_succ_lt_succ hk)

theorem bufferText_length (bytes : List Byte) : (bufferText bytes).length = 2 * bytes.length :=
  Bits.flatMap_length _ 2 bytes fun b => (hexText_spec 2 b.toNat).1

theorem mem_digits_of_mem_bufferText {bytes : List Byte} {ch : Char} (h : ch ∈ bufferText bytes) :
    ch ∈ "0123456789abcdef".toList := by
  obtain ⟨b, -, hch⟩ := List.mem_flatMap.mp h
  exact (hexText_spec 2 b.toNat).2.1 ch hch

/-- The two digits of a byte read back as the byte. -/
theorem hexDigit_pair (b : Byte) : 16 * "0123456789abcdef".toList.idxOf (hexDigit (b.toNat / 16)) +
    "0123456789abcdef".toList.idxOf (hexDigit b.toNat) = b.toNat := by
  have hlt := b.isLt
  rw [(hexDigit_mem _).2, (hexDigit_mem _).2]
  omega

/-- Settles O59: the text between the quotes is `hexText`, `bufferText` or the library's decimal digits. -/
theorem valueRendering : Obligations.ValueRendering := by
  refine ⟨fun d n => ⟨hexText d n, rfl, hexText_spec d n⟩, ⟨by decide, by decide⟩, fun bytes => ?_, decText_spec⟩
  refine ⟨bufferText bytes, rfl, bufferText_length bytes, fun _ => mem_digits_of_mem_bufferText, fun k => ?_⟩
  obtain ⟨hhigh, hlow⟩ := bufferText_getD bytes k k.isLt
  rw [hhigh, hlow]
  exact hexDigit_pair bytes[k]

/-! ### The line of an event -/

/-- A text without a line terminator (R212). -/
abbrev OneLine (t : List Char) : Prop := '\n' ∉ t ∧ '\r' ∉ t

theorem oneLine_append {t u : List Char} : OneLine (t ++ u) ↔ OneLine t ∧ OneLine u := by
  rw [OneLine, List.mem_append, List.mem_append, not_or, not_or, and_and_and_comm]

theorem oneLine_of_subset {t u : List Char} (h : t ⊆ u) (hu : OneLine u) : OneLine t :=
  ⟨fun hch => hu.1 (h hch), fun hch => hu.2 (h hch)⟩

theorem oneLine_quoted {t : List Char} (h : OneLine t) : OneLine (quoted t) := by
  simpa [OneLine, quoted] using h

/-- A text of digits: what every value but a boolean is made of (R213, R214, R216, R217). -/
theorem oneLine_of_digits {t : List Char} (h : ∀ ch ∈ t, ch ∈ "0123456789abcdef".toList) : OneLine t :=
  oneLine_of_subset h (by decide)

theorem oneLine_value (v : Value) : OneLine v.render := by
  cases v with
  | dec n => exact oneLine_of_subset (decText_spec n).2.1 (by decide)
  | hex digits n =>
    have hmark : OneLine ['0', 'x'] := by decide
    exact oneLine_quoted (oneLine_append.mpr ⟨hmark, oneLine_of_digits (hexText_spec digits n).2.1⟩)
  | bool b => cases b <;> decide
  | buffer bytes => exact oneLine_quoted (oneLine_of_digits fun _ => mem_digits_of_mem_bufferText)

theorem oneLine_nameText {name : String} (h : OneLine name.toList) : OneLine (nameText name) :=
  oneLine_append.mpr ⟨oneLine_quoted h, by decide⟩

theorem oneLine_fieldName (n : FieldName) : OneLine n.text.toList := by
  cases n <;> decide

theorem oneLine_eventKind (k : EventKind) : OneLine k.text.toList := by
  cases k <;> decide

theorem oneLine_field (f : FieldName × Value) : OneLine (nameText f.1.text ++ f.2.render) :=
  oneLine_append.mpr ⟨oneLine_nameText (oneLine_fieldName f.1), oneLine_value f.2⟩

theorem oneLine_fieldsText (fields : List (FieldName × Value)) : OneLine (fieldsText fields) := by
  induction fields with
  | nil => decide
  | cons f fs ih =>
    cases fs with
    | nil => exact oneLine_field f
    | cons g gs =>
      have hcomma : OneLine [',', ' '] := by decide
      exact oneLine_append.mpr ⟨oneLine_append.mpr ⟨oneLine_field f, hcomma⟩, ih⟩

/-- The line of an event is one line, whatever its fields (R212). -/
theorem oneLine_render (e : Event) : OneLine e.render := by
  have hopen : OneLine [openBrace] := by decide
  have hclose : OneLine [closeBrace, closeBrace] := by decide
  simp only [Event.render, oneLine_append]
  exact ⟨⟨⟨⟨hopen, oneLine_nameText (oneLine_eventKind e.kind)⟩, hopen⟩, oneLine_fieldsText e.fields⟩, hclose⟩

/-- A name's text, character by character (R212). -/
theorem nameText_eq (name : String) : nameText name = ['"'] ++ name.toList ++ ['"', ':', ' '] :=
  List.append_assoc ('"' :: name.toList) ['"'] [':', ' ']

/-- Settles O60: the fields are joined by `fieldsText`, and no part of the line holds a line terminator. -/
theorem eventLine : Obligations.EventLine := by
  refine ⟨fun e => ⟨?_, fun ch hch => ?_⟩, fun s => ?_⟩
  · rw [Event.render, fieldsText_eq]
    simp [nameText_eq]
  · exact ⟨fun h => (oneLine_render e).1 (h ▸ hch), fun h => (oneLine_render e).2 (h ▸ hch)⟩
  · simp [Event.render, statsEventOf, fieldsText, nameText_eq, FieldName.text, EventKind.text]

end Sys2Proof.Machine

/-! What stops a run (spec/60_exceptions.md): nothing that the ports carry, and an ill-formed configuration before any
step. -/

namespace Sys2Proof.Machine

open Sys2Proof

/-- With port inputs only, the block is presented a port input, the idle word past the last one (R63). -/
theorem presented_of_allPins {s : State} (h : s.input.all Presented.isPins = true) :
    ∃ rst word, s.presented = .pins rst word := by
  cases hs : s.input with
  | nil => exact ⟨0, 0, presented_of_noInput hs⟩
  | cons p rest =>
    rw [hs, List.all_cons, Bool.and_eq_true] at h
    cases p with
    | pins rst word => exact ⟨rst, word, presented_cons hs⟩
    | info _ | row _ | unit _ _ => cases h.1

/-- Every word of format IN has a next state: IDLE, OBSERVE and the two clears all have one (R70). -/
theorem exec_decodeIn_next (word : BitVec 4) (s : State) : ∃ t, exec (decodeIn word) s = .next t := by
  unfold decodeIn
  split <;> exact ⟨_, rfl⟩

/-- A step on a port input has a next state, whatever the state (R236). -/
theorem step_next_of_pins {s : State} {rst : BitVec 1} {word : BitVec 4} (h : s.presented = .pins rst word) :
    ∃ t, step s = .next t := by
  have hdec : decode s.presented = .ok (if rst = 1 then .reset word else decodeIn word) := congrArg decode h
  rw [step_of_decode hdec]
  split
  · exact ⟨_, rfl⟩
  · exact exec_decodeIn_next word s.takeInput

/-- A step takes inputs away and adds none, so a stimulus of port inputs stays one. -/
theorem step_keeps_allPins {s t : State} (h : s.input.all Presented.isPins = true) (ht : step s = .next t) :
    t.input.all Presented.isPins = true := by
  rw [stepRunsTheDecodedOperation.2.2 s t ht]
  exact List.all_eq_true.mpr fun p hp => List.all_eq_true.mp h p (List.mem_of_mem_tail hp)

/-- A first step with a next state puts a safe run one step further back. -/
theorem safeRun_succ {s t : State} {n : Nat} (h : step s = .next t) (hrun : SafeRun t n) : SafeRun s (n + 1) := by
  rw [SafeRun, run_succ_of_next (M := Sys2Proof.core) h]
  exact hrun

/-- Driven through its ports the block runs for any number of steps (R236), by induction on their number. -/
theorem safeRun_of_allPins (n : Nat) : ∀ {s : State}, s.input.all Presented.isPins = true → SafeRun s n := by
  induction n with
  | zero => exact fun {s} _ => ⟨s, rfl⟩
  | succ n ih =>
    intro s h
    obtain ⟨rst, word, hp⟩ := presented_of_allPins h
    obtain ⟨t, ht⟩ := step_next_of_pins hp
    exact safeRun_succ ht (ih (step_keeps_allPins h ht))

/-- The check of R6 refuses a configuration that breaks a constraint, whichever decision procedure it is given. -/
theorem accept_of_not_wellFormed {c : Cfg} (check : Decidable c.WellFormed) (h : ¬ c.WellFormed) :
    c.accept check = .error .illFormed := by
  cases check with
  | isTrue hc => exact absurd hc h
  | isFalse _ => rfl

/-- Settles O6: every port input steps to a next state that again has only port inputs, and the check of R6 stands
before the first step. -/
theorem blockNeverStops : Obligations.BlockNeverStops :=
  ⟨fun _ n h => safeRun_of_allPins n h, fun _ check h => accept_of_not_wellFormed check h⟩

end Sys2Proof.Machine

/-! The reset (spec/70_reset_and_hazards.md). -/

namespace Sys2Proof.Machine

open Sys2Proof

/-- The reset looks at nothing of the state but the inputs to come, and not at the input word (R260). -/
theorem exec_reset (word : BitVec 4) (s : State) : exec (.reset word) s = .next { State.reset with input := s.input } :=
  rfl

/-- Settles O16: each field of the next state is its value in `State.reset`, whose body buffer lists no cell, so that
every body bit reads as 0. -/
theorem resetFromAnyState : Obligations.ResetFromAnyState :=
  fun word s => ⟨_, exec_reset word s, rfl, rfl, rfl, rfl, rfl, rfl, Memory.read_nil, rfl, rfl, rfl, rfl, rfl, rfl, rfl, rfl,
    rfl, rfl, rfl, rfl, rfl, rfl, rfl, rfl, rfl, rfl⟩

end Sys2Proof.Machine
